-- ==== Sys2Proof/Word.lean ====
section
/-! DEFINITION. The word types of the QRGF unit and their plainest arithmetic (00_scope.md R7, R9). -/

namespace Sys2Proof

/-- A register, a command word or the data of one bus access: `WORD` = 32 bits (00_scope.md R7). -/
abbrev Word := BitVec 32

/-- A GF(256) element, a polynomial coefficient or a byte of the bit buffer. -/
abbrev Byte := BitVec 8

/-- A byte address on the unit's bus, relative to its base: `ADDR_BITS` = 20 (00_scope.md R7). -/
abbrev Addr := BitVec 20

/-- `zext_32` of a byte (00_scope.md R9). -/
def zext32 (b : Byte) : Word := b.setWidth 32

/-- `zext_32` of a byte address, as FAULT_INFO records it (10_state.md R26). -/
def addrWord (a : Addr) : Word := a.setWidth 32

/-- One bit as a 32-bit word. -/
def bitWord (b : Bool) : Word := if b then 1 else 0

/-- `sint32`: a word read as a two's complement integer (00_scope.md R9). -/
def sint32 (w : Word) : Int := w.toInt

end Sys2Proof
end

