-- ==== Sys2Proof/Syntax.lean ====
section
/-! DEFINITION. What the host can say to the unit: the commands (30_encoding.md R102), the raw command word, the kinds
of operand (R105), the registers by name (10_state.md R21) and the events of the bus (20_memory.md R60). -/

namespace Sys2Proof

/-- The unit's commands, one constructor per row of spec/opcode_table.json (30_encoding.md R102). No command word
carries an operand (R101), so no constructor has a field. -/
inductive Instr where
  | nop
  | gfExp
  | gfLog
  | gfMul
  | pNorm
  | pMul
  | pMod
  | pGen
  | rsRem
  | bbClear
  | bbPut
  | bbPutBit
  | bbPad
  | bchFmt
  | bchVer
  | maskEval
  | matFill
  | penalty
  | selReset
  | selScore
  deriving DecidableEq, Repr

/-- The two fields of a command word (30_encoding.md R100). -/
structure RawCommand where
  /-- bits [7:0], the opcode -/
  opc : BitVec 8
  /-- bits [31:8], reserved, must be 0 -/
  rsv : BitVec 24
  deriving DecidableEq, Repr

/-- The kind of an ARG operand (30_encoding.md R105). -/
inductive OperandKind where
  | int32
  | word
  | elem
  | bit
  | sel
  | count (lo hi : Nat)
  deriving DecidableEq, Repr

/-- The kinds of the ARG operands a command decodes, ARG0 first: the "operands" column of 30_encoding.md R102 and the
table of 60_exceptions.md R285. -/
def Instr.argKinds : Instr → List OperandKind
  | .nop => []
  | .gfExp => [.int32]
  | .gfLog => [.elem]
  | .gfMul => [.elem, .elem]
  | .pNorm => [.sel, .count 0 256]
  | .pMul => []
  | .pMod => []
  | .pGen => [.count 0 255]
  | .rsRem => [.count 0 255]
  | .bbClear => []
  | .bbPut => [.word, .count 0 32]
  | .bbPutBit => [.bit]
  | .bbPad => [.count 0 4096]
  | .bchFmt => [.count 0 31]
  | .bchVer => [.count 0 63]
  | .maskEval => [.count 0 7, .count 0 255, .count 0 255]
  | .matFill => [.bit]
  | .penalty => []
  | .selReset => []
  | .selScore => [.count 0 7]

/-- The registers of the register map (10_state.md R21). -/
inductive Reg where
  | id
  | cmd
  | status
  | faultCause
  | faultInfo
  | arg0
  | arg1
  | arg2
  | result
  | paLen
  | pbLen
  | prLen
  | bbLen
  | matN
  | penalty
  | bestPenalty
  | bestMask
  deriving DecidableEq, Repr

/-- What happens next at the unit: an access of its one host (20_memory.md R60), the completion of the command in
flight (40_control.md R132), or an edge of the reset input (70_reset_and_hazards.md R320). `width` is the access's
width in bytes; the unit refuses any but 4 (20_memory.md R61). -/
inductive BusEvent where
  | read (addr : Addr) (width : Nat)
  | write (addr : Addr) (width : Nat) (value : Word)
  | complete
  | assertReset
  | releaseReset
  deriving DecidableEq, Repr

end Sys2Proof
end

