-- ==== Sys2Proof/WellFormed.lean ====
section
/-! DEFINITION. The static checks on commands: on the two fields of a raw command word (30_encoding.md R101, R103) and
on the operand kinds a command lists (R105, R106). -/

namespace Sys2Proof

/-- The opcodes that are assigned to a command; every other value is reserved (30_encoding.md R102, R103). -/
def assignedOpcodes : List (BitVec 8) :=
  [0x00, 0x01, 0x02, 0x03] ++ [0x10, 0x11, 0x12, 0x13, 0x14] ++ [0x20, 0x21, 0x22, 0x23] ++ [0x30, 0x31]
    ++ [0x40, 0x41, 0x42, 0x43, 0x44]

/-- The reserved field is 0 (30_encoding.md R100). -/
def RawCommand.reservedZero (c : RawCommand) : Bool := c.rsv == 0

/-- The opcode is one of rule R102. -/
def RawCommand.opcodeAssigned (c : RawCommand) : Bool := assignedOpcodes.contains c.opc

/-- A raw command word that is not reserved (30_encoding.md R103). -/
def RawCommand.wellFormed (c : RawCommand) : Bool := c.reservedZero && c.opcodeAssigned

/-- A `count lo..hi` kind names a range of 32-bit values that is not empty (30_encoding.md R105). -/
def OperandKind.wellFormed : OperandKind → Bool
  | .count lo hi => decide (lo ≤ hi ∧ hi < 2 ^ 32)
  | _ => true

/-- A list of operand kinds fits the three ARG registers and each kind is well formed (30_encoding.md R105). -/
def kindsWellFormed (ks : List OperandKind) : Bool := decide (ks.length ≤ 3) && ks.all OperandKind.wellFormed

/-- A command is well formed when the kinds of its operands are. Commands have no fields, so this holds of every one
(`Sys2Proof.Laws.instr_wellFormed`). -/
def Instr.wellFormed (i : Instr) : Bool := kindsWellFormed i.argKinds

end Sys2Proof
end

