-- ==== Sys2Proof/Decode.lean ====
section
/-! DEFINITION. Decoding a command word (30_encoding.md R101), and the encoder. A command word reaches the unit as the
value of one 32-bit bus write and never as bytes in a memory (20_memory.md R69, R77). -/

namespace Sys2Proof

/-- Why a word is no command; the unit answers both with ILLEGAL_COMMAND (30_encoding.md R101). -/
inductive DecodeReject where
  /-- `w[31:8]` is not 0 -/
  | reservedField
  /-- `w[7:0]` is not an opcode of rule R102 -/
  | reservedOpcode
  deriving DecidableEq, Repr

/-- The fields of a command word (30_encoding.md R100). -/
def rawCommand (w : Word) : RawCommand := ⟨w.setWidth 8, (w >>> 8).setWidth 24⟩

/-- The opcode map, row by row (30_encoding.md R102). -/
def opcodeMap : List (BitVec 8 × Instr) :=
  [(0x00, .nop), (0x01, .gfExp), (0x02, .gfLog), (0x03, .gfMul)]
    ++ [(0x10, .pNorm), (0x11, .pMul), (0x12, .pMod), (0x13, .pGen), (0x14, .rsRem)]
    ++ [(0x20, .bbClear), (0x21, .bbPut), (0x22, .bbPutBit), (0x23, .bbPad)]
    ++ [(0x30, .bchFmt), (0x31, .bchVer)]
    ++ [(0x40, .maskEval), (0x41, .matFill), (0x42, .penalty), (0x43, .selReset), (0x44, .selScore)]

/-- Decoding: total on every 32-bit word, the reserved field checked first (30_encoding.md R101). -/
def decode (w : Word) : Except DecodeReject Instr :=
  if (rawCommand w).rsv ≠ 0 then .error .reservedField
  else
    match opcodeMap.lookup (rawCommand w).opc with
    | some i => .ok i
    | none => .error .reservedOpcode

/-- The opcode of a command (30_encoding.md R102). -/
def opcode : Instr → BitVec 8
  | .nop => 0x00
  | .gfExp => 0x01
  | .gfLog => 0x02
  | .gfMul => 0x03
  | .pNorm => 0x10
  | .pMul => 0x11
  | .pMod => 0x12
  | .pGen => 0x13
  | .rsRem => 0x14
  | .bbClear => 0x20
  | .bbPut => 0x21
  | .bbPutBit => 0x22
  | .bbPad => 0x23
  | .bchFmt => 0x30
  | .bchVer => 0x31
  | .maskEval => 0x40
  | .matFill => 0x41
  | .penalty => 0x42
  | .selReset => 0x43
  | .selScore => 0x44

/-- The command word of a command: its opcode under a reserved field of 0 (30_encoding.md R100, R102). -/
def encode (i : Instr) : Word := (opcode i).setWidth 32

/-- The command word the opcode table's numbering means: `w` cut to `nbits` bits, every bit above them 0. -/
def tableWord (nbits w : Nat) : Nat := w % 2 ^ nbits

/-- The instruction the decoder reads from a word of spec/opcode_table.json. -/
def decodeTableWord (nbits w : Nat) : Option Instr :=
  if tableWord nbits w < 2 ^ 32 then (decode (BitVec.ofNat 32 (tableWord nbits w))).toOption else none

end Sys2Proof
end

