-- ==== Sys2Proof/Config.lean ====
section
/-! DEFINITION. What is fixed for the machine (00_scope.md R7), and the values the spec leaves open: constants
without a body, so that no proof can see what they are. FIELD_POLY, the mask predicates and the BCH constants
stand in the files of the families that use them, where a repair may mend them. -/

namespace Sys2Proof.Config

/-- `PMAX`: coefficients of each of PA, PB, PR (00_scope.md R7). -/
abbrev pmax : Nat := 256

/-- `BB_BYTES`: bytes of the bit buffer (00_scope.md R7). -/
abbrev bbBytes : Nat := 4096

/-- `NMAX`: the side of the module matrix MAT (00_scope.md R7). -/
abbrev nmax : Nat := 177

/-- What a buffer cell holds that nothing has written since reset: any value (10_state.md R46,
93_implementation_defined.md I2). Applied to `State.freeCount`, which every reset advances, and to the cell's byte
address, so that it stays the same from read to read (20_memory.md R71). Log entry 6. -/
opaque unwrittenCell : Nat → Nat → Byte

/-- What a host read returns while reset is asserted: any value (93_implementation_defined.md I11). Applied to
`State.freeCount`, which every such read advances. Log entry 7. -/
opaque resetReadData : Nat → Word

end Sys2Proof.Config
end

