-- ==== Sys2Proof/Machine/State.lean ====
section
/-! DEFINITION. The state of the QRGF unit as plain data (10_state.md R41), why the model can stop, and the state after
reset (10_state.md R45, R46). -/

namespace Sys2Proof.Machine

/-- The cause codes of the unit's own faults (60_exceptions.md R281). Codes 9 to 15 are never produced, so no
constructor stands for them (log entry 17). -/
inductive Cause where
  | none
  | invalidFieldOp
  | zeroDivisor
  | illegalCommand
  | operandRange
  | capacity
  | busyAccess
  | address
  | regValue
  deriving DecidableEq, Repr

/-- The contents of the buffer windows: (byte address, value) pairs at strictly rising addresses. An address that is
not listed is a cell nothing has written since reset (10_state.md R42, R46). A coefficient, a BBUF byte or a module is
listed at the byte address of its word (20_memory.md R62); a module is the byte 0 or 1. -/
abbrev Memory := List Host.Cell

/-- What commands write: RESULT, the buffers and their lengths, MAT, PENALTY, BEST_* and STATUS.BEST_VALID (the last
column of the table of 20_memory.md R68). -/
structure Results where
  /-- RESULT (10_state.md R28) -/
  result : Word
  /-- PA, PB, PR, BBUF and MAT (10_state.md R29, R32, R34) -/
  mem : Memory
  /-- PA_LEN, 0 to 256 (10_state.md R30) -/
  paLen : Nat
  /-- PB_LEN, 0 to 256 (10_state.md R30) -/
  pbLen : Nat
  /-- PR_LEN, 0 to 256 (10_state.md R30) -/
  prLen : Nat
  /-- BB_LEN, 0 to 32768 (10_state.md R32) -/
  bbLen : Nat
  /-- PENALTY (10_state.md R36) -/
  penalty : Word
  /-- BEST_PENALTY (10_state.md R37) -/
  bestPenalty : Word
  /-- BEST_MASK (10_state.md R37) -/
  bestMask : BitVec 3
  /-- STATUS.BEST_VALID (10_state.md R24, R37) -/
  bestValid : Bool
  deriving DecidableEq, Repr

/-- The outcome of a command, fixed when it is accepted (40_control.md R131, R133): what every register and buffer a
command can write holds once its effects are applied, or the fault it raised (log entry 4). -/
inductive CommandOutcome where
  | ok (results : Results)
  | fault (cause : Cause)
  deriving DecidableEq, Repr

/-- The command in flight (10_state.md R39): its word and its pending outcome. -/
structure Flight where
  word : Word
  outcome : CommandOutcome
  deriving DecidableEq, Repr

/-- The state of the unit: the record of 10_state.md R41, whether reset is asserted (70_reset_and_hazards.md R320), and
three fields of the model's own (`readData`, `freeCount`, `bus`). -/
structure State extends Results where
  /-- ARG0 (10_state.md R27) -/
  arg0 : Word
  /-- ARG1 (10_state.md R27) -/
  arg1 : Word
  /-- ARG2 (10_state.md R27) -/
  arg2 : Word
  /-- MAT_N, 1 to 177 (10_state.md R35) -/
  matN : Nat
  /-- STATUS.BUSY (10_state.md R24) -/
  busy : Bool
  /-- STATUS.DONE (10_state.md R24) -/
  done : Bool
  /-- STATUS.FAULT (10_state.md R24) -/
  faultFlag : Bool
  /-- FAULT_CAUSE (10_state.md R25) -/
  faultCause : Cause
  /-- FAULT_INFO (10_state.md R26) -/
  faultInfo : Word
  /-- the command in flight (10_state.md R39) -/
  inflight : Option Flight
  /-- whether the platform holds reset asserted (70_reset_and_hazards.md R320; log entry 10) -/
  inReset : Bool
  /-- the model's own: the word the last bus read returned to the host (log entry 9) -/
  readData : Word
  /-- the model's own: what the free values of Config are applied to (log entry 8) -/
  freeCount : Nat
  /-- the model's own: the accesses, completions and reset edges still to come, next first (log entry 1) -/
  bus : List BusEvent
  deriving DecidableEq, Repr

/-- Why the model stops. The unit's own faults are no stops: they are records in the state (60_exceptions.md R280). -/
inductive Fault where
  /-- A command read the buffer cell at this byte address, which nothing has written since reset: the model-only reason
  of 10_state.md R42 and 93_implementation_defined.md I1. Raised by P_NORM, P_MUL, P_MOD, RS_REM, BB_PUT, BB_PUTBIT,
  BB_PAD, PENALTY and SEL_SCORE. Safe: the hardware goes on with an unspecified value (log entry 5). -/
  | unwrittenCell (addr : Nat)
  deriving DecidableEq, Repr

/-- Why the model has no meaning for an instruction. -/
inductive Refusal where
  /-- The instruction has no meaning in the model. Raised by no arm of exec: all are modelled. Safe. -/
  | notModelled (mnemonic : String)
  deriving DecidableEq, Repr

/-- The unit right after reset (10_state.md R45, R46). The values of `readData`, `freeCount` and `bus` are a DESIGN
CHOICE (log entries 1, 8, 9). -/
def State.reset : State where
  result := 0
  mem := []
  paLen := 0
  pbLen := 0
  prLen := 0
  bbLen := 0
  penalty := 0
  bestPenalty := 0
  bestMask := 0
  bestValid := false
  arg0 := 0
  arg1 := 0
  arg2 := 0
  matN := 21
  busy := false
  done := false
  faultFlag := false
  faultCause := .none
  faultInfo := 0
  inflight := Option.none
  inReset := false
  readData := 0
  freeCount := 0
  bus := []

end Sys2Proof.Machine
end

