-- ==== Sys2Proof/Machine/Flags.lean ====
section
/-! DEFINITION. The unit's four flags (10_state.md R24): the STATUS word, and how a command's life writes BUSY and DONE
(40_control.md R131, R132). FAULT is written by `recordFault` and `clearFault` (Machine/Ops.lean), BEST_VALID by
SEL_SCORE and SEL_RESET (Machine/Mask.lean). The unit has no arithmetic condition codes. -/

namespace Sys2Proof.Machine

/-- The STATUS word: bit 0 BUSY, bit 1 DONE, bit 2 FAULT, bit 3 BEST_VALID, the rest 0 (10_state.md R24). -/
def statusWord (s : State) : Word :=
  bitWord s.busy ||| (bitWord s.done <<< 1) ||| (bitWord s.faultFlag <<< 2) ||| (bitWord s.bestValid <<< 3)

/-- STATUS.BUSY <- 1, STATUS.DONE <- 0: a command is accepted (40_control.md R131). -/
def flagsAccepted (s : State) : State := { s with busy := true, done := false }

/-- STATUS.DONE <- 1, STATUS.BUSY <- 0: a command completes without fault (40_control.md R132). -/
def flagsCompleted (s : State) : State := { s with busy := false, done := true }

/-- STATUS.DONE <- 0, STATUS.BUSY <- 0: a command ends in a fault (40_control.md R132, 60_exceptions.md R292). -/
def flagsFaulted (s : State) : State := { s with busy := false, done := false }

end Sys2Proof.Machine
end

