-- ==== Sys2Proof/Machine/Ops.lean ====
section
/-! DEFINITION. The named operations the commands share: reading and writing buffer cells, recording and clearing a
fault (60_exceptions.md R290, R293), and the completion of a command (40_control.md R132). -/

namespace Sys2Proof.Machine

/-! ### Buffer cells -/

/-- The value held at a byte address, or none where nothing has been written since reset (10_state.md R42). -/
def Memory.read : Memory → Nat → Option Byte
  | [], _ => none
  | (k, v) :: rest, a => if k = a then some v else Memory.read rest a

/-- Write one cell, keeping the addresses strictly rising. -/
def Memory.write : Memory → Nat → Byte → Memory
  | [], a, v => [(a, v)]
  | (k, x) :: rest, a, v =>
    if a < k then (a, v) :: (k, x) :: rest
    else if a = k then (a, v) :: rest
    else (k, x) :: Memory.write rest a v

/-- The canonical form of a memory: strictly rising addresses. An unlisted address reads as no value, so no entry can
equal what it reads as. -/
abbrev Memory.wf (m : Memory) : Prop := (m.map Prod.fst).Pairwise (· < ·)

/-- The byte address of PA[i] (20_memory.md R62, R63). -/
def paAddr (i : Nat) : Nat := 0x1000 + 4 * i

/-- The byte address of PB[i] (20_memory.md R62, R63). -/
def pbAddr (i : Nat) : Nat := 0x1400 + 4 * i

/-- The byte address of PR[i] (20_memory.md R62, R63). -/
def prAddr (i : Nat) : Nat := 0x1800 + 4 * i

/-- The byte address of BBUF[j] (20_memory.md R62, R65). -/
def bbAddr (j : Nat) : Nat := 0x4000 + 4 * j

/-- The byte address of MAT[r][c] (20_memory.md R62, R64). -/
def matAddr (r c : Nat) : Nat := 0x10000 + 4 * (256 * r + c)

/-- Why a command stops before its effects: a fault of the unit (00_scope.md R10, `raise Fault`), or a read of a cell
that is not written, at which the model stops (10_state.md R42). -/
inductive Stop where
  | fault (cause : Cause)
  | unwritten (addr : Nat)
  deriving DecidableEq, Repr

/-- A computation of a command: a value, or why it stopped. -/
abbrev Attempt (α : Type) := Except Stop α

/-- `raise Fault(cause)` in a command's rule (00_scope.md R10). -/
def raise {α : Type} (cause : Cause) : Attempt α := .error (.fault cause)

/-- A command reads one cell (10_state.md R42). -/
def readCell (m : Memory) (a : Nat) : Attempt Byte :=
  match m.read a with
  | some v => .ok v
  | none => .error (.unwritten a)

/-- A command reads `n` cells of a window, the first at byte address `a`. -/
def readCells (m : Memory) : Nat → Nat → Attempt (List Byte)
  | _, 0 => .ok []
  | a, n + 1 =>
    match readCell m a with
    | .error e => .error e
    | .ok v =>
      match readCells m (a + 4) n with
      | .error e => .error e
      | .ok vs => .ok (v :: vs)

/-- A command writes a list of cells of a window, the first at byte address `a`; no other cell changes
(10_state.md R31). -/
def writeCells (m : Memory) : Nat → List Byte → Memory
  | _, [] => m
  | a, v :: vs => writeCells (m.write a v) (a + 4) vs

/-- Write the same value to every address of a list. The last address is written first, so that a rising list costs
one walk of the cells below it for each address; the order is not observable. -/
def fillCells (m : Memory) (addrs : List Nat) (v : Byte) : Memory := addrs.foldr (fun a m' => m'.write a v) m

/-! ### Taking a fault, and clearing it -/

/-- `recordFault(k, v)`: the first fault after a clear is kept, later ones are dropped (60_exceptions.md R290). This is
how the unit takes every fault, of a command or of an access; no control is transferred (R280). -/
def recordFault (cause : Cause) (info : Word) (s : State) : State :=
  if s.faultFlag then s else { s with faultFlag := true, faultCause := cause, faultInfo := info }

/-- The host clears the fault record (60_exceptions.md R293). -/
def clearFault (s : State) : State := { s with faultFlag := false, faultCause := .none, faultInfo := 0 }

/-! ### Completion -/

/-- `complete(w, outcome)`: the effects are applied, or the fault is recorded with the command word
(40_control.md R132, 60_exceptions.md R291, R292). -/
def finish (w : Word) (o : CommandOutcome) (s : State) : State :=
  match o with
  | .ok r => { flagsCompleted s with toResults := r, inflight := none }
  | .fault cause => recordFault cause w { flagsFaulted s with inflight := none }

/-- Carry out a command whose rule gives `attempt`: accept it and complete it with no host access between the two
(40_control.md R131, R132; the delay may be zero). The bus splits the same two in time (Machine/Bus.lean, log
entry 3). A read of an unwritten cell stops the model (10_state.md R42). -/
def conclude (i : Instr) (s : State) (attempt : Attempt Results) : Host.Outcome State Fault Refusal :=
  match attempt with
  | .ok r => .next (finish (encode i) (.ok r) s)
  | .error (.fault cause) => .next (finish (encode i) (.fault cause) s)
  | .error (.unwritten a) => .fault (.unwrittenCell a)

/-- RESULT <- v, and nothing else (10_state.md R28). -/
def withResult (s : State) (v : Word) : Results := { s.toResults with result := v }

end Sys2Proof.Machine
end

