-- ==== Sys2Proof/Machine/Operands.lean ====
section
/-! DEFINITION. Decoding the ARG operands by kind (30_encoding.md R105, R106). -/

namespace Sys2Proof.Machine

/-- Whether a register value lies in the range of a kind (30_encoding.md R105). -/
def kindLegal : OperandKind → Word → Bool
  | .int32, _ => true
  | .word, _ => true
  | .elem, a => decide (a.toNat ≤ 255)
  | .bit, a => decide (a.toNat ≤ 1)
  | .sel, a => decide (a.toNat ≤ 1)
  | .count lo hi, a => decide (lo ≤ a.toNat ∧ a.toNat ≤ hi)

/-- `operand(a, kind)`: the register's value, unchanged, or OPERAND_RANGE (30_encoding.md R105). -/
def operand (k : OperandKind) (a : Word) : Attempt Word :=
  if kindLegal k a then .ok a else raise .operandRange

/-- `operand(a, int32)`: legal always, read as a signed integer (30_encoding.md R105). -/
def operandInt (a : Word) : Attempt Int := .ok (sint32 a)

/-- `operand(a, elem)`: a field element (30_encoding.md R105). -/
def operandElem (a : Word) : Attempt Byte :=
  match operand .elem a with
  | .ok v => .ok (v.setWidth 8)
  | .error e => .error e

/-- `operand(a, count lo..hi)`: an unsigned number (30_encoding.md R105). -/
def operandCount (lo hi : Nat) (a : Word) : Attempt Nat :=
  match operand (.count lo hi) a with
  | .ok v => .ok v.toNat
  | .error e => .error e

/-- `operand(a, bit)`, as a Boolean: 1 is true (30_encoding.md R105). -/
def operandBit (a : Word) : Attempt Bool :=
  match operand .bit a with
  | .ok v => .ok (v == 1)
  | .error e => .error e

/-- `operand(a, sel)`, as a Boolean: false (0) selects PA, true (1) selects PB (30_encoding.md R105). -/
def operandSel (a : Word) : Attempt Bool :=
  match operand .sel a with
  | .ok v => .ok (v == 1)
  | .error e => .error e

end Sys2Proof.Machine
end

