-- ==== Sys2Proof/Machine/Bch.lean ====
section
/-! DEFINITION. The BCH family: format-info and version-info codewords (44_bch.md). -/

namespace Sys2Proof.Machine

/-- `G15`, the format-info generator (44_bch.md R220). -/
def g15 : Nat := 0b10100110111

/-- `G15_MASK`, the format-info mask (44_bch.md R220). -/
def g15Mask : Nat := 0b101010000010010

/-- `G18`, the version-info generator (44_bch.md R220). -/
def g18 : Nat := 0b1111100100101

/-- `digits(v)`: the number of binary digits of `v`, 0 for 0 (44_bch.md R221). -/
def digits (v : Nat) : Nat := if v = 0 then 0 else Nat.log2 v + 1

/-- The division loop of `bchRem`. Each pass cancels the leading digit, so a fuel of `digits v` is enough. -/
def bchLoop (g : Nat) : Nat → Nat → Nat
  | 0, v => v
  | fuel + 1, v =>
    if digits v < digits g then v else bchLoop g fuel (v ^^^ (g <<< (digits v - digits g)))

/-- `bchRem(v, G)`: the remainder of GF(2) polynomial division (44_bch.md R221). -/
def bchRem (v g : Nat) : Nat := bchLoop g (digits v) v

/-- `fmtEncode(d)`: data in the high 5 bits, remainder in the low 10, then the mask (44_bch.md R222; the layout is from
general knowledge, 93_implementation_defined.md G3, log entry 13). -/
def fmtEncode (d : Nat) : Nat := ((d <<< 10) ||| bchRem (d <<< 10) g15) ^^^ g15Mask

/-- `verEncode(d)`: data in the high 6 bits, remainder in the low 12, no mask (44_bch.md R225; log entry 13). -/
def verEncode (d : Nat) : Nat := (d <<< 12) ||| bchRem (d <<< 12) g18

/-- BCH_FMT: RESULT <- the format-info codeword of ARG0 (44_bch.md R223). -/
def execBchFmt (s : State) : Host.Outcome State Fault Refusal :=
  conclude .bchFmt s do
    let d ← operandCount 0 31 s.arg0
    return withResult s (BitVec.ofNat 32 (fmtEncode d))

/-- BCH_VER: RESULT <- the version-info codeword of ARG0 (44_bch.md R224). -/
def execBchVer (s : State) : Host.Outcome State Fault Refusal :=
  conclude .bchVer s do
    let d ← operandCount 0 63 s.arg0
    return withResult s (BitVec.ofNat 32 (verEncode d))

end Sys2Proof.Machine
end

