-- ==== Sys2Proof/Machine/BitBuf.lean ====
section
/-! DEFINITION. The bit-stream packer family (43_bitbuf.md). -/

namespace Sys2Proof.Machine

/-- A byte with its bit `i` set to `b`. -/
def setBit (v : Byte) (i : Nat) (b : Bool) : Byte :=
  let m : Byte := 1 <<< i
  if b then v ||| m else v &&& ~~~m

/-- The byte an append works on: a new zero byte at a byte boundary, else the current last byte
(43_bitbuf.md R200). -/
def appendTarget (r : Results) : Attempt Byte :=
  if r.bbLen % 8 = 0 then .ok 0 else readCell r.mem (bbAddr (r.bbLen / 8))

/-- `appendBit(b)` (43_bitbuf.md R200). -/
def appendBit (b : Bool) (r : Results) : Attempt Results :=
  match appendTarget r with
  | .error e => .error e
  | .ok v =>
    .ok { r with
      mem := r.mem.write (bbAddr (r.bbLen / 8)) (setBit v (7 - r.bbLen % 8) b)
      bbLen := r.bbLen + 1 }

/-- `appendBits(v, k)`: bits `k-1` down to 0 of `v` (43_bitbuf.md R201, 20_memory.md R70). -/
def appendBits (v : Nat) : Nat → Results → Attempt Results
  | 0, r => .ok r
  | k + 1, r =>
    match appendBit (v.testBit k) r with
    | .error e => .error e
    | .ok r' => appendBits v k r'

/-- The alignment loop of `padTo`: zero bits while BB_LEN is no multiple of 8 (43_bitbuf.md R202). -/
def alignByte (r : Results) : Attempt Results := appendBits 0 ((8 - r.bbLen % 8) % 8) r

/-- The pad bytes alternate, 0xEC first (43_bitbuf.md R202). -/
def padByte (t : Nat) : Nat := if t % 2 = 0 then 0xEC else 0x11

/-- The pad loop of `padTo`, from its counter `t` on, for `n` more bytes (43_bitbuf.md R202). -/
def padBytes (t : Nat) : Nat → Results → Attempt Results
  | 0, r => .ok r
  | n + 1, r =>
    match appendBits (padByte t) 8 r with
    | .error e => .error e
    | .ok r' => padBytes (t + 1) n r'

/-- The terminator of `padTo`: four zero bits where they fit (43_bitbuf.md R202). -/
def terminator (c : Nat) (r : Results) : Attempt Results :=
  if r.bbLen + 4 ≤ 8 * c then appendBits 0 4 r else .ok r

/-- `padTo(c)` (43_bitbuf.md R202). After alignment BB_LEN is a multiple of 8 and each pass of the last loop adds 8, so
it runs once for each byte still missing. -/
def padTo (c : Nat) (r : Results) : Attempt Results :=
  match terminator c r with
  | .error e => .error e
  | .ok r₁ =>
    match alignByte r₁ with
    | .error e => .error e
    | .ok r₂ => padBytes 0 (c - r₂.bbLen / 8) r₂

/-- CAPACITY where the stream would pass `limit` bits (60_exceptions.md R286). -/
def fitBits (len limit : Nat) : Attempt Unit := if len > limit then raise .capacity else .ok ()

/-- BB_CLEAR: BB_LEN <- 0; the bytes stay (43_bitbuf.md R203). -/
def execBbClear (s : State) : Host.Outcome State Fault Refusal :=
  conclude .bbClear s (.ok { s.toResults with bbLen := 0 })

/-- BB_PUT: append the low ARG1 bits of ARG0, most significant first (43_bitbuf.md R204). -/
def execBbPut (s : State) : Host.Outcome State Fault Refusal :=
  conclude .bbPut s do
    let v ← operand .word s.arg0
    let k ← operandCount 0 32 s.arg1
    fitBits (s.bbLen + k) (8 * Config.bbBytes)
    appendBits v.toNat k s.toResults

/-- BB_PUTBIT: append one bit (43_bitbuf.md R205). -/
def execBbPutBit (s : State) : Host.Outcome State Fault Refusal :=
  conclude .bbPutBit s do
    let b ← operandBit s.arg0
    fitBits (s.bbLen + 1) (8 * Config.bbBytes)
    appendBit b s.toResults

/-- BB_PAD: terminator, alignment and pad bytes up to ARG0 bytes (43_bitbuf.md R206). -/
def execBbPad (s : State) : Host.Outcome State Fault Refusal :=
  conclude .bbPad s do
    let c ← operandCount 0 4096 s.arg0
    fitBits s.bbLen (8 * c)
    padTo c s.toResults

end Sys2Proof.Machine
end

