-- ==== Sys2Proof/Machine/Control.lean ====
section
/-! DEFINITION. The control family: NOP (40_control.md R134). -/

namespace Sys2Proof.Machine

/-- NOP: no effects; DONE = 1 at completion (40_control.md R134). -/
def execNop (s : State) : Host.Outcome State Fault Refusal := conclude .nop s (.ok s.toResults)

end Sys2Proof.Machine
end

