-- ==== Sys2Proof/Machine/Field.lean ====
section
/-! DEFINITION. The field family: GF(256) exp, log and multiply (41_gf.md). -/

namespace Sys2Proof.Machine

/-- `FIELD_POLY`: x^8 + x^4 + x^3 + x^2 + 1 (00_scope.md R7; from general knowledge, 93_implementation_defined.md G1,
log entry 11). -/
def fieldPoly : BitVec 9 := 0x11D

/-- Multiply an element by ALPHA = 2: the step of the EXP recurrence (41_gf.md R156). -/
def timesAlpha (a : Byte) : Byte :=
  let shifted : BitVec 9 := a.setWidth 9 <<< 1
  (if a.getLsbD 7 then shifted ^^^ fieldPoly else shifted).setWidth 8

/-- `n` successive powers of ALPHA from `a` on. -/
def powersFrom (a : Byte) : Nat → List Byte
  | 0 => []
  | n + 1 => a :: powersFrom (timesAlpha a) n

/-- `EXP[0..254]`: the recurrence of 41_gf.md R156, which is the normative definition. -/
def expTable : List Byte := powersFrom 1 255

/-- `gexp(n)` = EXP[n mod 255], for any integer (41_gf.md R150). -/
def gexp (n : Int) : Byte := expTable.getD (n % 255).toNat 0

/-- `LOG[x]`, the unique k with EXP[k] = x, for x not 0 (41_gf.md R151, R156). -/
def logOf (x : Byte) : Nat := expTable.idxOf x

/-- `glog(x)`: INVALID_FIELD_OP for 0 (41_gf.md R151). -/
def glog (x : Byte) : Attempt Nat := if x = 0 then raise .invalidFieldOp else .ok (logOf x)

/-- `gmul(a, b)`: 0 if either is 0, else exp(log a + log b) (41_gf.md R152). -/
def gmul (a b : Byte) : Byte :=
  if a = 0 ∨ b = 0 then 0 else gexp ((logOf a : Int) + (logOf b : Int))

/-- GF_EXP: RESULT <- exp of ARG0 read as a signed integer (41_gf.md R153). -/
def execGfExp (s : State) : Host.Outcome State Fault Refusal :=
  conclude .gfExp s do
    let n ← operandInt s.arg0
    return withResult s (zext32 (gexp n))

/-- GF_LOG: RESULT <- log of ARG0 (41_gf.md R154). -/
def execGfLog (s : State) : Host.Outcome State Fault Refusal :=
  conclude .gfLog s do
    let x ← operandElem s.arg0
    let k ← glog x
    return withResult s (BitVec.ofNat 32 k)

/-- GF_MUL: RESULT <- the field product of ARG0 and ARG1 (41_gf.md R155). -/
def execGfMul (s : State) : Host.Outcome State Fault Refusal :=
  conclude .gfMul s do
    let a ← operandElem s.arg0
    let b ← operandElem s.arg1
    return withResult s (zext32 (gmul a b))

end Sys2Proof.Machine
end

