-- ==== Sys2Proof/Machine/Mask.lean ====
section
/-! DEFINITION. The mask and penalty family (45_mask_penalty.md). -/

namespace Sys2Proof.Machine

/-- `maskFn(p, i, j)` (45_mask_penalty.md R240; patterns 1 to 7 are from general knowledge,
93_implementation_defined.md G2, log entry 12). -/
def maskFn (p i j : Nat) : Bool :=
  match p with
  | 0 => (i + j) % 2 == 0
  | 1 => i % 2 == 0
  | 2 => j % 3 == 0
  | 3 => (i + j) % 3 == 0
  | 4 => (i / 2 + j / 3) % 2 == 0
  | 5 => (i * j) % 2 + (i * j) % 3 == 0
  | 6 => ((i * j) % 2 + (i * j) % 3) % 2 == 0
  | 7 => ((i * j) % 3 + (i + j) % 2) % 2 == 0
  | _ => false

/-! ### The penalty of a matrix, given as the colour of each cell (true is dark, 00_scope.md R14) -/

/-- The `2N` lines of a square: its rows left to right and its columns top to bottom (45_mask_penalty.md §2). -/
def linesOf (m : Nat → Nat → Bool) (n : Nat) : List (List Bool) :=
  (List.range n).map (fun r => (List.range n).map (fun c => m r c))
    ++ (List.range n).map (fun c => (List.range n).map (fun r => m r c))

/-- The lengths of the maximal runs of a line, given the colour and the length so far of the run it continues. -/
def runsFrom (colour : Bool) (len : Nat) : List Bool → List Nat
  | [] => [len]
  | b :: rest => if b = colour then runsFrom colour (len + 1) rest else len :: runsFrom b 1 rest

/-- The lengths of the maximal runs of a line (45_mask_penalty.md R242). -/
def runs : List Bool → List Nat
  | [] => []
  | b :: rest => runsFrom b 1 rest

/-- The score of one run (45_mask_penalty.md R242). -/
def runScore (len : Nat) : Nat := if len ≥ 5 then 3 + (len - 5) else 0

/-- Rule (a) on one line: the sum of its runs' scores (45_mask_penalty.md R242). -/
def lineRunScore (line : List Bool) : Nat := ((runs line).map runScore).sum

/-- `penA`: runs (45_mask_penalty.md R242). -/
def penA (m : Nat → Nat → Bool) (n : Nat) : Nat := ((linesOf m n).map lineRunScore).sum

/-- Whether the 2×2 window at `(r, c)` has one colour (45_mask_penalty.md R243). -/
def uniformBlock (m : Nat → Nat → Bool) (r c : Nat) : Bool :=
  m r c == m (r + 1) c && m r c == m r (c + 1) && m r c == m (r + 1) (c + 1)

/-- `penB`: 2×2 blocks, overlapping ones too (45_mask_penalty.md R243). -/
def penB (m : Nat → Nat → Bool) (n : Nat) : Nat :=
  3 * ((List.range (n - 1)).map (fun r => (List.range (n - 1)).countP (fun c => uniformBlock m r c))).sum

/-- The finder-like pattern 1 0 1 1 1 0 1 (45_mask_penalty.md R244). -/
def finderPattern : List Bool := [true, false, true, true, true, false, true]

/-- How many positions of a line hold the finder-like pattern, overlapping ones too (45_mask_penalty.md R244). -/
def finderCount : List Bool → Nat
  | [] => 0
  | b :: rest => (if finderPattern.isPrefixOf (b :: rest) then 1 else 0) + finderCount rest

/-- `penC`: finder-like patterns, of the dark colour only (45_mask_penalty.md R244; the colour-swap law of R254 does not
hold of it, log entry 22). -/
def penC (m : Nat → Nat → Bool) (n : Nat) : Nat := 40 * ((linesOf m n).map finderCount).sum

/-- `D`: the dark modules of the square (45_mask_penalty.md R245). -/
def darkCount (m : Nat → Nat → Bool) (n : Nat) : Nat :=
  ((List.range n).map (fun r => (List.range n).countP (fun c => m r c))).sum

/-- `penD` of `d` dark modules: 10 * floor(|20 D - 10 N²| / N²) (45_mask_penalty.md R245). -/
def ratioScore (d n : Nat) : Nat :=
  10 * ((((20 * d : Nat) : Int) - ((10 * n ^ 2 : Nat) : Int)).natAbs / n ^ 2)

/-- `penD`: dark ratio (45_mask_penalty.md R245). -/
def penD (m : Nat → Nat → Bool) (n : Nat) : Nat := ratioScore (darkCount m n) n

/-- `penalty(M, N)` (45_mask_penalty.md R246). -/
def penaltyOf (m : Nat → Nat → Bool) (n : Nat) : Nat := penA m n + penB m n + penC m n + penD m n

/-! ### Reading MAT -/

/-- The colours of `n` modules of row `r`, from column `c` on (45_mask_penalty.md R249). -/
def readModules (mem : Memory) (r : Nat) : Nat → Nat → Attempt (List Bool)
  | _, 0 => .ok []
  | c, n + 1 =>
    match readCell mem (matAddr r c) with
    | .error e => .error e
    | .ok v =>
      match readModules mem r (c + 1) n with
      | .error e => .error e
      | .ok vs => .ok (v.getLsbD 0 :: vs)

/-- The first `n` modules of each of `k` rows, from row `r` on (45_mask_penalty.md R249). -/
def readRows (mem : Memory) (n : Nat) : Nat → Nat → Attempt (List (List Bool))
  | _, 0 => .ok []
  | r, k + 1 =>
    match readModules mem r 0 n with
    | .error e => .error e
    | .ok row =>
      match readRows mem n (r + 1) k with
      | .error e => .error e
      | .ok rows => .ok (row :: rows)

/-- The colour at row `r`, column `c` of a list of rows. -/
def cellOf (rows : List (List Bool)) (r c : Nat) : Bool := (rows.getD r []).getD c false

/-- The penalty of the square MAT[0..N-1][0..N-1], N = MAT_N (45_mask_penalty.md R249). -/
def matPenalty (s : State) : Attempt Nat :=
  match readRows s.mem s.matN 0 s.matN with
  | .error e => .error e
  | .ok rows => .ok (penaltyOf (cellOf rows) s.matN)

/-- The byte address of every module, row by row (45_mask_penalty.md R248). -/
def matAddrs : List Nat :=
  (List.range Config.nmax).flatMap (fun r => (List.range Config.nmax).map (fun c => matAddr r c))

/-- PENALTY <- P and RESULT <- P (45_mask_penalty.md R249, R251). -/
def withPenalty (s : State) (p : Nat) : Results :=
  { s.toResults with penalty := BitVec.ofNat 32 p, result := BitVec.ofNat 32 p }

/-- Whether candidate `(p, m)` replaces the best so far: there is none, or `(p, m)` is lexicographically smaller
(45_mask_penalty.md R251). -/
def beatsBest (r : Results) (p : Word) (m : BitVec 3) : Bool :=
  !r.bestValid || decide (p < r.bestPenalty) || (decide (p = r.bestPenalty) && decide (m < r.bestMask))

/-- Keep candidate `(p, m)` if it is the best so far (45_mask_penalty.md R251). -/
def keepBest (p : Word) (m : BitVec 3) (r : Results) : Results :=
  if beatsBest r p m then { r with bestPenalty := p, bestMask := m, bestValid := true } else r

/-! ### Commands -/

/-- MASK_EVAL: RESULT <- the mask function at one cell (45_mask_penalty.md R247). -/
def execMaskEval (s : State) : Host.Outcome State Fault Refusal :=
  conclude .maskEval s do
    let p ← operandCount 0 7 s.arg0
    let i ← operandCount 0 255 s.arg1
    let j ← operandCount 0 255 s.arg2
    return withResult s (bitWord (maskFn p i j))

/-- MAT_FILL: every module of MAT <- ARG0 (45_mask_penalty.md R248). -/
def execMatFill (s : State) : Host.Outcome State Fault Refusal :=
  conclude .matFill s do
    let b ← operandBit s.arg0
    return { s.toResults with mem := fillCells s.mem matAddrs (if b then 1 else 0) }

/-- PENALTY: score the matrix (45_mask_penalty.md R249). -/
def execPenalty (s : State) : Host.Outcome State Fault Refusal :=
  conclude .penalty s do
    let p ← matPenalty s
    return withPenalty s p

/-- SEL_RESET: start a new mask selection (45_mask_penalty.md R250). -/
def execSelReset (s : State) : Host.Outcome State Fault Refusal :=
  conclude .selReset s (.ok { s.toResults with bestValid := false, bestPenalty := 0, bestMask := 0 })

/-- SEL_SCORE: score the matrix as the candidate for mask ARG0 (45_mask_penalty.md R251). -/
def execSelScore (s : State) : Host.Outcome State Fault Refusal :=
  conclude .selScore s do
    let m ← operandCount 0 7 s.arg0
    let p ← matPenalty s
    return keepBest (BitVec.ofNat 32 p) (BitVec.ofNat 3 m) (withPenalty s p)

end Sys2Proof.Machine
end

