-- ==== Sys2Proof/Machine/Poly.lean ====
section
/-! DEFINITION. The polynomial and Reed-Solomon family (42_poly_rs.md). A polynomial is a list of coefficients, highest
degree first (00_scope.md R12). -/

namespace Sys2Proof.Machine

/-- Strip leading zero coefficients: `norm(p, 0)` (42_poly_rs.md R170). -/
def strip : List Byte → List Byte
  | [] => []
  | c :: p => if c = 0 then strip p else c :: p

/-- `norm(p, s)`: leading zeros stripped, then `s` zeros appended at the low end (42_poly_rs.md R170). -/
def normPoly (p : List Byte) (s : Nat) : List Byte := strip p ++ List.replicate s 0

/-- The inner loop of `pmul` for one coefficient `c` of `a`: `r[j] <- r[j] ^ gmul(c, b[j])` for every `j`, where the
list begins at `r[i]` (42_poly_rs.md R171). -/
def mulRow (c : Byte) : List Byte → List Byte → List Byte
  | b :: bs, r :: rs => (r ^^^ gmul c b) :: mulRow c bs rs
  | [], rs => rs
  | _, [] => []

/-- The outer loop of `pmul`: row `i` is added from `r[i]` on; after it `r[i]` does not change any more
(42_poly_rs.md R171). -/
def mulRows : List Byte → List Byte → List Byte → List Byte
  | [], _, r => r
  | c :: a, b, r =>
    match mulRow c b r with
    | [] => []
    | x :: rest => x :: mulRows a b rest

/-- `pmul(a, b)` (42_poly_rs.md R171). -/
def pmul (a b : List Byte) : List Byte :=
  let a' := normPoly a 0
  let b' := normPoly b 0
  if a' = [] ∨ b' = [] then []
  else normPoly (mulRows a' b' (List.replicate (a'.length + b'.length - 1) 0)) 0

/-- One pass of the division: `a[i] <- a[i] ^ gexp(glog(b[i]) + ratio)` for every coefficient of the divisor, which is
not longer than the dividend (42_poly_rs.md R172, R179). -/
def divRow (ratio : Int) : List Byte → List Byte → Attempt (List Byte)
  | b :: bs, a :: as =>
    match glog b with
    | .error e => .error e
    | .ok k =>
      match divRow ratio bs as with
      | .error e => .error e
      | .ok rest => .ok ((a ^^^ gexp ((k : Int) + ratio)) :: rest)
  | [], as => .ok as
  | _ :: _, [] => .ok []

/-- The division loop, while the dividend `a` is not shorter than the divisor `b`; both are stripped and `b` is not
`[]`. Each pass shortens the dividend (42_poly_rs.md R180), so a fuel of its length is enough. -/
def divLoop : Nat → List Byte → List Byte → Attempt (List Byte)
  | 0, a, _ => .ok a
  | fuel + 1, a, b =>
    if a.length < b.length then .ok a
    else
      match glog (a.headD 0) with
      | .error e => .error e
      | .ok la =>
        match glog (b.headD 0) with
        | .error e => .error e
        | .ok lb =>
          match divRow ((la : Int) - (lb : Int)) b a with
          | .error e => .error e
          | .ok a' => divLoop fuel (normPoly a' 0) b

/-- `pmod(a, b)` (42_poly_rs.md R172). -/
def pmod (a b : List Byte) : Attempt (List Byte) :=
  let a' := normPoly a 0
  let b' := normPoly b 0
  if b' = [] then raise .zeroDivisor else divLoop (a'.length + 1) a' b'

/-- `gen(n)`: the Reed-Solomon generator, the product of `x - exp(i)` for `i < n` (42_poly_rs.md R173). -/
def gen : Nat → List Byte
  | 0 => [1]
  | n + 1 => pmul (gen n) [1, gexp n]

/-- Right-align a remainder to `n` coefficients, zeros in front: PR[i] = r[i + len(r) - n], 0 where that index is
negative (42_poly_rs.md R178, 90_conflicts.md C2). -/
def rightAlign (n : Nat) (r : List Byte) : List Byte :=
  List.replicate (n - r.length) 0 ++ r.drop (r.length - n)

/-- CAPACITY where a polynomial has more than PMAX coefficients (60_exceptions.md R286). -/
def fitPoly (p : List Byte) : Attempt (List Byte) :=
  if p.length > Config.pmax then raise .capacity else .ok p

/-- The polynomial PA holds (10_state.md R29). -/
def readPa (s : State) : Attempt (List Byte) := readCells s.mem (paAddr 0) s.paLen

/-- The polynomial PB holds (10_state.md R29). -/
def readPb (s : State) : Attempt (List Byte) := readCells s.mem (pbAddr 0) s.pbLen

/-- Write a polynomial and its length to PA (10_state.md R31). -/
def writePa (s : State) (p : List Byte) : Results :=
  { s.toResults with mem := writeCells s.mem (paAddr 0) p, paLen := p.length }

/-- Write a polynomial and its length to PB (10_state.md R31). -/
def writePb (s : State) (p : List Byte) : Results :=
  { s.toResults with mem := writeCells s.mem (pbAddr 0) p, pbLen := p.length }

/-- Write a polynomial and its length to PR (10_state.md R31). -/
def writePr (s : State) (p : List Byte) : Results :=
  { s.toResults with mem := writeCells s.mem (prAddr 0) p, prLen := p.length }

/-- P_NORM: normalise PA or PB and shift it (42_poly_rs.md R174). -/
def execPNorm (s : State) : Host.Outcome State Fault Refusal :=
  conclude .pNorm s do
    let sel ← operandSel s.arg0
    let shift ← operandCount 0 256 s.arg1
    let old ← if sel then readPb s else readPa s
    let p ← fitPoly (normPoly old shift)
    return if sel then writePb s p else writePa s p

/-- P_MUL: PR <- PA * PB (42_poly_rs.md R175). -/
def execPMul (s : State) : Host.Outcome State Fault Refusal :=
  conclude .pMul s do
    let a ← readPa s
    let b ← readPb s
    let a' := normPoly a 0
    let b' := normPoly b 0
    if a' ≠ [] ∧ b' ≠ [] ∧ a'.length + b'.length - 1 > Config.pmax then raise .capacity
    else return writePr s (pmul a' b')

/-- P_MOD: PR <- PA mod PB (42_poly_rs.md R176). -/
def execPMod (s : State) : Host.Outcome State Fault Refusal :=
  conclude .pMod s do
    let a ← readPa s
    let b ← readPb s
    let r ← pmod a b
    return writePr s r

/-- P_GEN: PB <- gen(ARG0) (42_poly_rs.md R177). -/
def execPGen (s : State) : Host.Outcome State Fault Refusal :=
  conclude .pGen s do
    let n ← operandCount 0 255 s.arg0
    return writePb s (gen n)

/-- RS_REM: PR <- the EC codewords of the data in PA, ARG0 of them (42_poly_rs.md R178). -/
def execRsRem (s : State) : Host.Outcome State Fault Refusal :=
  conclude .rsRem s do
    let n ← operandCount 0 255 s.arg0
    let data ← readPa s
    let d ← fitPoly (normPoly data n)
    let r ← pmod d (gen n)
    return writePr s (rightAlign n r)

end Sys2Proof.Machine
end

