-- ==== Sys2Proof/Machine/Dispatch.lean ====
section
/-! DEFINITION. exec: a command carried out from acceptance to completion (40_control.md R131 to R133), one arm per
command. -/

namespace Sys2Proof.Machine

/-- The command `i` performed on the state `s`: accepted and completed with no host access between. -/
def exec (i : Instr) (s : State) : Host.Outcome State Fault Refusal :=
  match i with
  | .nop => Sys2Proof.Machine.execNop s
  | .gfExp => Sys2Proof.Machine.execGfExp s
  | .gfLog => Sys2Proof.Machine.execGfLog s
  | .gfMul => Sys2Proof.Machine.execGfMul s
  | .pNorm => Sys2Proof.Machine.execPNorm s
  | .pMul => Sys2Proof.Machine.execPMul s
  | .pMod => Sys2Proof.Machine.execPMod s
  | .pGen => Sys2Proof.Machine.execPGen s
  | .rsRem => Sys2Proof.Machine.execRsRem s
  | .bbClear => Sys2Proof.Machine.execBbClear s
  | .bbPut => Sys2Proof.Machine.execBbPut s
  | .bbPutBit => Sys2Proof.Machine.execBbPutBit s
  | .bbPad => Sys2Proof.Machine.execBbPad s
  | .bchFmt => Sys2Proof.Machine.execBchFmt s
  | .bchVer => Sys2Proof.Machine.execBchVer s
  | .maskEval => Sys2Proof.Machine.execMaskEval s
  | .matFill => Sys2Proof.Machine.execMatFill s
  | .penalty => Sys2Proof.Machine.execPenalty s
  | .selReset => Sys2Proof.Machine.execSelReset s
  | .selScore => Sys2Proof.Machine.execSelScore s

end Sys2Proof.Machine
end

