-- ==== Sys2Proof/Machine/Bus.lean ====
section
/-! DEFINITION. The unit's bus: the address map (20_memory.md R62), host reads and writes with their checks
(60_exceptions.md R296), issuing and completing a command (40_control.md R130 to R132), and reset
(70_reset_and_hazards.md R320). -/

namespace Sys2Proof.Machine

/-! ### The address map -/

/-- The byte offset of a register (10_state.md R21). -/
def regOffset : Reg → Nat
  | .id => 0x000
  | .cmd => 0x004
  | .status => 0x008
  | .faultCause => 0x00C
  | .faultInfo => 0x010
  | .arg0 => 0x014
  | .arg1 => 0x018
  | .arg2 => 0x01C
  | .result => 0x020
  | .paLen => 0x024
  | .pbLen => 0x028
  | .prLen => 0x02C
  | .bbLen => 0x030
  | .matN => 0x034
  | .penalty => 0x038
  | .bestPenalty => 0x03C
  | .bestMask => 0x040

/-- The registers in the order of their offsets (10_state.md R21). -/
def regList : List Reg :=
  [.id, .cmd, .status, .faultCause, .faultInfo, .arg0, .arg1, .arg2, .result]
    ++ [.paLen, .pbLen, .prLen, .bbLen, .matN, .penalty, .bestPenalty, .bestMask]

/-- What stands at an address: a register, or a cell of a window. `bits` is the cell's width, `hostWrites` whether the
host may write it (20_memory.md R62 to R65). -/
inductive Loc where
  | reg (r : Reg)
  | cell (bits : Nat) (hostWrites : Bool)
  deriving DecidableEq, Repr

/-- The row of a MAT window address (20_memory.md R62). -/
def matRow (a : Nat) : Nat := ((a - 0x10000) / 4) >>> 8

/-- The column of a MAT window address (20_memory.md R62). -/
def matCol (a : Nat) : Nat := ((a - 0x10000) / 4) &&& 0xFF

/-- The address map, for a 4-byte-aligned byte address; none where it is unmapped (20_memory.md R62 to R65). -/
def locate (a : Nat) : Option Loc :=
  if a ≤ 0x00040 then regList[a / 4]?.map Loc.reg
  else if 0x01000 ≤ a ∧ a ≤ 0x013FC then some (.cell 8 true)
  else if 0x01400 ≤ a ∧ a ≤ 0x017FC then some (.cell 8 true)
  else if 0x01800 ≤ a ∧ a ≤ 0x01BFC then some (.cell 8 false)
  else if 0x04000 ≤ a ∧ a ≤ 0x07FFC then some (.cell 8 false)
  else if 0x10000 ≤ a ∧ a ≤ 0x4FFFC then
    if matRow a < Config.nmax ∧ matCol a < Config.nmax then some (.cell 1 true) else none
  else none

/-- Width and alignment of an access are legal (20_memory.md R61). -/
def accessFormed (a : Addr) (width : Nat) : Bool := width == 4 && a.toNat % 4 == 0

/-- The reads the BUSY hazard exempts: ID, STATUS, FAULT_CAUSE, FAULT_INFO (70_reset_and_hazards.md R330). -/
def busyExempt : Loc → Bool
  | .reg .id => true
  | .reg .status => true
  | .reg .faultCause => true
  | .reg .faultInfo => true
  | _ => false

/-- Whether a host write to a location is not refused for its direction. STATUS takes the fault clear
(10_state.md R21, 20_memory.md R63, R65, R66). -/
def hostWritable : Loc → Bool
  | .reg .cmd => true
  | .reg .status => true
  | .reg .arg0 => true
  | .reg .arg1 => true
  | .reg .arg2 => true
  | .reg .paLen => true
  | .reg .pbLen => true
  | .reg .matN => true
  | .reg _ => false
  | .cell _ w => w

/-! ### Reads -/

/-- ID, ASCII "QRG1" (10_state.md R22). -/
def idWord : Word := 0x51524731

/-- The code of a cause, as FAULT_CAUSE holds it (60_exceptions.md R281). -/
def causeCode : Cause → Nat
  | .none => 0
  | .invalidFieldOp => 1
  | .zeroDivisor => 2
  | .illegalCommand => 3
  | .operandRange => 4
  | .capacity => 5
  | .busyAccess => 6
  | .address => 7
  | .regValue => 8

/-- What a host read of a register returns; CMD reads 0 (10_state.md R21 to R37, 20_memory.md R67). -/
def readReg (r : Reg) (s : State) : Word :=
  match r with
  | .id => idWord
  | .cmd => 0
  | .status => statusWord s
  | .faultCause => BitVec.ofNat 32 (causeCode s.faultCause)
  | .faultInfo => s.faultInfo
  | .arg0 => s.arg0
  | .arg1 => s.arg1
  | .arg2 => s.arg2
  | .result => s.result
  | .paLen => BitVec.ofNat 32 s.paLen
  | .pbLen => BitVec.ofNat 32 s.pbLen
  | .prLen => BitVec.ofNat 32 s.prLen
  | .bbLen => BitVec.ofNat 32 s.bbLen
  | .matN => BitVec.ofNat 32 s.matN
  | .penalty => s.penalty
  | .bestPenalty => s.bestPenalty
  | .bestMask => s.bestMask.setWidth 32

/-- The low bits of a byte that a cell has: all 8, or bit 0 of a module (20_memory.md R63, R64). -/
def cellBits (bits : Nat) (v : Byte) : Byte := if bits = 1 then v &&& 1 else v

/-- What a host read of a window cell returns: its value, or any value of its width where nothing has written it
(20_memory.md R63 to R65, 93_implementation_defined.md I2, I3; log entry 6). -/
def readWindow (bits a : Nat) (s : State) : Word :=
  match s.mem.read a with
  | some v => zext32 (cellBits bits v)
  | none => zext32 (cellBits bits (Config.unwrittenCell s.freeCount a))

/-- What a permitted host read returns. -/
def readLoc (loc : Loc) (a : Nat) (s : State) : Word :=
  match loc with
  | .reg r => readReg r s
  | .cell bits _ => readWindow bits a s

/-- A refused read: the fault is recorded with the byte address and 0 is returned (60_exceptions.md R287, R288). -/
def refuseRead (cause : Cause) (a : Addr) (s : State) : State :=
  { recordFault cause (addrWord a) s with readData := 0 }

/-- A refused write: the fault is recorded with the byte address (60_exceptions.md R287 to R289). -/
def refuseWrite (cause : Cause) (a : Addr) (s : State) : State := recordFault cause (addrWord a) s

/-- A host read, its checks in the order of 60_exceptions.md R296. A permitted read has no other effect
(20_memory.md R71). -/
def hostRead (a : Addr) (width : Nat) (s : State) : State :=
  if accessFormed a width then
    match locate a.toNat with
    | none => refuseRead .address a s
    | some loc =>
      if s.busy && !busyExempt loc then refuseRead .busyAccess a s
      else { s with readData := readLoc loc a.toNat s }
  else refuseRead .address a s

/-! ### Issue and completion -/

/-- The outcome a carried-out command shows: DONE says whether it succeeded, FAULT_CAUSE why not
(70_reset_and_hazards.md R331). -/
def outcomeOf (t : State) : CommandOutcome := if t.done then .ok t.toResults else .fault t.faultCause

/-- Accept command word `w` with its outcome: BUSY = 1, DONE = 0, the command is in flight (40_control.md R131). -/
def launch (w : Word) (o : CommandOutcome) (s : State) : State :=
  { flagsAccepted s with inflight := some ⟨w, o⟩ }

/-- `execute(w, S)`, and acceptance: the outcome is what `exec` gives, ILLEGAL_COMMAND for a reserved word
(40_control.md R131, R133, 30_encoding.md R101). -/
def accept (w : Word) (s : State) : Host.Outcome State Fault Refusal :=
  match decode w with
  | .error _ => .next (launch w (.fault .illegalCommand) s)
  | .ok i =>
    match exec i s with
    | .next t => .next (launch w (outcomeOf t) s)
    | .fault r => .fault r
    | .refused r => .refused r

/-- Command issue, at a host write to CMD that no busy hazard refused: discarded while FAULT = 1, else accepted
(40_control.md R130, 60_exceptions.md R294). -/
def issue (w : Word) (s : State) : Host.Outcome State Fault Refusal :=
  if s.faultFlag then .next s else accept w s

/-- Completion of the command in flight, in one step; without one nothing happens (40_control.md R132, log
entry 18). -/
def complete (s : State) : State :=
  match s.inflight with
  | none => s
  | some f => finish f.word f.outcome s

/-! ### Writes -/

/-- The value a write gives a length register: bits [8:0] of the word; the bits above are reserved and the write ignores
them (10_state.md R21, 93_implementation_defined.md I7). -/
def lengthField (v : Word) : Nat := (v.setWidth 9).toNat

/-- The value a write gives MAT_N: bits [7:0] of the word, the bits above ignored (10_state.md R21,
93_implementation_defined.md I7). -/
def sideField (v : Word) : Nat := (v.setWidth 8).toNat

/-- A host write to a length register: REG_VALUE above 256 (10_state.md R30, 60_exceptions.md R289). -/
def lengthLegal (v : Word) : Bool := decide (lengthField v ≤ Config.pmax)

/-- A host write to MAT_N: REG_VALUE outside 1 to 177 (10_state.md R35, 60_exceptions.md R289). -/
def sideLegal (v : Word) : Bool := decide (1 ≤ sideField v ∧ sideField v ≤ Config.nmax)

/-- A permitted host write to a register (20_memory.md R67). A register that the host may not write does not change;
`hostWrite` refuses those before. -/
def writeReg (r : Reg) (a : Addr) (v : Word) (s : State) : Host.Outcome State Fault Refusal :=
  match r with
  | .cmd => issue v s
  | .status => .next (if v.getLsbD 2 then clearFault s else s)
  | .arg0 => .next { s with arg0 := v }
  | .arg1 => .next { s with arg1 := v }
  | .arg2 => .next { s with arg2 := v }
  | .paLen => .next (if lengthLegal v then { s with paLen := lengthField v } else refuseWrite .regValue a s)
  | .pbLen => .next (if lengthLegal v then { s with pbLen := lengthField v } else refuseWrite .regValue a s)
  | .matN => .next (if sideLegal v then { s with matN := sideField v } else refuseWrite .regValue a s)
  | .id | .faultCause | .faultInfo | .result | .prLen | .bbLen | .penalty | .bestPenalty | .bestMask => .next s

/-- A permitted host write to a window cell: the low bits of the word are kept (20_memory.md R63, R64). -/
def writeWindow (bits : Nat) (a : Addr) (v : Word) (s : State) : State :=
  { s with mem := s.mem.write a.toNat (cellBits bits (v.setWidth 8)) }

/-- A host write, its checks in the order of 60_exceptions.md R296. While BUSY = 1 every write is a busy-hazard access
(70_reset_and_hazards.md R330). -/
def hostWrite (a : Addr) (width : Nat) (v : Word) (s : State) : Host.Outcome State Fault Refusal :=
  if accessFormed a width then
    match locate a.toNat with
    | none => .next (refuseWrite .address a s)
    | some loc =>
      if s.busy then .next (refuseWrite .busyAccess a s)
      else if hostWritable loc then
        match loc with
        | .reg r => writeReg r a v s
        | .cell bits _ => .next (writeWindow bits a v s)
      else .next (refuseWrite .address a s)
  else .next (refuseWrite .address a s)

/-! ### Reset -/

/-- The unit with every register at its reset value and no command in flight; what the outside world has still to do
and what it was last given are no part of it (70_reset_and_hazards.md R320). -/
def resetUnit (s : State) : State :=
  { State.reset with readData := s.readData, freeCount := s.freeCount, bus := s.bus, inReset := s.inReset }

/-- Reset is asserted: a command in flight is discarded, and the buffers are unwritten again
(70_reset_and_hazards.md R320; log entries 8, 10). -/
def assertReset (s : State) : State :=
  { resetUnit s with inReset := true, freeCount := s.freeCount + 1 }

/-- Reset is released, where it was asserted (70_reset_and_hazards.md R320; log entries 10, 18). -/
def releaseReset (s : State) : State := if s.inReset then { resetUnit s with inReset := false } else s

/-- A host read while reset is asserted is ignored and returns any value (70_reset_and_hazards.md R320,
93_implementation_defined.md I11; log entry 7). -/
def ignoredRead (s : State) : State :=
  { s with readData := Config.resetReadData s.freeCount, freeCount := s.freeCount + 1 }

/-! ### Events -/

/-- One event at the unit. While reset is asserted every host access is ignored (70_reset_and_hazards.md R320). -/
def busEvent (e : BusEvent) (s : State) : Host.Outcome State Fault Refusal :=
  match e with
  | .read a width => .next (if s.inReset then ignoredRead s else hostRead a width s)
  | .write a width v => if s.inReset then .next s else hostWrite a width v s
  | .complete => .next (complete s)
  | .assertReset => .next (assertReset s)
  | .releaseReset => .next (releaseReset s)

/-- With nothing more to come from outside, the unit completes the command in flight: an enabled completion is
eventually taken (40_control.md R132; log entry 2). With none, it waits. -/
def idle (s : State) : State := complete s

/-- The state in which the next thing at the bus is the host's write of `w` to CMD, and in which the unit accepts it:
not busy, no fault recorded, out of reset (40_control.md R130; log entry 20). -/
def withCommandNext (w : Word) (s : State) : State :=
  { clearFault s with
    busy := false, inflight := none, inReset := false, bus := .write 0x004 4 w :: s.bus }

end Sys2Proof.Machine
end

