-- ==== Sys2Proof/Machine/Step.lean ====
section
/-! DEFINITION. One step of the machine: the next event at the unit's bus, or, with none to come, the completion of the
command in flight. -/

namespace Sys2Proof.Machine

/-- One step. The unit has no program counter (10_state.md R20): what drives it is the sequence of host accesses
(20_memory.md R60, R73), taken one at a time with the completions between them (60_exceptions.md R296). -/
def step (s : State) : Host.Outcome State Fault Refusal :=
  match s.bus with
  | [] => .next (idle s)
  | e :: rest => busEvent e { s with bus := rest }

/-- The command of an opcode-table word placed where the next step takes it: as the host's next write to CMD. -/
def State.withFetchWord (s : State) (nbits w : Nat) : State :=
  withCommandNext (BitVec.ofNat 32 (tableWord nbits w)) s

end Sys2Proof.Machine
end

