-- ==== Sys2Proof/Safety.lean ====
section
/-! DEFINITION. What counts as a sound state of the unit, in the terms the statements use: the invariants the spec
gives, and the bits of the stream. -/

namespace Sys2Proof.Safety

open Sys2Proof.Machine

/-- A byte address is that of a buffer cell (20_memory.md R62). -/
def isCellAddr (a : Nat) : Bool :=
  a % 4 == 0 &&
    match locate a with
    | some (.cell _ _) => true
    | _ => false

/-- Every listed address is a buffer cell's, and a module is 0 or 1 (10_state.md R34, R41). -/
def cellsSound (m : Memory) : Bool :=
  m.all (fun c => isCellAddr c.1 && (decide (c.1 < 0x10000) || decide (c.2.toNat ≤ 1)))

/-- Bit `p` of the stream area of BBUF, first appended first; none where its byte is not written
(00_scope.md R13, 43_bitbuf.md R207). -/
def streamBit (m : Memory) (p : Nat) : Option Bool :=
  (m.read (bbAddr (p / 8))).map (fun v => v.getLsbD (7 - p % 8))

/-- The number of bytes of the byte view, ceil(BB_LEN / 8) (10_state.md R32). -/
def viewBytes (bbLen : Nat) : Nat := (bbLen + 7) / 8

/-- The byte view is written, and its bits at positions from BB_LEN on are 0 (10_state.md R33). -/
def viewSound (r : Results) : Prop :=
  (∀ p, p < r.bbLen → (streamBit r.mem p).isSome) ∧
    ∀ p, r.bbLen ≤ p → p < 8 * viewBytes r.bbLen → streamBit r.mem p = some false

/-- The invariants of what commands write: canonical memory, legal lengths (10_state.md R41), the byte view (R33), and
no best candidate recorded while BEST_VALID = 0 (R37). -/
structure ResultsSound (r : Results) : Prop where
  canonical : r.mem.wf
  cells : cellsSound r.mem = true
  paLen : r.paLen ≤ Config.pmax
  pbLen : r.pbLen ≤ Config.pmax
  prLen : r.prLen ≤ Config.pmax
  bbLen : r.bbLen ≤ 8 * Config.bbBytes
  view : viewSound r
  best : r.bestValid = false → r.bestPenalty = 0 ∧ r.bestMask = 0

/-- The pending outcome of a command is sound: its results are, and its fault is one a command can raise
(60_exceptions.md R281). -/
def outcomeSound : CommandOutcome → Prop
  | .ok r => ResultsSound r
  | .fault cause => 1 ≤ causeCode cause ∧ causeCode cause ≤ 5

/-- The invariants of the whole state (10_state.md R24 to R41). -/
structure Sound (s : State) : Prop where
  results : ResultsSound s.toResults
  matN : 1 ≤ s.matN ∧ s.matN ≤ Config.nmax
  /-- BUSY = 1 exactly while a command is in flight (10_state.md R39) -/
  busy : s.busy = s.inflight.isSome
  /-- DONE = 0 while BUSY = 1 (40_control.md R131, R132) -/
  notDone : s.busy = true → s.done = false
  /-- FAULT_CAUSE and FAULT_INFO are 0 while FAULT = 0 (10_state.md R25, R26) -/
  noRecord : s.faultFlag = false → s.faultCause = .none ∧ s.faultInfo = 0
  /-- a recorded fault has a cause (60_exceptions.md R281) -/
  record : s.faultFlag = true → s.faultCause ≠ .none
  outcome : ∀ f, s.inflight = some f → outcomeSound f.outcome

/-- The unit is idle: no command in flight, no fault recorded, not held in reset. -/
def Ready (s : State) : Prop := s.busy = false ∧ s.inflight = none ∧ s.faultFlag = false ∧ s.inReset = false

/-- Every module of the `n` × `n` square is written (70_reset_and_hazards.md R325). -/
def squareWritten (m : Memory) (n : Nat) : Prop := ∀ r c, r < n → c < n → (m.read (matAddr r c)).isSome

/-- The colour of a module that is written: dark where its bit is 1 (00_scope.md R14). -/
def moduleAt (m : Memory) (r c : Nat) : Bool := ((m.read (matAddr r c)).getD 0).getLsbD 0

/-- The `n` cells of a window from byte address `a` on hold the list `p`. -/
def holdsCells (m : Memory) (a : Nat) (p : List Byte) : Prop := ∀ i, i < p.length → m.read (a + 4 * i) = p[i]?

/-- The state of a command that completed without fault, its results `r` (40_control.md R132). -/
def completed (s : State) (r : Results) : State :=
  { s with toResults := r, busy := false, done := true, inflight := none }

/-- The state of a command `i` that ended in a fault (40_control.md R132, 60_exceptions.md R290 to R292): the record is
written unless one stands, and nothing else changes but BUSY and DONE. -/
def faulted (i : Instr) (cause : Cause) (s : State) : State :=
  { s with
    busy := false
    done := false
    inflight := none
    faultFlag := true
    faultCause := if s.faultFlag then s.faultCause else cause
    faultInfo := if s.faultFlag then s.faultInfo else encode i }

/-! ### Runs and accesses -/

/-- `n` steps of the machine, stopping at the first stop. -/
def run (n : Nat) (s : State) : Host.Outcome State Fault Refusal := Host.Core.run Sys2Proof.core n s

/-- An event is a host access, not a completion or a reset edge (20_memory.md R60). -/
def isAccess : BusEvent → Bool
  | .read _ _ => true
  | .write _ _ _ => true
  | _ => false

/-- The state after a refused access at byte address `a`: the record is written unless one stands
(60_exceptions.md R290, R291). -/
def recorded (cause : Cause) (a : Addr) (s : State) : State :=
  { s with
    faultFlag := true
    faultCause := if s.faultFlag then s.faultCause else cause
    faultInfo := if s.faultFlag then s.faultInfo else a.setWidth 32 }

/-- The host's write of a command word to CMD (30_encoding.md R107). -/
def cmdWrite (w : Word) : BusEvent := .write 0x004 4 w

/-- Every ARG operand of a command lies in its range: the table of 60_exceptions.md R285, written out. -/
def argsLegal (i : Instr) (s : State) : Bool :=
  match i with
  | .gfLog | .pGen | .rsRem => decide (s.arg0.toNat ≤ 255)
  | .gfMul => decide (s.arg0.toNat ≤ 255 ∧ s.arg1.toNat ≤ 255)
  | .pNorm => decide (s.arg0.toNat ≤ 1 ∧ s.arg1.toNat ≤ 256)
  | .bbPut => decide (s.arg1.toNat ≤ 32)
  | .bbPutBit | .matFill => decide (s.arg0.toNat ≤ 1)
  | .bbPad => decide (s.arg0.toNat ≤ 4096)
  | .bchFmt => decide (s.arg0.toNat ≤ 31)
  | .bchVer => decide (s.arg0.toNat ≤ 63)
  | .maskEval => decide (s.arg0.toNat ≤ 7 ∧ s.arg1.toNat ≤ 255 ∧ s.arg2.toNat ≤ 255)
  | .selScore => decide (s.arg0.toNat ≤ 7)
  | .nop | .gfExp | .pMul | .pMod | .bbClear | .penalty | .selReset => true

/-! ### The windows -/

/-- The byte addresses of a window of `n` cells whose cell `i` stands at `addr i`. -/
def inWindow (addr : Nat → Nat) (n : Nat) (a : Nat) : Prop := ∃ i, i < n ∧ a = addr i

/-- The byte addresses of MAT's modules (20_memory.md R64). -/
def inMat (a : Nat) : Prop := ∃ r c, r < Config.nmax ∧ c < Config.nmax ∧ a = matAddr r c

/-- The window cells a command may write (20_memory.md R68). -/
def mayWrite : Instr → Nat → Prop
  | .pNorm, a => inWindow paAddr Config.pmax a ∨ inWindow pbAddr Config.pmax a
  | .pMul, a | .pMod, a | .rsRem, a => inWindow prAddr Config.pmax a
  | .pGen, a => inWindow pbAddr Config.pmax a
  | .bbPut, a | .bbPutBit, a | .bbPad, a => inWindow bbAddr Config.bbBytes a
  | .matFill, a => inMat a
  | _, _ => False

/-- PA holds the polynomial `p` (10_state.md R29). -/
def paHolds (s : State) (p : List Byte) : Prop := p.length = s.paLen ∧ holdsCells s.mem (paAddr 0) p

/-- PB holds the polynomial `p` (10_state.md R29). -/
def pbHolds (s : State) (p : List Byte) : Prop := p.length = s.pbLen ∧ holdsCells s.mem (pbAddr 0) p

/-- `m'` holds `p` in the window of `addr` from cell 0 on, and every other address reads as in `m`
(10_state.md R31). -/
def cellsReplaced (m m' : Memory) (addr : Nat → Nat) (p : List Byte) : Prop :=
  holdsCells m' (addr 0) p ∧ ∀ a, (∀ i, i < p.length → a ≠ addr i) → m'.read a = m.read a

/-! ### Arithmetic the commands are compared with -/

/-- `a` times ALPHA^n, by n single steps. -/
def timesPower (a : Byte) : Nat → Byte
  | 0 => a
  | n + 1 => timesAlpha (timesPower a n)

/-- The product of two elements as polynomials over GF(2) modulo FIELD_POLY, by shifts and additions: no table. -/
def shiftAddProduct (a b : Byte) : Byte :=
  ((List.range 8).map (fun i => if b.getLsbD i then timesPower a i else 0)).foldl (· ^^^ ·) 0

/-- Coefficient `k` of the convolution of two lists of coefficients. -/
def convCoeff (a b : List Byte) (k : Nat) : Byte :=
  ((List.range (k + 1)).map (fun i => gmul (a.getD i 0) (b.getD (k - i) 0))).foldl (· ^^^ ·) 0

/-- The sum of two polynomials: XOR of the coefficients, aligned at the low-order end (41_gf.md R157). -/
def polyAdd (a b : List Byte) : List Byte :=
  List.zipWith (· ^^^ ·) (rightAlign (max a.length b.length) a) (rightAlign (max a.length b.length) b)

/-- The value of a polynomial at `x`. -/
def polyEval (p : List Byte) (x : Byte) : Byte := p.foldl (fun acc c => gmul acc x ^^^ c) 0

/-- Bit `p` of a stream of `len` bits padded to `c` bytes, for `len ≤ p < 8c`: zeros up to the byte boundary after the
terminator, then 0xEC and 0x11 in turn (43_bitbuf.md R202). -/
def paddedBit (len c p : Nat) : Bool :=
  let zeros := if len + 4 ≤ 8 * c then len + 4 else len
  let aligned := (zeros + 7) / 8
  if p < 8 * aligned then false
  else (if (p / 8 - aligned) % 2 = 0 then 0xEC else 0x11 : Nat).testBit (7 - p % 8)

/-- Five modules of one colour stand in the line from position `i` on. -/
def fiveAt (line : List Bool) (i : Nat) : Bool :=
  decide (i + 5 ≤ line.length) &&
    ((line.drop i).take 5 == List.replicate 5 true || (line.drop i).take 5 == List.replicate 5 false)

/-- A run starts at position `i` of the line. -/
def runStartsAt (line : List Bool) (i : Nat) : Bool := i == 0 || line.getD (i - 1) false != line.getD i false

/-- Rule (a) on one line, counted by positions instead of runs: each window of five modules of one colour scores 1, and
2 more where a run starts at it. -/
def windowRunScore (line : List Bool) : Nat :=
  ((List.range line.length).map
    (fun i => if fiveAt line i then (if runStartsAt line i then 3 else 1) else 0)).sum

/-- How many 2×2 windows have one colour, overlapping ones too (45_mask_penalty.md R243). -/
def blockCount (m : Nat → Nat → Bool) (n : Nat) : Nat :=
  ((Finset.range (n - 1) ×ˢ Finset.range (n - 1)).filter (fun p =>
    m p.1 p.2 = m (p.1 + 1) p.2 ∧ m p.1 p.2 = m p.1 (p.2 + 1) ∧ m p.1 p.2 = m (p.1 + 1) (p.2 + 1))).card

/-- How many positions of the rows hold the modules 1 0 1 1 1 0 1, overlapping ones too (45_mask_penalty.md R244). -/
def finderPositions (m : Nat → Nat → Bool) (n : Nat) : Nat :=
  ((Finset.range n ×ˢ Finset.range (n - 6)).filter (fun p =>
    m p.1 p.2 = true ∧ m p.1 (p.2 + 1) = false ∧ m p.1 (p.2 + 2) = true ∧ m p.1 (p.2 + 3) = true ∧
      m p.1 (p.2 + 4) = true ∧ m p.1 (p.2 + 5) = false ∧ m p.1 (p.2 + 6) = true)).card

/-- How many modules of the square are dark (45_mask_penalty.md R245). -/
def darkModules (m : Nat → Nat → Bool) (n : Nat) : Nat :=
  ((Finset.range n ×ˢ Finset.range n).filter (fun p => m p.1 p.2 = true)).card

/-- Score a list of candidates in order, each a mask index and the memory that holds its matrix. -/
def scoreAll : List (Nat × Memory) → State → Option State
  | [], s => some s
  | (m, mem) :: rest, s =>
    match exec .selScore { s with arg0 := BitVec.ofNat 32 m, mem := mem } with
    | .next t => scoreAll rest t
    | _ => none

/-- The candidate pairs (penalty, mask) of a list of candidates scored at side `n`. -/
def candidatePairs (n : Nat) (cands : List (Nat × Memory)) : List (Nat × Nat) :=
  cands.map (fun c => (penaltyOf (moduleAt c.2) n, c.1))

/-- Lexicographic order on (penalty, mask) pairs (45_mask_penalty.md R252). -/
def lexLe (x y : Nat × Nat) : Prop := x.1 < y.1 ∨ (x.1 = y.1 ∧ x.2 ≤ y.2)

end Sys2Proof.Safety
end

