-- ==== Sys2Proof/Certificates/Slice0/Obligations.lean ====
section
/-! DEFINITION. The statements for the provers, from the numbered rules of spec/. `completed s r` is the whole state
after a command that completed with results `r`, `faulted i cause s` after one that ended in a fault, so an equation
with one of them says also what stays unchanged. -/

open Sys2Proof Sys2Proof.Machine Sys2Proof.Safety

/-! ### Reset and the invariants -/

/-- 10_state.md R45: the reset value of every register, no command in flight, and the constant ID. -/
def Obligations.ResetHoldsTheSpecValues : Prop :=
  State.reset.busy = false ∧ State.reset.done = false ∧ State.reset.faultFlag = false ∧
    State.reset.bestValid = false ∧ State.reset.faultCause = .none ∧ State.reset.faultInfo = 0 ∧
    State.reset.arg0 = 0 ∧ State.reset.arg1 = 0 ∧ State.reset.arg2 = 0 ∧ State.reset.result = 0 ∧
    State.reset.paLen = 0 ∧ State.reset.pbLen = 0 ∧ State.reset.prLen = 0 ∧ State.reset.bbLen = 0 ∧
    State.reset.matN = 21 ∧ State.reset.penalty = 0 ∧ State.reset.bestPenalty = 0 ∧ State.reset.bestMask = 0 ∧
    State.reset.inflight = none ∧ readReg .id State.reset = 0x51524731

/-- 10_state.md R46, R41: after reset every cell is unwritten, and the invariants of the state hold. -/
def Obligations.ResetStateIsSoundAndUnwritten : Prop := Sound State.reset ∧ ∀ a, State.reset.mem.read a = none

/-- Every step, of a host access, a completion or a reset edge, keeps the invariants `Sound` (10_state.md R24 to R41). -/
def Obligations.EveryStepKeepsTheStateSound : Prop := ∀ s t, Sound s → step s = .next t → Sound t

/-! ### Encoding -/

/-- 30_encoding.md R102: the decoder gives back every command from its command word. -/
def Obligations.EveryCommandDecodesFromItsWord : Prop := ∀ i, decode (encode i) = .ok i

/-- 30_encoding.md R101 to R103: of all 2^32 words, exactly the command words decode. -/
def Obligations.DecodingAcceptsExactlyTheCommandWords : Prop := ∀ w i, decode w = .ok i ↔ w = encode i

/-- The twenty words written out from the table of 30_encoding.md R102 decode to their commands; a reserved opcode and a
nonzero reserved field are refused. -/
def Obligations.SpecWordsDecodeToTheirCommands : Prop :=
  (decode 0x00000000 = .ok .nop ∧ decode 0x00000001 = .ok .gfExp ∧ decode 0x00000002 = .ok .gfLog ∧
      decode 0x00000003 = .ok .gfMul) ∧
    (decode 0x00000010 = .ok .pNorm ∧ decode 0x00000011 = .ok .pMul ∧ decode 0x00000012 = .ok .pMod ∧
      decode 0x00000013 = .ok .pGen ∧ decode 0x00000014 = .ok .rsRem) ∧
    (decode 0x00000020 = .ok .bbClear ∧ decode 0x00000021 = .ok .bbPut ∧ decode 0x00000022 = .ok .bbPutBit ∧
      decode 0x00000023 = .ok .bbPad) ∧
    (decode 0x00000030 = .ok .bchFmt ∧ decode 0x00000031 = .ok .bchVer) ∧
    (decode 0x00000040 = .ok .maskEval ∧ decode 0x00000041 = .ok .matFill ∧ decode 0x00000042 = .ok .penalty ∧
      decode 0x00000043 = .ok .selReset ∧ decode 0x00000044 = .ok .selScore) ∧
    decode 0x00000004 = .error .reservedOpcode ∧ decode 0x00000100 = .error .reservedField

/-- 60_exceptions.md R284: a reserved word issued to a ready unit completes with ILLEGAL_COMMAND (code 3), FAULT_INFO
the word, and no other effect. -/
def Obligations.ReservedWordsRaiseIllegalCommand : Prop :=
  causeCode .illegalCommand = 3 ∧
    ∀ s w rest, Ready s → s.bus = cmdWrite w :: .complete :: rest →
      (w >>> 8 ≠ 0 ∨ ∀ i, opcode i ≠ w.setWidth 8) →
      run 2 s = .next { s with
        bus := rest, done := false, faultFlag := true, faultCause := .illegalCommand, faultInfo := w }

/-! ### The life of a command -/

/-- The host's CMD write of a word that decodes to `i`, at a ready unit, runs `exec` of `i` at the state after the
event is taken: what it gives becomes the pending outcome, BUSY = 1 and DONE = 0 (40_control.md R130, R131, R133), and
a stop of the model is a stop of the step. -/
def Obligations.StepRunsTheDecodedCommand : Prop :=
  ∀ s w i rest, Ready s → s.bus = cmdWrite w :: rest → decode w = .ok i →
    step s =
      match exec i { s with bus := rest } with
      | .next t => .next { s with
          bus := rest, busy := true, done := false, inflight := some ⟨w, outcomeOf t⟩ }
      | .fault r => .fault r
      | .refused r => .refused r

/-- Accepting a command and completing it with no access between gives exactly the state `exec` gives
(40_control.md R131, R132). -/
def Obligations.AcceptThenCompleteGivesWhatExecGives : Prop :=
  ∀ s i rest t, Ready s → s.bus = cmdWrite (encode i) :: .complete :: rest → exec i s = .next t →
    run 2 s = .next { t with bus := rest }

/-- 20_memory.md R74, R77, 70_reset_and_hazards.md R330: whatever accesses the host makes while a command is in flight,
its effects at completion are those of `exec` at acceptance, and the host has changed no operand, no buffer and no
register but the fault record. -/
def Obligations.HostAccessesDoNotDisturbACommandInFlight : Prop :=
  ∀ s i t es, Ready s → exec i s = .next t → es.all isAccess →
    s.bus = cmdWrite (encode i) :: (es ++ [.complete]) →
      ∃ u, run (es.length + 2) s = .next u ∧ u.toResults = t.toResults ∧ u.done = t.done ∧ u.busy = false ∧
        u.inflight = none ∧ u.arg0 = s.arg0 ∧ u.arg1 = s.arg1 ∧ u.arg2 = s.arg2 ∧ u.matN = s.matN ∧
        u.bus = [] ∧ (u.faultFlag = false → u = { t with bus := [], readData := u.readData })

/-- Before its completion no effect of a command is visible: while BUSY = 1 no host access changes what commands write
or the command in flight (20_memory.md R74). -/
def Obligations.NothingIsVisibleBeforeCompletion : Prop :=
  ∀ s t e rest, s.busy = true → s.bus = e :: rest → isAccess e = true → step s = .next t →
    t.toResults = s.toResults ∧ t.inflight = s.inflight ∧ t.busy = true ∧ t.done = s.done ∧ t.arg0 = s.arg0 ∧
      t.arg1 = s.arg1 ∧ t.arg2 = s.arg2 ∧ t.matN = s.matN

/-- 40_control.md R132: completion applies the effects of the command in flight, or records its fault with its word, at a
completion event and, by the model's choice (log entry 2, DESIGN CHOICE), at a step with no event left. So once the
events at the bus are used up, one step more leaves no command in flight (one that reset discarded on the way is not
completed, 70_reset_and_hazards.md R320). R132 and R334 only say that completion is eventually taken (weak fairness). -/
def Obligations.EveryCommandInFlightCompletes : Prop :=
  (∀ s w r, s.inflight = some ⟨w, .ok r⟩ →
      (s.bus = [] → step s = .next (completed s r)) ∧
        ∀ rest, s.bus = .complete :: rest → step s = .next { completed s r with bus := rest }) ∧
    (∀ s w cause, s.inflight = some ⟨w, .fault cause⟩ →
      let t : State := { s with
        busy := false
        done := false
        inflight := none
        faultFlag := true
        faultCause := if s.faultFlag then s.faultCause else cause
        faultInfo := if s.faultFlag then s.faultInfo else w }
      (s.bus = [] → step s = .next t) ∧ ∀ rest, s.bus = .complete :: rest → step s = .next { t with bus := rest }) ∧
    ∀ s t, Sound s → run (s.bus.length + 1) s = .next t → t.bus = [] ∧ t.busy = false ∧ t.inflight = none

/-! ### Host accesses -/

/-- 10_state.md R21, 20_memory.md R62 to R65: the offset of every register and the address of every cell, and what the
map gives at each 4-byte-aligned address. -/
def Obligations.TheAddressMapIsTheSpecs : Prop :=
  (regOffset .id = 0x000 ∧ regOffset .cmd = 0x004 ∧ regOffset .status = 0x008 ∧ regOffset .faultCause = 0x00C ∧
      regOffset .faultInfo = 0x010 ∧ regOffset .arg0 = 0x014 ∧ regOffset .arg1 = 0x018 ∧ regOffset .arg2 = 0x01C ∧
      regOffset .result = 0x020 ∧ regOffset .paLen = 0x024 ∧ regOffset .pbLen = 0x028 ∧ regOffset .prLen = 0x02C ∧
      regOffset .bbLen = 0x030 ∧ regOffset .matN = 0x034 ∧ regOffset .penalty = 0x038 ∧
      regOffset .bestPenalty = 0x03C ∧ regOffset .bestMask = 0x040) ∧
    (∀ i, paAddr i = 0x1000 + 4 * i ∧ pbAddr i = 0x1400 + 4 * i ∧ prAddr i = 0x1800 + 4 * i ∧
      bbAddr i = 0x4000 + 4 * i ∧ ∀ c, matAddr i c = 0x10000 + 4 * (256 * i + c)) ∧
    ∀ a, a < 2 ^ 20 → a % 4 = 0 →
      (∀ r, locate a = some (.reg r) ↔ a = regOffset r) ∧
        (locate a = some (.cell 8 true) ↔ inWindow paAddr 256 a ∨ inWindow pbAddr 256 a) ∧
        (locate a = some (.cell 8 false) ↔ inWindow prAddr 256 a ∨ inWindow bbAddr 4096 a) ∧
        (locate a = some (.cell 1 true) ↔ inMat a) ∧
        (locate a = none ↔ (∀ r, a ≠ regOffset r) ∧ ¬inWindow paAddr 256 a ∧ ¬inWindow pbAddr 256 a ∧
          ¬inWindow prAddr 256 a ∧ ¬inWindow bbAddr 4096 a ∧ ¬inMat a)

/-- 10_state.md R21 to R37, 20_memory.md R67: a permitted read of a register returns its value and changes nothing else;
what each register reads as, with its reserved bits 0, and the codes of FAULT_CAUSE (60_exceptions.md R281). -/
def Obligations.RegisterReadsReturnTheRegisters : Prop :=
  (∀ s r rest, s.busy = false → s.inReset = false → s.bus = .read (BitVec.ofNat 20 (regOffset r)) 4 :: rest →
      step s = .next { s with bus := rest, readData := readReg r s }) ∧
    (∀ s, (readReg .status s).getLsbD 0 = s.busy ∧ (readReg .status s).getLsbD 1 = s.done ∧
      (readReg .status s).getLsbD 2 = s.faultFlag ∧ (readReg .status s).getLsbD 3 = s.bestValid ∧
      (readReg .status s).toNat < 16) ∧
    (∀ s, readReg .id s = 0x51524731 ∧ readReg .cmd s = 0 ∧ readReg .faultInfo s = s.faultInfo ∧
      readReg .arg0 s = s.arg0 ∧ readReg .arg1 s = s.arg1 ∧ readReg .arg2 s = s.arg2 ∧
      readReg .result s = s.result ∧ readReg .penalty s = s.penalty ∧ readReg .bestPenalty s = s.bestPenalty ∧
      (readReg .bestMask s).toNat = s.bestMask.toNat ∧
      (readReg .faultCause s).toNat = causeCode s.faultCause) ∧
    (∀ s, Sound s → (readReg .paLen s).toNat = s.paLen ∧ (readReg .pbLen s).toNat = s.pbLen ∧
      (readReg .prLen s).toNat = s.prLen ∧ (readReg .bbLen s).toNat = s.bbLen ∧ (readReg .matN s).toNat = s.matN) ∧
    causeCode .none = 0 ∧ causeCode .invalidFieldOp = 1 ∧ causeCode .zeroDivisor = 2 ∧ causeCode .illegalCommand = 3 ∧
    causeCode .operandRange = 4 ∧ causeCode .capacity = 5 ∧ causeCode .busyAccess = 6 ∧ causeCode .address = 7 ∧
    causeCode .regValue = 8

/-- 20_memory.md R67, 10_state.md R21, R27, R30, R35, R333 (70_reset_and_hazards.md): a permitted write of a legal value
to a read-write register stores it and changes nothing else. The value is that of the register's field, bits [8:0] of
PA_LEN and PB_LEN and [7:0] of MAT_N; reserved bits are ignored. -/
def Obligations.RegisterWritesStoreTheValue : Prop :=
  ∀ s v rest, s.busy = false → s.inReset = false →
    (s.bus = .write 0x014 4 v :: rest → step s = .next { s with bus := rest, arg0 := v }) ∧
      (s.bus = .write 0x018 4 v :: rest → step s = .next { s with bus := rest, arg1 := v }) ∧
      (s.bus = .write 0x01C 4 v :: rest → step s = .next { s with bus := rest, arg2 := v }) ∧
      (s.bus = .write 0x024 4 v :: rest → v.toNat % 512 ≤ 256 →
        step s = .next { s with bus := rest, paLen := v.toNat % 512 }) ∧
      (s.bus = .write 0x028 4 v :: rest → v.toNat % 512 ≤ 256 →
        step s = .next { s with bus := rest, pbLen := v.toNat % 512 }) ∧
      (s.bus = .write 0x034 4 v :: rest → 1 ≤ v.toNat % 256 → v.toNat % 256 ≤ 177 →
        step s = .next { s with bus := rest, matN := v.toNat % 256 })

/-- 20_memory.md R63, R64: a coefficient or a module written by the host reads back as its low bits, and no other cell,
no length and no other state changes. -/
def Obligations.WindowWriteThenReadReturnsTheLowBits : Prop :=
  ∀ s a v rest, s.busy = false → s.inReset = false →
    s.bus = .write (BitVec.ofNat 20 a) 4 v :: .read (BitVec.ofNat 20 a) 4 :: rest →
    (∀ low : Word, (inWindow paAddr 256 a ∨ inWindow pbAddr 256 a) ∧ low = v &&& 0xFF ∨ inMat a ∧ low = v &&& 1 →
      ∃ m', run 2 s = .next { s with bus := rest, mem := m', readData := low } ∧
        m'.read a = some (low.setWidth 8) ∧ ∀ b, b ≠ a → m'.read b = s.mem.read b)

/-- 20_memory.md R63 to R65, R71: a permitted read changes only the word returned, and the same read again returns the
same. A register returns its value; a written cell, of PR and BBUF too, returns its 8 bits or its bit, zero-extended.
An unwritten
cell returns some value of its width (93_implementation_defined.md I2); that such a read repeats is log entry 6. -/
def Obligations.PermittedReadsHaveNoSideEffect : Prop :=
  ∀ s a loc rest, s.inReset = false → locate a.toNat = some loc → a.toNat % 4 = 0 →
    (s.busy = false ∨ busyExempt loc = true) → s.bus = .read a 4 :: .read a 4 :: rest →
      ∃ d, step s = .next { s with bus := .read a 4 :: rest, readData := d } ∧
        run 2 s = .next { s with bus := rest, readData := d } ∧
        (∀ r, loc = .reg r → d = readReg r s) ∧
        (∀ w v, loc = .cell 8 w → s.mem.read a.toNat = some v → d.toNat = v.toNat) ∧
        (∀ w v, loc = .cell 1 w → s.mem.read a.toNat = some v → d.toNat = v.toNat % 2) ∧
        ∀ w, (loc = .cell 8 w → d.toNat < 256) ∧ (loc = .cell 1 w → d.toNat < 2)

/-- 70_reset_and_hazards.md R330, 60_exceptions.md R287: while BUSY = 1 a mapped access is refused with BUSY_ACCESS
unless it reads ID, STATUS, FAULT_CAUSE or FAULT_INFO; a refused read returns 0 and nothing else changes. -/
def Obligations.BusyHazardRefusesEveryOtherAccess : Prop :=
  ∀ s a loc rest, s.busy = true → s.inReset = false → a.toNat % 4 = 0 → locate a.toNat = some loc →
    (∀ v, s.bus = .write a 4 v :: rest → step s = .next { recorded .busyAccess a s with bus := rest }) ∧
      (s.bus = .read a 4 :: rest →
        (a ≠ 0x000 ∧ a ≠ 0x008 ∧ a ≠ 0x00C ∧ a ≠ 0x010 →
          step s = .next { recorded .busyAccess a s with bus := rest, readData := 0 }) ∧
        (∀ r, r = .id ∨ r = .status ∨ r = .faultCause ∨ r = .faultInfo → a.toNat = regOffset r →
          step s = .next { s with bus := rest, readData := readReg r s }))

/-- 60_exceptions.md R288, with the order of R296: an access of another width, misaligned or unmapped is refused with
ADDRESS (code 7) even while BUSY = 1, and a write to a read-only register or window while BUSY = 0. -/
def Obligations.BadAccessesAreAddressFaults : Prop :=
  causeCode .address = 7 ∧
    (∀ s a width v rest, s.inReset = false → (width ≠ 4 ∨ a.toNat % 4 ≠ 0 ∨ locate a.toNat = none) →
      (s.bus = .read a width :: rest →
          step s = .next { recorded .address a s with bus := rest, readData := 0 }) ∧
        (s.bus = .write a width v :: rest → step s = .next { recorded .address a s with bus := rest })) ∧
    ∀ s a v rest, s.inReset = false → s.busy = false → s.bus = .write a 4 v :: rest →
      (a.toNat ∈ [0x000, 0x00C, 0x010, 0x020, 0x02C, 0x030, 0x038, 0x03C, 0x040] ∨
          inWindow prAddr 256 a.toNat ∨ inWindow bbAddr 4096 a.toNat) →
        step s = .next { recorded .address a s with bus := rest }

/-- 60_exceptions.md R289: REG_VALUE (code 8) for PA_LEN or PB_LEN above 256 and MAT_N outside 1 to 177, the register
unchanged; a value written to a polynomial window or to MAT is never refused. The value tested is that of the register's
field, the reserved bits above it ignored (10_state.md R21). -/
def Obligations.IllegalRegisterValuesAreRefused : Prop :=
  causeCode .regValue = 8 ∧
    (∀ s a v rest, s.inReset = false → s.busy = false → s.bus = .write a 4 v :: rest →
      ((a = 0x024 ∨ a = 0x028) ∧ 256 < v.toNat % 512 ∨ a = 0x034 ∧ (v.toNat % 256 < 1 ∨ 177 < v.toNat % 256)) →
        step s = .next { recorded .regValue a s with bus := rest }) ∧
    ∀ s a v rest, s.inReset = false → s.busy = false → s.bus = .write a 4 v :: rest →
      (inWindow paAddr 256 a.toNat ∨ inWindow pbAddr 256 a.toNat →
          step s = .next { s with bus := rest, mem := s.mem.write a.toNat (v.setWidth 8) }) ∧
        (inMat a.toNat → step s = .next { s with bus := rest, mem := s.mem.write a.toNat (v.setWidth 8 &&& 1) })

/-- 60_exceptions.md R293: a STATUS write with bit 2 = 1 while BUSY = 0 clears the record and changes nothing else; with
bit 2 = 0 it changes nothing; while BUSY = 1 it is a busy-hazard access. Reset clears the record too, and nothing else
does. That the record is cleared already when reset is asserted is the model's choice (log entry 10, DEDUCED):
70_reset_and_hazards.md R320 gives the state at release only. -/
def Obligations.OnlyAStatusWriteOrResetClearsTheFault : Prop :=
  (∀ s v rest, s.inReset = false → s.bus = .write 0x008 4 v :: rest →
      (s.busy = false → v.getLsbD 2 = true →
          step s = .next { s with bus := rest, faultFlag := false, faultCause := .none, faultInfo := 0 }) ∧
        (s.busy = false → v.getLsbD 2 = false → step s = .next { s with bus := rest }) ∧
        (s.busy = true → step s = .next { recorded .busyAccess 0x008 s with bus := rest })) ∧
    (∀ s rest, s.bus = .assertReset :: rest → ∃ t, step s = .next t ∧
      t.faultFlag = false ∧ t.faultCause = .none ∧ t.faultInfo = 0) ∧
    ∀ s t, s.faultFlag = true → step s = .next t → t.faultFlag = false →
      ∃ e rest, s.bus = e :: rest ∧
        (e = .assertReset ∨ (e = .releaseReset ∧ s.inReset = true) ∨
          ∃ v, e = .write 0x008 4 v ∧ v.getLsbD 2 = true ∧ s.busy = false ∧ s.inReset = false)

/-- 60_exceptions.md R290, R294: while a fault stands, a CMD write at a unit that is not busy is discarded, and no step
puts another fault in its place. -/
def Obligations.AStandingFaultKeepsItsRecordAndBlocksCommands : Prop :=
  (∀ s w rest, s.inReset = false → s.busy = false → s.faultFlag = true → s.bus = cmdWrite w :: rest →
      step s = .next { s with bus := rest }) ∧
    ∀ s t, s.faultFlag = true → step s = .next t → t.faultFlag = true →
      t.faultCause = s.faultCause ∧ t.faultInfo = s.faultInfo

/-- 70_reset_and_hazards.md R320: reset asserted at any time discards a command in flight; accesses while it is asserted
are ignored; after its release every register has its reset value and every cell is unwritten. What the last read gave
the host is the model's own field (log entry 9). -/
def Obligations.ResetDiscardsAndRestores : Prop :=
  ∀ s es, es.all isAccess → s.bus = .assertReset :: (es ++ [.releaseReset]) →
    ∃ d n, run (es.length + 2) s = .next { State.reset with readData := d, freeCount := n }

/-! ### Every command -/

/-- 60_exceptions.md R285: OPERAND_RANGE (code 4) exactly where an ARG register a command decodes lies outside the
range of its kind; the command has no other effect. That FAULT_CAUSE is none while FAULT = 0 is an invariant (`Sound`,
10_state.md R25). -/
def Obligations.OperandsOutOfRangeRaiseOperandRange : Prop :=
  causeCode .operandRange = 4 ∧
    (∀ i s, argsLegal i s = false → exec i s = .next (faulted i .operandRange s)) ∧
    ∀ i s t, argsLegal i s = true → s.faultFlag = false → s.faultCause = .none → exec i s = .next t →
      t.faultCause ≠ .operandRange

/-- 60_exceptions.md R292: a command that ends in a fault changes no buffer, length register, RESULT, MAT, PENALTY or
BEST_* register, and leaves DONE = 0 and BUSY = 0. -/
def Obligations.AFaultedCommandHasNoOtherEffect : Prop :=
  ∀ i s t, exec i s = .next t → t.done = false →
    t.toResults = s.toResults ∧ t.busy = false ∧ t.faultFlag = true ∧ ∃ cause, t = faulted i cause s

/-- 20_memory.md R68: what each command leaves unchanged, in every state whose PA_LEN is legal. No command writes an ARG
register or MAT_N, and each writes only the registers and window cells of its row. -/
def Obligations.CommandsWriteOnlyTheirState : Prop :=
  ∀ i s t, s.paLen ≤ 256 → exec i s = .next t →
    (t.arg0 = s.arg0 ∧ t.arg1 = s.arg1 ∧ t.arg2 = s.arg2 ∧ t.matN = s.matN ∧ t.inReset = s.inReset ∧
      t.readData = s.readData ∧ t.freeCount = s.freeCount ∧ t.bus = s.bus) ∧
    (i ∉ [.gfExp, .gfLog, .gfMul, .bchFmt, .bchVer, .maskEval, .penalty, .selScore] → t.result = s.result) ∧
    (i ≠ .pNorm → t.paLen = s.paLen) ∧
    (i ∉ [.pNorm, .pGen] → t.pbLen = s.pbLen) ∧
    (i ∉ [.pMul, .pMod, .rsRem] → t.prLen = s.prLen) ∧
    (i ∉ [.bbClear, .bbPut, .bbPutBit, .bbPad] → t.bbLen = s.bbLen) ∧
    (i ∉ [.penalty, .selScore] → t.penalty = s.penalty) ∧
    (i ∉ [.selReset, .selScore] →
      t.bestPenalty = s.bestPenalty ∧ t.bestMask = s.bestMask ∧ t.bestValid = s.bestValid) ∧
    ∀ a, ¬mayWrite i a → t.mem.read a = s.mem.read a

/-- 10_state.md R42: a command that reads an unwritten coefficient or module stops the model, and says which cell. -/
def Obligations.UnwrittenCellsStopTheModel : Prop :=
  (∀ s k, k < s.paLen → (∀ j, j < k → (s.mem.read (paAddr j)).isSome) → s.mem.read (paAddr k) = none →
      exec .pMul s = .fault (.unwrittenCell (paAddr k)) ∧ exec .pMod s = .fault (.unwrittenCell (paAddr k)) ∧
        (argsLegal .rsRem s = true → exec .rsRem s = .fault (.unwrittenCell (paAddr k))) ∧
        (argsLegal .pNorm s = true → s.arg0 = 0 → exec .pNorm s = .fault (.unwrittenCell (paAddr k)))) ∧
    (∀ s k, k < s.pbLen → (∀ j, j < k → (s.mem.read (pbAddr j)).isSome) → s.mem.read (pbAddr k) = none →
      ((∀ j, j < s.paLen → (s.mem.read (paAddr j)).isSome) →
        exec .pMul s = .fault (.unwrittenCell (pbAddr k)) ∧ exec .pMod s = .fault (.unwrittenCell (pbAddr k))) ∧
        (argsLegal .pNorm s = true → s.arg0 = 1 → exec .pNorm s = .fault (.unwrittenCell (pbAddr k)))) ∧
    ∀ s, ¬squareWritten s.mem s.matN → ∃ r c, r < s.matN ∧ c < s.matN ∧ s.mem.read (matAddr r c) = none ∧
      exec .penalty s = .fault (.unwrittenCell (matAddr r c)) ∧
      (argsLegal .selScore s = true → exec .selScore s = .fault (.unwrittenCell (matAddr r c)))

/-! ### Control and field -/

/-- 40_control.md R134: NOP completes with no effects beyond DONE = 1. -/
def Obligations.NopOnlyCompletes : Prop := ∀ s, exec .nop s = .next (completed s s.toResults)

/-- 41_gf.md R153 to R155: the field commands complete with the power, the logarithm or the product in RESULT and
change nothing else; GF_LOG of 0 raises INVALID_FIELD_OP. The values rest on FIELD_POLY (log entry 11). -/
def Obligations.FieldCommandsGiveTheirResults : Prop :=
  (∀ s, exec .gfExp s = .next (completed s { s.toResults with result := zext32 (gexp (sint32 s.arg0)) })) ∧
    (∀ s x, s.arg0 = zext32 x → x ≠ 0 →
      exec .gfLog s = .next (completed s { s.toResults with result := BitVec.ofNat 32 (logOf x) })) ∧
    (∀ s, s.arg0 = 0 → exec .gfLog s = .next (faulted .gfLog .invalidFieldOp s)) ∧
    ∀ s a b, s.arg0 = zext32 a → s.arg1 = zext32 b →
      exec .gfMul s = .next (completed s { s.toResults with result := zext32 (gmul a b) })

/-- 41_gf.md R150, R151, R156: exp is the recurrence of R156 with FIELD_POLY = 0x11D (log entry 11), for every integer
exponent, and log is its inverse on the 255 nonzero elements. -/
def Obligations.ExpAndLogAreInverse : Prop :=
  gexp 0 = 1 ∧ (∀ n, gexp (n + 1) = timesAlpha (gexp n)) ∧
    (∀ n, (gexp (n + 1)).toNat =
      if 128 ≤ (gexp n).toNat then 2 * (gexp n).toNat ^^^ 0x11D else 2 * (gexp n).toNat) ∧
    (∀ n, logOf (gexp n) = (n % 255).toNat) ∧ ∀ x, x ≠ 0 → gexp (logOf x) = x ∧ logOf x < 255

/-- 41_gf.md R158: the laws of the field product. -/
def Obligations.FieldProductLaws : Prop :=
  (∀ a b, gmul a b = gmul b a) ∧ (∀ a b c, gmul (gmul a b) c = gmul a (gmul b c)) ∧ (∀ a, gmul a 1 = a) ∧
    (∀ a, gmul a 0 = 0) ∧ (∀ a b c, gmul a (b ^^^ c) = gmul a b ^^^ gmul a c) ∧
    (∀ n, gexp (n + 255) = gexp n) ∧ ∀ a b, a ≠ 0 → b ≠ 0 → gmul a b ≠ 0

/-- The product by logarithms is the product of polynomials over GF(2) modulo FIELD_POLY (00_scope.md R7, R15,
41_gf.md R152). -/
def Obligations.FieldProductIsThePolynomialProduct : Prop := ∀ a b, gmul a b = shiftAddProduct a b

/-! ### Polynomials and Reed-Solomon -/

/-- 42_poly_rs.md R170: `norm(p, s)` takes away exactly the leading zeros and appends `s` zeros. -/
def Obligations.NormStripsLeadingZerosAndShifts : Prop :=
  ∀ p s, ∃ k q, p = List.replicate k 0 ++ q ∧ q.head? ≠ some 0 ∧ normPoly p s = q ++ List.replicate s 0

/-- 42_poly_rs.md R174: P_NORM on PA (ARG0 = 0) or PB (ARG0 = 1) completes with the normalised polynomial where it fits,
and raises CAPACITY where it does not. -/
def Obligations.PNormNormalisesTheSelectedBuffer : Prop :=
  ∀ s p, s.arg1.toNat ≤ 256 →
    (s.arg0 = 0 → paHolds s p →
      ((normPoly p s.arg1.toNat).length ≤ 256 → ∃ m',
        exec .pNorm s = .next (completed s { s.toResults with
          mem := m', paLen := (normPoly p s.arg1.toNat).length }) ∧
        cellsReplaced s.mem m' paAddr (normPoly p s.arg1.toNat)) ∧
      (256 < (normPoly p s.arg1.toNat).length → exec .pNorm s = .next (faulted .pNorm .capacity s))) ∧
    (s.arg0 = 1 → pbHolds s p →
      ((normPoly p s.arg1.toNat).length ≤ 256 → ∃ m',
        exec .pNorm s = .next (completed s { s.toResults with
          mem := m', pbLen := (normPoly p s.arg1.toNat).length }) ∧
        cellsReplaced s.mem m' pbAddr (normPoly p s.arg1.toNat)) ∧
      (256 < (normPoly p s.arg1.toNat).length → exec .pNorm s = .next (faulted .pNorm .capacity s)))

/-- 42_poly_rs.md R171: the product of two normalised nonzero polynomials has len(a) + len(b) - 1 coefficients, each the
sum of the products of the coefficients whose indices add up to its own; a zero operand gives the zero polynomial. -/
def Obligations.PolynomialProductIsTheConvolution : Prop :=
  (∀ a b, strip a = [] ∨ strip b = [] → pmul a b = []) ∧
    ∀ a b, strip a ≠ [] → strip b ≠ [] →
      pmul a b = (List.range ((strip a).length + (strip b).length - 1)).map (convCoeff (strip a) (strip b))

/-- 42_poly_rs.md R175: P_MUL completes with the product of PA and PB in PR where it fits, and raises CAPACITY where it
does not. -/
def Obligations.PMulWritesTheProduct : Prop :=
  ∀ s a b, paHolds s a → pbHolds s b →
    (strip a = [] ∨ strip b = [] ∨ (strip a).length + (strip b).length - 1 ≤ 256 → ∃ m',
      exec .pMul s = .next (completed s { s.toResults with mem := m', prLen := (pmul a b).length }) ∧
      cellsReplaced s.mem m' prAddr (pmul a b)) ∧
    (strip a ≠ [] ∧ strip b ≠ [] ∧ 256 < (strip a).length + (strip b).length - 1 →
      exec .pMul s = .next (faulted .pMul .capacity s))

/-- 42_poly_rs.md R172, R180: `pmod(a, b)`, where it raises nothing, is the remainder: normalised, shorter than the
divisor, and a = q*b + r for some q. -/
def Obligations.PolynomialRemainderIsTheRemainder : Prop :=
  ∀ a b r, pmod a b = .ok r →
    r.length < (strip b).length ∧ strip r = r ∧ ∃ q, strip (polyAdd (pmul q b) r) = strip a

/-- 42_poly_rs.md R176, R179: P_MOD completes with the remainder in PR where PB's normalised polynomial is not [] and
either has no zero coefficient or is longer than PA's; it raises ZERO_DIVISOR for [], INVALID_FIELD_OP else. -/
def Obligations.PModWritesTheRemainder : Prop :=
  ∀ s a b, paHolds s a → pbHolds s b →
    (strip b = [] → exec .pMod s = .next (faulted .pMod .zeroDivisor s)) ∧
    (strip b ≠ [] → 0 ∈ strip b → (strip b).length ≤ (strip a).length →
      exec .pMod s = .next (faulted .pMod .invalidFieldOp s)) ∧
    (strip b ≠ [] → 0 ∉ strip b ∨ (strip a).length < (strip b).length → ∃ r m', pmod a b = .ok r ∧
      exec .pMod s = .next (completed s { s.toResults with mem := m', prLen := r.length }) ∧
      cellsReplaced s.mem m' prAddr r)

/-- 42_poly_rs.md R173, R181: `gen(n)` has n + 1 coefficients and leading coefficient 1; for n ≤ 254 none of them is 0,
and for n = 255 all 254 inner ones are. The values rest on FIELD_POLY (log entry 11). -/
def Obligations.GeneratorIsMonicAndItsCoefficientsAreNonzero : Prop :=
  (∀ n, (gen n).length = n + 1 ∧ (gen n).head? = some 1) ∧ (∀ n, n ≤ 254 → 0 ∉ gen n) ∧
    gen 255 = 1 :: (List.replicate 254 0 ++ [1])

/-- 42_poly_rs.md R173, 00_scope.md R15: `gen(n)` vanishes at exp(0), ..., exp(n-1). -/
def Obligations.GeneratorVanishesAtItsRoots : Prop := ∀ n i : Nat, i < n → polyEval (gen n) (gexp i) = 0

/-- 42_poly_rs.md R177: P_GEN completes with `gen(ARG0)` in PB. -/
def Obligations.PGenWritesTheGenerator : Prop :=
  ∀ s, s.arg0.toNat ≤ 255 → ∃ m',
    exec .pGen s = .next (completed s { s.toResults with mem := m', pbLen := s.arg0.toNat + 1 }) ∧
    cellsReplaced s.mem m' pbAddr (gen s.arg0.toNat)

/-- 42_poly_rs.md R178, R181: RS_REM completes with the n right-aligned codewords in PR where data and codewords fit
PMAX and n ≤ 254 or the data is zero. CAPACITY where they do not fit, and INVALID_FIELD_OP where they fit, n = 255 and
the data is not zero. -/
def Obligations.RsRemWritesTheCodewords : Prop :=
  ∀ s d, s.arg0.toNat ≤ 255 → paHolds s d →
    (256 < (strip d).length + s.arg0.toNat → exec .rsRem s = .next (faulted .rsRem .capacity s)) ∧
    ((strip d).length + s.arg0.toNat ≤ 256 → s.arg0.toNat = 255 → strip d ≠ [] →
      exec .rsRem s = .next (faulted .rsRem .invalidFieldOp s)) ∧
    ((strip d).length + s.arg0.toNat ≤ 256 → s.arg0.toNat ≤ 254 ∨ strip d = [] → ∃ r m',
      pmod (normPoly d s.arg0.toNat) (gen s.arg0.toNat) = .ok r ∧ r.length ≤ s.arg0.toNat ∧
      exec .rsRem s = .next (completed s { s.toResults with mem := m', prLen := s.arg0.toNat }) ∧
      cellsReplaced s.mem m' prAddr (List.replicate (s.arg0.toNat - r.length) 0 ++ r))

/-- 42_poly_rs.md R182: data followed by its EC codewords is a multiple of the generator, for every n and data on which
the division raises nothing. -/
def Obligations.DataWithItsCodewordsIsAMultipleOfTheGenerator : Prop :=
  ∀ d n r, pmod (normPoly d n) (gen n) = .ok r → pmod (d ++ rightAlign n r) (gen n) = .ok []

/-! ### Bit stream -/

/-- 43_bitbuf.md R203: BB_CLEAR sets BB_LEN to 0 and changes nothing else. -/
def Obligations.BbClearEmptiesTheStream : Prop :=
  encode .bbClear = 0x00000020 ∧ ∀ s, exec .bbClear s = .next (completed s { s.toResults with bbLen := 0 })

/-- 43_bitbuf.md R204, R207: BB_PUT appends the low ARG1 bits of ARG0, most significant first, where they fit; no
earlier bit and no byte outside the appended bits changes. CAPACITY where they do not fit. -/
def Obligations.BbPutAppendsTheLowBits : Prop :=
  ∀ s, ResultsSound s.toResults → s.arg1.toNat ≤ 32 →
    (32768 < s.bbLen + s.arg1.toNat → exec .bbPut s = .next (faulted .bbPut .capacity s)) ∧
    (s.bbLen + s.arg1.toNat ≤ 32768 → ∃ m',
      exec .bbPut s = .next (completed s { s.toResults with mem := m', bbLen := s.bbLen + s.arg1.toNat }) ∧
      (∀ p, p < s.bbLen → streamBit m' p = streamBit s.mem p) ∧
      (∀ j, j < s.arg1.toNat → streamBit m' (s.bbLen + j) = some (s.arg0.getLsbD (s.arg1.toNat - 1 - j))) ∧
      ∀ a, (∀ p, s.bbLen ≤ p → p < s.bbLen + s.arg1.toNat → a ≠ bbAddr (p / 8)) → m'.read a = s.mem.read a)

/-- 43_bitbuf.md R205, R207: BB_PUTBIT appends one bit where it fits. CAPACITY where it does not. -/
def Obligations.BbPutBitAppendsOneBit : Prop :=
  ∀ s b, ResultsSound s.toResults → s.arg0 = bitWord b →
    (s.bbLen = 32768 → exec .bbPutBit s = .next (faulted .bbPutBit .capacity s)) ∧
    (s.bbLen < 32768 → ∃ m',
      exec .bbPutBit s = .next (completed s { s.toResults with mem := m', bbLen := s.bbLen + 1 }) ∧
      streamBit m' s.bbLen = some b ∧ (∀ p, p < s.bbLen → streamBit m' p = streamBit s.mem p) ∧
      ∀ a, a ≠ bbAddr (s.bbLen / 8) → m'.read a = s.mem.read a)

/-- 43_bitbuf.md R202, R206, R207: BB_PAD completes with the stream padded to exactly ARG0 bytes; no earlier bit and no
byte outside the appended bits changes. CAPACITY where the stream is already longer. -/
def Obligations.BbPadFillsUpToTheCapacity : Prop :=
  ∀ s, ResultsSound s.toResults → s.arg0.toNat ≤ 4096 →
    (8 * s.arg0.toNat < s.bbLen → exec .bbPad s = .next (faulted .bbPad .capacity s)) ∧
    (s.bbLen ≤ 8 * s.arg0.toNat → ∃ m',
      exec .bbPad s = .next (completed s { s.toResults with mem := m', bbLen := 8 * s.arg0.toNat }) ∧
      (∀ p, p < s.bbLen → streamBit m' p = streamBit s.mem p) ∧
      (∀ p, s.bbLen ≤ p → p < 8 * s.arg0.toNat →
        streamBit m' p = some (paddedBit s.bbLen s.arg0.toNat p)) ∧
      ∀ a, (∀ p, s.bbLen ≤ p → p < 8 * s.arg0.toNat → a ≠ bbAddr (p / 8)) → m'.read a = s.mem.read a)

/-! ### BCH -/

/-- 44_bch.md R223, R224: BCH_FMT and BCH_VER complete with the codeword in RESULT and change nothing else. The layout
of the codewords is log entry 13. -/
def Obligations.BchCommandsGiveTheCodewords : Prop :=
  (∀ s, s.arg0.toNat ≤ 31 →
      exec .bchFmt s = .next (completed s { s.toResults with result := BitVec.ofNat 32 (fmtEncode s.arg0.toNat) })) ∧
    ∀ s, s.arg0.toNat ≤ 63 →
      exec .bchVer s = .next (completed s { s.toResults with result := BitVec.ofNat 32 (verEncode s.arg0.toNat) })

/-- 44_bch.md R221: `bchRem(v, G)` has fewer digits than G and differs from `v` by a sum of shifts of G: it is the
remainder of the division over GF(2). -/
def Obligations.BchRemainderIsTheRemainder : Prop :=
  ∀ v g, g ≠ 0 → digits (bchRem v g) < digits g ∧
    ∃ shifts : List Nat, bchRem v g = (shifts.map (g <<< ·)).foldl (· ^^^ ·) v

/-- 44_bch.md R220, R226, R228: the constants, some codewords of the table, and the round trip: the codewords give back
the data, and unmasked they are divisible by their generators. The layout is log entry 13. -/
def Obligations.BchCodewordsRoundTrip : Prop :=
  g15 = 0x537 ∧ g15Mask = 0x5412 ∧ g18 = 0x1F25 ∧
    fmtEncode 0 = 0x5412 ∧ fmtEncode 8 = 0x77C4 ∧ fmtEncode 31 = 0x2BED ∧ verEncode 7 = 0x07C94 ∧
    verEncode 63 = 0x3FB85 ∧
    (∀ d, d ≤ 31 → (fmtEncode d ^^^ g15Mask) >>> 10 = d ∧ bchRem (fmtEncode d ^^^ g15Mask) g15 = 0) ∧
    ∀ d, d ≤ 63 → verEncode d >>> 12 = d ∧ bchRem (verEncode d) g18 = 0

/-! ### Mask and penalty -/

/-- 45_mask_penalty.md R240, R247: MASK_EVAL completes with the value of the mask function in RESULT and changes nothing
else, and the eight functions are those of the table. Functions 1 to 7 are log entry 12. -/
def Obligations.MaskEvalGivesTheMaskValue : Prop :=
  (∀ s, s.arg0.toNat ≤ 7 → s.arg1.toNat ≤ 255 → s.arg2.toNat ≤ 255 →
      exec .maskEval s = .next (completed s { s.toResults with
        result := if maskFn s.arg0.toNat s.arg1.toNat s.arg2.toNat = true then 1 else 0 })) ∧
    ∀ i j, (maskFn 0 i j = true ↔ (i + j) % 2 = 0) ∧ (maskFn 1 i j = true ↔ i % 2 = 0) ∧
      (maskFn 2 i j = true ↔ j % 3 = 0) ∧ (maskFn 3 i j = true ↔ (i + j) % 3 = 0) ∧
      (maskFn 4 i j = true ↔ (i / 2 + j / 3) % 2 = 0) ∧
      (maskFn 5 i j = true ↔ (i * j) % 2 + (i * j) % 3 = 0) ∧
      (maskFn 6 i j = true ↔ ((i * j) % 2 + (i * j) % 3) % 2 = 0) ∧
      (maskFn 7 i j = true ↔ ((i * j) % 3 + (i + j) % 2) % 2 = 0)

/-- 45_mask_penalty.md R248: MAT_FILL completes with every module of MAT at ARG0's bit, whatever MAT_N is, and no other
cell changed. -/
def Obligations.MatFillWritesEveryModule : Prop :=
  ∀ s b, s.arg0 = bitWord b → ∃ m',
    exec .matFill s = .next (completed s { s.toResults with mem := m' }) ∧
    (∀ r c, r < 177 → c < 177 → m'.read (matAddr r c) = some (if b then 1 else 0)) ∧
    ∀ a, ¬inMat a → m'.read a = s.mem.read a

/-- 45_mask_penalty.md R242 to R246, R249: PENALTY completes with the penalty of the square in PENALTY and RESULT, where
every module of the square is written, and changes nothing else. The penalty is the sum of the four rules, each counted
by an expression of its own: windows of five in rows and columns, 2×2 blocks, positions of 1 0 1 1 1 0 1 in rows and
columns, and the exact dark ratio. That the unit counts so is log entry 14. -/
def Obligations.PenaltyScoresTheSquare : Prop :=
  (∀ s, squareWritten s.mem s.matN →
      exec .penalty s = .next (completed s { s.toResults with
        penalty := BitVec.ofNat 32 (penaltyOf (moduleAt s.mem) s.matN)
        result := BitVec.ofNat 32 (penaltyOf (moduleAt s.mem) s.matN) })) ∧
    ∀ m n, penaltyOf m n = penA m n + penB m n + penC m n + penD m n ∧
      penA m n = ∑ l ∈ Finset.range n,
        (windowRunScore ((List.range n).map (fun c => m l c)) + windowRunScore ((List.range n).map (fun r => m r l))) ∧
      penB m n = 3 * blockCount m n ∧
      penC m n = 40 * (finderPositions m n + finderPositions (fun r c => m c r) n) ∧
      (penD m n : ℤ) = 10 * (|20 * (darkModules m n : ℤ) - 10 * (n : ℤ) ^ 2| / (n : ℤ) ^ 2)

/-- 45_mask_penalty.md R242: the score of a line by its maximal runs is the count by windows of five modules. -/
def Obligations.RunScoreIsTheWindowCount : Prop := ∀ line, lineRunScore line = windowRunScore line

/-- 45_mask_penalty.md R246: for every side up to 177 the penalty is at most 2,576,338, so the 32-bit register holds it
exactly. -/
def Obligations.PenaltyFitsItsRegister : Prop :=
  ∀ m n, n ≤ 177 → penaltyOf m n ≤ 2576338 ∧ (BitVec.ofNat 32 (penaltyOf m n)).toNat = penaltyOf m n

/-- 45_mask_penalty.md R254: the penalty is unchanged by transposing the square, and a square of one colour with N ≥ 5
scores 2N(N - 2) + 3(N - 1)² + 100. Swapping the colours leaves rules (a), (b) and (d) unchanged; the spec says so of
the whole penalty, which rule (c) of R244 contradicts (log entry 22). -/
def Obligations.PenaltyLawsOfTransposeColourAndUniformSquares : Prop :=
  (∀ m n, penaltyOf (fun r c => m c r) n = penaltyOf m n) ∧
    (∀ m n, penA (fun r c => !m r c) n = penA m n ∧ penB (fun r c => !m r c) n = penB m n ∧
      penD (fun r c => !m r c) n = penD m n) ∧
    ∀ (b : Bool) n, 5 ≤ n → penaltyOf (fun _ _ => b) n = 2 * n * (n - 2) + 3 * (n - 1) ^ 2 + 100

/-- The sentence of 45_mask_penalty.md R254 on colour swap, as the spec states it for the whole penalty. It is expected
to FAIL: R244 counts only the dark pattern 1011101 (log entry 22). -/
def Obligations.ColourSwapKeepsTheWholePenalty : Prop :=
  ∀ m n, penaltyOf (fun r c => !m r c) n = penaltyOf m n

/-- 45_mask_penalty.md R250: SEL_RESET sets BEST_VALID, BEST_PENALTY and BEST_MASK to 0 and changes nothing else. -/
def Obligations.SelResetStartsANewSelection : Prop :=
  encode .selReset = 0x00000043 ∧
    ∀ s, exec .selReset s = .next (completed s { s.toResults with bestValid := false, bestPenalty := 0, bestMask := 0 })

/-- 45_mask_penalty.md R251: SEL_SCORE completes with the penalty in PENALTY and RESULT, where every module of the
square is written, and keeps the candidate if there is none yet, its penalty is lower, or it is equal with a lower mask
index; nothing else changes. -/
def Obligations.SelScoreKeepsTheBetterCandidate : Prop :=
  ∀ s, s.arg0.toNat ≤ 7 → s.matN ≤ 177 → squareWritten s.mem s.matN →
    let p := penaltyOf (moduleAt s.mem) s.matN
    let scored : Results := { s.toResults with penalty := BitVec.ofNat 32 p, result := BitVec.ofNat 32 p }
    let better := s.bestValid = false ∨ p < s.bestPenalty.toNat ∨
      (p = s.bestPenalty.toNat ∧ s.arg0.toNat < s.bestMask.toNat)
    (better → exec .selScore s = .next (completed s { scored with
        bestPenalty := BitVec.ofNat 32 p, bestMask := s.arg0.setWidth 3, bestValid := true })) ∧
      (¬better → exec .selScore s = .next (completed s scored))

/-- 45_mask_penalty.md R252: scored in any order from BEST_VALID = 0, the candidates leave the least pair (penalty,
mask), and every scoring completes. -/
def Obligations.SelectionIsTheLexicographicMinimum : Prop :=
  ∀ cands s, s.bestValid = false → s.matN ≤ 177 → cands ≠ [] →
    (∀ c, c ∈ cands → c.1 ≤ 7 ∧ squareWritten c.2 s.matN) →
      ∃ u, scoreAll cands s = some u ∧ u.bestValid = true ∧
        (u.bestPenalty.toNat, u.bestMask.toNat) ∈ candidatePairs s.matN cands ∧
        ∀ x, x ∈ candidatePairs s.matN cands → lexLe (u.bestPenalty.toNat, u.bestMask.toNat) x
end

