-- ==== Sys2Proof/Machine/Assembly.lean ====
section
/-! DEFINITION. The host assembly language (30_encoding.md R107, R108): statements and pseudo-instructions, the accesses
of a program, and the event lists a program can give rise to, where the unit's completions fall between its accesses. -/

namespace Sys2Proof.Machine

/-- The base statements (30_encoding.md R107). DESIGN CHOICE (log entry 23): `wrReg` takes every register name of R21, CMD
too, as R107 says; so `wr CMD, v` issues a command with no poll after it, against the derived last sentence of R108. -/
inductive HostStmt where
  | wrReg (r : Reg) (v : Word)
  | wrPa (i : Nat) (v : Word)
  | wrPb (i : Nat) (v : Word)
  | wrMat (r c : Nat) (v : Word)
  | rdReg (r : Reg)
  | rdPa (i : Nat)
  | rdPb (i : Nat)
  | rdPr (i : Nat)
  | rdBbuf (j : Nat)
  | rdMat (r c : Nat)
  | cmd (i : Instr)
  | poll
  deriving DecidableEq, Repr

/-- The pseudo-instructions (30_encoding.md R108): `op M a0, ...` with at most three operands, `ldp PA, [...]`,
`ldp PB, [...]` and `clrf`. -/
inductive Pseudo where
  | op (i : Instr) (args : List Word)
  | ldpPa (p : List Word)
  | ldpPb (p : List Word)
  | clrf
  deriving DecidableEq, Repr

/-- One line of a program: a base statement or a pseudo-instruction. -/
inductive HostLine where
  | base (s : HostStmt)
  | pseudo (p : Pseudo)
  deriving DecidableEq, Repr

/-- `MemRead(addr, 4)`. DESIGN CHOICE (log entry 24): the address is cut to the bus's 20 bits, so a statement whose index
lies past its window reads wherever the formula then points. -/
def memRead (a : Nat) : BusEvent := .read (BitVec.ofNat 20 a) 4

/-- `MemWrite(addr, 4, v)`. DESIGN CHOICE (log entry 24): the address is cut to the bus's 20 bits, so a statement whose
index lies past its window writes wherever the formula then points. -/
def memWrite (a : Nat) (v : Word) : BusEvent := .write (BitVec.ofNat 20 a) 4 v

/-- The access a base statement stands for; a `poll` makes its own as often as it must (30_encoding.md R107). `wr CMD, v`
is a write to CMD like any other (log entry 23). -/
def HostStmt.access : HostStmt → BusEvent
  | .wrReg r v => memWrite (regOffset r) v
  | .wrPa i v => memWrite (paAddr i) v
  | .wrPb i v => memWrite (pbAddr i) v
  | .wrMat r c v => memWrite (matAddr r c) v
  | .rdReg r => memRead (regOffset r)
  | .rdPa i => memRead (paAddr i)
  | .rdPb i => memRead (pbAddr i)
  | .rdPr i => memRead (prAddr i)
  | .rdBbuf j => memRead (bbAddr j)
  | .rdMat r c => memRead (matAddr r c)
  | .cmd i => memWrite (regOffset .cmd) (encode i)
  | .poll => memRead (regOffset .status)

/-- The expansion of a pseudo-instruction (30_encoding.md R108). -/
def Pseudo.expand : Pseudo → List HostStmt
  | .op i args => List.zipWith HostStmt.wrReg [.arg0, .arg1, .arg2] args ++ [.cmd i, .poll]
  | .ldpPa p => p.mapIdx (fun i v => .wrPa i v) ++ [.wrReg .paLen (BitVec.ofNat 32 p.length)]
  | .ldpPb p => p.mapIdx (fun i v => .wrPb i v) ++ [.wrReg .pbLen (BitVec.ofNat 32 p.length)]
  | .clrf => [.wrReg .status 0x4]

/-- The base statements of a line. -/
def HostLine.expand : HostLine → List HostStmt
  | .base s => [s]
  | .pseudo p => p.expand

/-- The base statements of a program, in order. -/
def statements (program : List HostLine) : List HostStmt := program.flatMap HostLine.expand

/-- The accesses of a program in order, each `poll` as its final read (30_encoding.md R107, the tables of
95_test_vectors.md L3). -/
def programAccesses (program : List HostLine) : List BusEvent := (statements program).map HostStmt.access

/-- What is left of the host's statements after an access of the first of them, in the state `t` after it: a `poll`
stays until the STATUS it read has BUSY = 0, every other statement is done (30_encoding.md R107). -/
def afterAccess (stmts : List HostStmt) (t : State) : List HostStmt :=
  match stmts with
  | .poll :: rest => if t.readData.getLsbD 0 then .poll :: rest else rest
  | _ :: rest => rest
  | [] => []

/-- From state `s`, the event list is one the statements can give rise to: its accesses are theirs in order, each `poll`
reads until it sees BUSY = 0, and the unit may complete the command in flight at any place between two accesses, before
a statement that is no `poll` too, or with no delay (40_control.md R132, 95_test_vectors.md P5; log entry 21). -/
def follows : List HostStmt → State → List BusEvent → Bool
  | stmts, _, [] => stmts.isEmpty
  | stmts, s, e :: es =>
    match busEvent e s with
    | .next t =>
      if e = .complete then follows stmts t es
      else decide (stmts.head?.map HostStmt.access = some e) && follows (afterAccess stmts t) t es
    | _ => false

end Sys2Proof.Machine
end

