-- ==== Sys2Proof/Laws/Assembly.lean ====
section
/-! SUPPORT. What the event lists of a host program are (30_encoding.md R107). -/

namespace Sys2Proof.Laws

open Sys2Proof.Machine Sys2Proof.Safety

/-- Every statement stands for a host access. -/
@[simp] theorem access_isAccess (st : HostStmt) : isAccess st.access = true := by
  cases st <;> rfl

/-- Everything the first event of a followed list can be: a completion, or the access of the first statement left. -/
theorem follows_cons (stmts : List HostStmt) (s : State) (e : BusEvent) (es : List BusEvent)
    (h : follows stmts s (e :: es) = true) :
    ∃ t, busEvent e s = .next t ∧
      ((e = .complete ∧ follows stmts t es = true) ∨
        ∃ st rest, stmts = st :: rest ∧ e = st.access ∧ follows (afterAccess stmts t) t es = true) := by
  unfold follows at h
  cases hb : busEvent e s with
  | next t =>
    rw [hb] at h
    refine ⟨t, rfl, ?_⟩
    by_cases he : e = .complete
    · exact .inl ⟨he, by simpa [he] using h⟩
    · simp only [he, if_false, Bool.and_eq_true, decide_eq_true_eq] at h
      cases stmts with
      | nil => simp at h
      | cons st rest => exact .inr ⟨st, rest, rfl, by simpa using h.1.symm, h.2⟩
  | fault r => rw [hb] at h; cases h
  | refused r => rw [hb] at h; cases h

/-- Without a `poll`, the accesses of a followed list are the statements' in order, whatever completions stand between
them. -/
theorem follows_accesses (stmts : List HostStmt) (s : State) (es : List BusEvent) (hp : .poll ∉ stmts)
    (h : follows stmts s es = true) : es.filter isAccess = stmts.map HostStmt.access := by
  induction es generalizing stmts s with
  | nil =>
    cases stmts with
    | nil => rfl
    | cons _ _ => simp [follows] at h
  | cons e es ih =>
    obtain ⟨t, -, ⟨rfl, hf⟩ | ⟨st, rest, rfl, rfl, hf⟩⟩ := follows_cons _ _ _ _ h
    · exact ih stmts t hp hf
    · have ha : afterAccess (st :: rest) t = rest := by
        cases st <;> first | rfl | simp at hp
      rw [ha] at hf
      simp [ih rest t (fun hm => hp (List.mem_cons_of_mem _ hm)) hf]

end Sys2Proof.Laws
end

