-- ==== Sys2Proof/Laws/Memory.lean ====
section
/-! SUPPORT. The laws of buffer memory: what a read gives after a write, that every operation keeps the canonical form,
and what each shared memory operation of the commands does. -/

namespace Sys2Proof.Laws

open Sys2Proof.Machine Sys2Proof.Safety

/-! ### One cell -/

@[simp] theorem read_nil (a : Nat) : Memory.read [] a = none := rfl

@[simp] theorem read_write_same (m : Memory) (a : Nat) (v : Byte) : (m.write a v).read a = some v := by
  induction m with
  | nil => simp [Memory.write, Memory.read]
  | cons c rest ih =>
    obtain ⟨k, x⟩ := c
    simp only [Memory.write]
    split
    · simp [Memory.read]
    · split
      · simp [Memory.read]
      · next h₁ h₂ => simp [Memory.read, show ¬k = a by omega, ih]

theorem read_write_other (m : Memory) (a b : Nat) (v : Byte) (h : a ≠ b) : (m.write a v).read b = m.read b := by
  induction m with
  | nil => simp [Memory.write, Memory.read, h]
  | cons c rest ih =>
    obtain ⟨k, x⟩ := c
    simp only [Memory.write]
    split
    · simp [Memory.read, h]
    · split
      · next _ h₂ => simp [Memory.read, h, show ¬k = b by omega]
      · simp [Memory.read, ih]

/-- What one write does to every read. -/
theorem read_write (m : Memory) (a b : Nat) (v : Byte) :
    (m.write a v).read b = if a = b then some v else m.read b := by
  split
  · next h => subst h; simp
  · next h => exact read_write_other m a b v h

theorem mem_write_keys (m : Memory) (a k : Nat) (v : Byte) :
    k ∈ (m.write a v).map Prod.fst → k = a ∨ k ∈ m.map Prod.fst := by
  induction m with
  | nil => simp [Memory.write]
  | cons c rest ih =>
    obtain ⟨j, x⟩ := c
    simp only [Memory.write]
    split
    · simp
    · split
      · simp only [List.map_cons, List.mem_cons]
        rintro (h | h)
        · exact .inl h
        · exact .inr (.inr h)
      · simp only [List.map_cons, List.mem_cons]
        rintro (h | h)
        · exact .inr (.inl h)
        · exact (ih h).imp_right .inr

/-- A write keeps the canonical form. -/
theorem write_wf (m : Memory) (a : Nat) (v : Byte) (h : m.wf) : (m.write a v).wf := by
  induction m with
  | nil => simp [Memory.write, Memory.wf]
  | cons c rest ih =>
    obtain ⟨k, x⟩ := c
    simp only [Memory.wf, List.map_cons, List.pairwise_cons] at h ih ⊢
    obtain ⟨hk, hr⟩ := h
    simp only [Memory.write]
    split
    · next hlt =>
      simp only [List.map_cons, List.pairwise_cons, List.mem_cons]
      exact ⟨fun b hb => hb.elim (fun e => e ▸ hlt) (fun e => hlt.trans (hk b e)), hk, hr⟩
    · split
      · next _ he =>
        simp only [List.map_cons, List.pairwise_cons]
        exact ⟨fun b hb => he ▸ hk b hb, hr⟩
      · simp only [List.map_cons, List.pairwise_cons]
        refine ⟨fun b hb => ?_, ih hr⟩
        rcases mem_write_keys rest a b v hb with rfl | hb
        · omega
        · exact hk b hb

theorem reset_wf : State.reset.mem.wf := List.Pairwise.nil

/-- Writing one cell twice is writing it once, with the later value. -/
theorem write_write_same (m : Memory) (a : Nat) (v w : Byte) : (m.write a v).write a w = m.write a w := by
  induction m with
  | nil => simp [Memory.write]
  | cons c rest ih =>
    obtain ⟨k, x⟩ := c
    simp only [Memory.write]
    split
    · simp [Memory.write]
    · split
      · simp [Memory.write]
      · next h₁ h₂ => simp [Memory.write, h₁, h₂, ih]

/-! ### Lists of cells -/

/-- Every outcome of reading one cell. -/
theorem readCell_cases (m : Memory) (a : Nat) :
    (∃ v, m.read a = some v ∧ readCell m a = .ok v) ∨ (m.read a = none ∧ readCell m a = .error (.unwritten a)) := by
  unfold readCell
  cases h : m.read a <;> simp

/-- Reading `n` cells answers exactly the values they hold. -/
theorem readCells_ok (m : Memory) (a n : Nat) (p : List Byte) :
    readCells m a n = .ok p ↔ p.length = n ∧ holdsCells m a p := by
  induction n generalizing a p with
  | zero =>
    simp only [readCells, Except.ok.injEq]
    constructor
    · rintro rfl; exact ⟨rfl, fun i hi => absurd hi (Nat.not_lt_zero i)⟩
    · rintro ⟨h, -⟩; exact (List.length_eq_zero_iff.mp h).symm
  | succ n ih =>
    simp only [readCells]
    rcases readCell_cases m a with ⟨v, hv, he⟩ | ⟨hv, he⟩
    · rw [he]
      cases hr : readCells m (a + 4) n with
      | error e =>
        simp only [reduceCtorEq, false_iff, not_and]
        intro hl hh
        cases p with
        | nil => simp at hl
        | cons w vs =>
          have : readCells m (a + 4) n = .ok vs :=
            (ih (a + 4) vs).mpr ⟨by simpa using hl, fun i hi => by
              have := hh (i + 1) (by simpa using hi)
              simpa [show a + 4 * (i + 1) = a + 4 + 4 * i by omega] using this⟩
          rw [hr] at this
          cases this
      | ok vs =>
        obtain ⟨hlen, hcells⟩ := (ih (a + 4) vs).mp hr
        simp only [Except.ok.injEq]
        constructor
        · rintro rfl
          refine ⟨by simp [hlen], fun i hi => ?_⟩
          cases i with
          | zero => simpa using hv
          | succ i =>
            have := hcells i (by simpa using hi)
            simpa [show a + 4 * (i + 1) = a + 4 + 4 * i by omega] using this
        · rintro ⟨hl, hh⟩
          cases p with
          | nil => simp at hl
          | cons w ws =>
            have hw : v = w := by
              have := hh 0 (by simp)
              rw [Nat.mul_zero, Nat.add_zero, hv] at this
              simpa using this
            have hws : readCells m (a + 4) n = .ok ws :=
              (ih (a + 4) ws).mpr ⟨by simpa using hl, fun i hi => by
                have := hh (i + 1) (by simpa using hi)
                simpa [show a + 4 * (i + 1) = a + 4 + 4 * i by omega] using this⟩
            rw [hr] at hws
            cases hws
            rw [hw]
    · rw [he]
      simp only [reduceCtorEq, false_iff, not_and]
      intro hl hh
      have := hh 0 (by omega)
      rw [Nat.mul_zero, Nat.add_zero, hv] at this
      cases p with
      | nil => simp at hl
      | cons w ws => simp at this

/-- Reading `n` cells stops at the first that is not written. -/
theorem readCells_unwritten (m : Memory) (a n i : Nat) (hi : i < n) (hw : ∀ j < i, (m.read (a + 4 * j)).isSome)
    (hu : m.read (a + 4 * i) = none) : readCells m a n = .error (.unwritten (a + 4 * i)) := by
  induction n generalizing a i with
  | zero => omega
  | succ n ih =>
    simp only [readCells]
    cases i with
    | zero =>
      rw [Nat.mul_zero, Nat.add_zero] at hu ⊢
      simp [readCell, hu]
    | succ i =>
      have h0 := hw 0 (by omega)
      rw [Nat.mul_zero, Nat.add_zero, Option.isSome_iff_exists] at h0
      obtain ⟨v, hv⟩ := h0
      have e : ∀ j, a + 4 * (j + 1) = a + 4 + 4 * j := fun j => by omega
      have hr := ih (a + 4) i (by omega) (fun j hj => by rw [← e]; exact hw (j + 1) (by omega)) (by rw [← e]; exact hu)
      simp [readCell, hv, hr, e]

/-- Reading cells never raises a fault of the unit: it stops only at an unwritten cell. -/
theorem readCells_error (m : Memory) (a n : Nat) (e : Stop) (h : readCells m a n = .error e) :
    ∃ i, i < n ∧ m.read (a + 4 * i) = none ∧ e = .unwritten (a + 4 * i) := by
  induction n generalizing a with
  | zero => cases h
  | succ n ih =>
    simp only [readCells] at h
    rcases readCell_cases m a with ⟨v, -, hc⟩ | ⟨hu, hc⟩
    · rw [hc] at h
      cases hr : readCells m (a + 4) n with
      | ok vs => rw [hr] at h; cases h
      | error e' =>
        rw [hr] at h
        cases h
        obtain ⟨i, hi, hu, he⟩ := ih (a + 4) hr
        have : a + 4 + 4 * i = a + 4 * (i + 1) := by omega
        exact ⟨i + 1, by omega, this ▸ hu, this ▸ he⟩
    · rw [hc] at h
      cases h
      exact ⟨0, by omega, by simpa using hu, by simp⟩

/-- What writing a list of cells does to every read outside it. -/
theorem read_writeCells_other (m : Memory) (a b : Nat) (p : List Byte) (h : ∀ i < p.length, b ≠ a + 4 * i) :
    (writeCells m a p).read b = m.read b := by
  induction p generalizing m a with
  | nil => rfl
  | cons v vs ih =>
    simp only [writeCells]
    rw [ih (m.write a v) (a + 4) fun i hi => by
      have := h (i + 1) (by simpa using hi)
      omega]
    exact read_write_other m a b v fun e => h 0 (by simp) (by omega)

/-- After writing a list of cells they hold it. -/
theorem writeCells_holds (m : Memory) (a : Nat) (p : List Byte) : holdsCells (writeCells m a p) a p := by
  induction p generalizing m a with
  | nil => intro i hi; exact absurd hi (Nat.not_lt_zero i)
  | cons v vs ih =>
    intro i hi
    simp only [writeCells]
    cases i with
    | zero =>
      rw [read_writeCells_other _ _ _ _ fun j _ => by omega]
      simp
    | succ i =>
      have := ih (m.write a v) (a + 4) i (by simpa using hi)
      simpa [show a + 4 * (i + 1) = a + 4 + 4 * i by omega] using this

/-- Writing a list of cells keeps the canonical form. -/
theorem writeCells_wf (m : Memory) (a : Nat) (p : List Byte) (h : m.wf) : (writeCells m a p).wf := by
  induction p generalizing m a with
  | nil => exact h
  | cons v vs ih => exact ih (m.write a v) (a + 4) (write_wf m a v h)

/-- What filling a list of addresses does to every read. -/
theorem read_fillCells (m : Memory) (addrs : List Nat) (v : Byte) (b : Nat) :
    (fillCells m addrs v).read b = if b ∈ addrs then some v else m.read b := by
  induction addrs with
  | nil => simp [fillCells]
  | cons a rest ih =>
    have e : fillCells m (a :: rest) v = (fillCells m rest v).write a v := rfl
    rw [e, read_write, ih]
    by_cases h : a = b
    · simp [h]
    · simp [h, Ne.symm h]

/-- Filling keeps the canonical form. -/
theorem fillCells_wf (m : Memory) (addrs : List Nat) (v : Byte) (h : m.wf) : (fillCells m addrs v).wf := by
  induction addrs with
  | nil => exact h
  | cons a rest ih => exact write_wf _ a v ih

/-! ### Modules -/

/-- The addresses MAT_FILL writes are those of the 177 × 177 modules (45_mask_penalty.md R248). -/
theorem mem_matAddrs (a : Nat) : a ∈ matAddrs ↔ ∃ r c, r < 177 ∧ c < 177 ∧ a = matAddr r c := by
  simp only [matAddrs, List.mem_flatMap, List.mem_range, List.mem_map]
  constructor
  · rintro ⟨r, hr, c, hc, rfl⟩; exact ⟨r, c, hr, hc, rfl⟩
  · rintro ⟨r, c, hr, hc, rfl⟩; exact ⟨r, hr, c, hc, rfl⟩

/-- A row of written modules is read as its colours. -/
theorem readModules_written (m : Memory) (r c n : Nat) (h : ∀ j, c ≤ j → j < c + n → (m.read (matAddr r j)).isSome) :
    readModules m r c n = .ok ((List.range' c n).map (moduleAt m r)) := by
  induction n generalizing c with
  | zero => rfl
  | succ n ih =>
    obtain ⟨v, hv⟩ := Option.isSome_iff_exists.mp (h c (by omega) (by omega))
    have hr := ih (c + 1) fun j h₁ h₂ => h j (by omega) (by omega)
    simp [readModules, readCell, hv, hr, List.range'_succ, moduleAt]

/-- Rows of written modules are read as their colours. -/
theorem readRows_written (m : Memory) (n r k : Nat)
    (h : ∀ i j, r ≤ i → i < r + k → j < n → (m.read (matAddr i j)).isSome) :
    readRows m n r k = .ok ((List.range' r k).map fun i => (List.range n).map (moduleAt m i)) := by
  induction k generalizing r with
  | zero => rfl
  | succ k ih =>
    have hrow := readModules_written m r 0 n fun j _ hj => h r j (by omega) (by omega) (by omega)
    have hr := ih (r + 1) fun i j h₁ h₂ hj => h i j (by omega) (by omega) hj
    simp [readRows, hrow, hr, List.range'_succ, List.range_eq_range']

end Sys2Proof.Laws
end

