-- ==== Sys2Proof/Laws/State.lean ====
section
/-! SUPPORT. One lemma per field per named update of the state, so that no proof unfolds a record update. -/

namespace Sys2Proof.Laws

open Sys2Proof.Machine Sys2Proof.Safety

/-! ### A command is accepted (40_control.md R131) -/

@[simp] theorem flagsAccepted_result (s : State) : (flagsAccepted s).result = s.result := rfl
@[simp] theorem flagsAccepted_mem (s : State) : (flagsAccepted s).mem = s.mem := rfl
@[simp] theorem flagsAccepted_paLen (s : State) : (flagsAccepted s).paLen = s.paLen := rfl
@[simp] theorem flagsAccepted_pbLen (s : State) : (flagsAccepted s).pbLen = s.pbLen := rfl
@[simp] theorem flagsAccepted_prLen (s : State) : (flagsAccepted s).prLen = s.prLen := rfl
@[simp] theorem flagsAccepted_bbLen (s : State) : (flagsAccepted s).bbLen = s.bbLen := rfl
@[simp] theorem flagsAccepted_penalty (s : State) : (flagsAccepted s).penalty = s.penalty := rfl
@[simp] theorem flagsAccepted_bestPenalty (s : State) : (flagsAccepted s).bestPenalty = s.bestPenalty := rfl
@[simp] theorem flagsAccepted_bestMask (s : State) : (flagsAccepted s).bestMask = s.bestMask := rfl
@[simp] theorem flagsAccepted_bestValid (s : State) : (flagsAccepted s).bestValid = s.bestValid := rfl
@[simp] theorem flagsAccepted_arg0 (s : State) : (flagsAccepted s).arg0 = s.arg0 := rfl
@[simp] theorem flagsAccepted_arg1 (s : State) : (flagsAccepted s).arg1 = s.arg1 := rfl
@[simp] theorem flagsAccepted_arg2 (s : State) : (flagsAccepted s).arg2 = s.arg2 := rfl
@[simp] theorem flagsAccepted_matN (s : State) : (flagsAccepted s).matN = s.matN := rfl
@[simp] theorem flagsAccepted_busy (s : State) : (flagsAccepted s).busy = true := rfl
@[simp] theorem flagsAccepted_done (s : State) : (flagsAccepted s).done = false := rfl
@[simp] theorem flagsAccepted_faultFlag (s : State) : (flagsAccepted s).faultFlag = s.faultFlag := rfl
@[simp] theorem flagsAccepted_faultCause (s : State) : (flagsAccepted s).faultCause = s.faultCause := rfl
@[simp] theorem flagsAccepted_faultInfo (s : State) : (flagsAccepted s).faultInfo = s.faultInfo := rfl
@[simp] theorem flagsAccepted_inflight (s : State) : (flagsAccepted s).inflight = s.inflight := rfl
@[simp] theorem flagsAccepted_inReset (s : State) : (flagsAccepted s).inReset = s.inReset := rfl
@[simp] theorem flagsAccepted_readData (s : State) : (flagsAccepted s).readData = s.readData := rfl
@[simp] theorem flagsAccepted_freeCount (s : State) : (flagsAccepted s).freeCount = s.freeCount := rfl
@[simp] theorem flagsAccepted_bus (s : State) : (flagsAccepted s).bus = s.bus := rfl
@[simp] theorem flagsAccepted_toResults (s : State) : (flagsAccepted s).toResults = s.toResults := rfl

/-! ### A command completes (40_control.md R132) -/

@[simp] theorem flagsCompleted_result (s : State) : (flagsCompleted s).result = s.result := rfl
@[simp] theorem flagsCompleted_mem (s : State) : (flagsCompleted s).mem = s.mem := rfl
@[simp] theorem flagsCompleted_paLen (s : State) : (flagsCompleted s).paLen = s.paLen := rfl
@[simp] theorem flagsCompleted_pbLen (s : State) : (flagsCompleted s).pbLen = s.pbLen := rfl
@[simp] theorem flagsCompleted_prLen (s : State) : (flagsCompleted s).prLen = s.prLen := rfl
@[simp] theorem flagsCompleted_bbLen (s : State) : (flagsCompleted s).bbLen = s.bbLen := rfl
@[simp] theorem flagsCompleted_penalty (s : State) : (flagsCompleted s).penalty = s.penalty := rfl
@[simp] theorem flagsCompleted_bestPenalty (s : State) : (flagsCompleted s).bestPenalty = s.bestPenalty := rfl
@[simp] theorem flagsCompleted_bestMask (s : State) : (flagsCompleted s).bestMask = s.bestMask := rfl
@[simp] theorem flagsCompleted_bestValid (s : State) : (flagsCompleted s).bestValid = s.bestValid := rfl
@[simp] theorem flagsCompleted_arg0 (s : State) : (flagsCompleted s).arg0 = s.arg0 := rfl
@[simp] theorem flagsCompleted_arg1 (s : State) : (flagsCompleted s).arg1 = s.arg1 := rfl
@[simp] theorem flagsCompleted_arg2 (s : State) : (flagsCompleted s).arg2 = s.arg2 := rfl
@[simp] theorem flagsCompleted_matN (s : State) : (flagsCompleted s).matN = s.matN := rfl
@[simp] theorem flagsCompleted_busy (s : State) : (flagsCompleted s).busy = false := rfl
@[simp] theorem flagsCompleted_done (s : State) : (flagsCompleted s).done = true := rfl
@[simp] theorem flagsCompleted_faultFlag (s : State) : (flagsCompleted s).faultFlag = s.faultFlag := rfl
@[simp] theorem flagsCompleted_faultCause (s : State) : (flagsCompleted s).faultCause = s.faultCause := rfl
@[simp] theorem flagsCompleted_faultInfo (s : State) : (flagsCompleted s).faultInfo = s.faultInfo := rfl
@[simp] theorem flagsCompleted_inflight (s : State) : (flagsCompleted s).inflight = s.inflight := rfl
@[simp] theorem flagsCompleted_inReset (s : State) : (flagsCompleted s).inReset = s.inReset := rfl
@[simp] theorem flagsCompleted_readData (s : State) : (flagsCompleted s).readData = s.readData := rfl
@[simp] theorem flagsCompleted_freeCount (s : State) : (flagsCompleted s).freeCount = s.freeCount := rfl
@[simp] theorem flagsCompleted_bus (s : State) : (flagsCompleted s).bus = s.bus := rfl
@[simp] theorem flagsCompleted_toResults (s : State) : (flagsCompleted s).toResults = s.toResults := rfl

/-! ### A command ends in a fault (60_exceptions.md R292) -/

@[simp] theorem flagsFaulted_result (s : State) : (flagsFaulted s).result = s.result := rfl
@[simp] theorem flagsFaulted_mem (s : State) : (flagsFaulted s).mem = s.mem := rfl
@[simp] theorem flagsFaulted_paLen (s : State) : (flagsFaulted s).paLen = s.paLen := rfl
@[simp] theorem flagsFaulted_pbLen (s : State) : (flagsFaulted s).pbLen = s.pbLen := rfl
@[simp] theorem flagsFaulted_prLen (s : State) : (flagsFaulted s).prLen = s.prLen := rfl
@[simp] theorem flagsFaulted_bbLen (s : State) : (flagsFaulted s).bbLen = s.bbLen := rfl
@[simp] theorem flagsFaulted_penalty (s : State) : (flagsFaulted s).penalty = s.penalty := rfl
@[simp] theorem flagsFaulted_bestPenalty (s : State) : (flagsFaulted s).bestPenalty = s.bestPenalty := rfl
@[simp] theorem flagsFaulted_bestMask (s : State) : (flagsFaulted s).bestMask = s.bestMask := rfl
@[simp] theorem flagsFaulted_bestValid (s : State) : (flagsFaulted s).bestValid = s.bestValid := rfl
@[simp] theorem flagsFaulted_arg0 (s : State) : (flagsFaulted s).arg0 = s.arg0 := rfl
@[simp] theorem flagsFaulted_arg1 (s : State) : (flagsFaulted s).arg1 = s.arg1 := rfl
@[simp] theorem flagsFaulted_arg2 (s : State) : (flagsFaulted s).arg2 = s.arg2 := rfl
@[simp] theorem flagsFaulted_matN (s : State) : (flagsFaulted s).matN = s.matN := rfl
@[simp] theorem flagsFaulted_busy (s : State) : (flagsFaulted s).busy = false := rfl
@[simp] theorem flagsFaulted_done (s : State) : (flagsFaulted s).done = false := rfl
@[simp] theorem flagsFaulted_faultFlag (s : State) : (flagsFaulted s).faultFlag = s.faultFlag := rfl
@[simp] theorem flagsFaulted_faultCause (s : State) : (flagsFaulted s).faultCause = s.faultCause := rfl
@[simp] theorem flagsFaulted_faultInfo (s : State) : (flagsFaulted s).faultInfo = s.faultInfo := rfl
@[simp] theorem flagsFaulted_inflight (s : State) : (flagsFaulted s).inflight = s.inflight := rfl
@[simp] theorem flagsFaulted_inReset (s : State) : (flagsFaulted s).inReset = s.inReset := rfl
@[simp] theorem flagsFaulted_readData (s : State) : (flagsFaulted s).readData = s.readData := rfl
@[simp] theorem flagsFaulted_freeCount (s : State) : (flagsFaulted s).freeCount = s.freeCount := rfl
@[simp] theorem flagsFaulted_bus (s : State) : (flagsFaulted s).bus = s.bus := rfl
@[simp] theorem flagsFaulted_toResults (s : State) : (flagsFaulted s).toResults = s.toResults := rfl

/-! ### The fault record is cleared (60_exceptions.md R293) -/

@[simp] theorem clearFault_result (s : State) : (clearFault s).result = s.result := rfl
@[simp] theorem clearFault_mem (s : State) : (clearFault s).mem = s.mem := rfl
@[simp] theorem clearFault_paLen (s : State) : (clearFault s).paLen = s.paLen := rfl
@[simp] theorem clearFault_pbLen (s : State) : (clearFault s).pbLen = s.pbLen := rfl
@[simp] theorem clearFault_prLen (s : State) : (clearFault s).prLen = s.prLen := rfl
@[simp] theorem clearFault_bbLen (s : State) : (clearFault s).bbLen = s.bbLen := rfl
@[simp] theorem clearFault_penalty (s : State) : (clearFault s).penalty = s.penalty := rfl
@[simp] theorem clearFault_bestPenalty (s : State) : (clearFault s).bestPenalty = s.bestPenalty := rfl
@[simp] theorem clearFault_bestMask (s : State) : (clearFault s).bestMask = s.bestMask := rfl
@[simp] theorem clearFault_bestValid (s : State) : (clearFault s).bestValid = s.bestValid := rfl
@[simp] theorem clearFault_arg0 (s : State) : (clearFault s).arg0 = s.arg0 := rfl
@[simp] theorem clearFault_arg1 (s : State) : (clearFault s).arg1 = s.arg1 := rfl
@[simp] theorem clearFault_arg2 (s : State) : (clearFault s).arg2 = s.arg2 := rfl
@[simp] theorem clearFault_matN (s : State) : (clearFault s).matN = s.matN := rfl
@[simp] theorem clearFault_busy (s : State) : (clearFault s).busy = s.busy := rfl
@[simp] theorem clearFault_done (s : State) : (clearFault s).done = s.done := rfl
@[simp] theorem clearFault_faultFlag (s : State) : (clearFault s).faultFlag = false := rfl
@[simp] theorem clearFault_faultCause (s : State) : (clearFault s).faultCause = .none := rfl
@[simp] theorem clearFault_faultInfo (s : State) : (clearFault s).faultInfo = 0 := rfl
@[simp] theorem clearFault_inflight (s : State) : (clearFault s).inflight = s.inflight := rfl
@[simp] theorem clearFault_inReset (s : State) : (clearFault s).inReset = s.inReset := rfl
@[simp] theorem clearFault_readData (s : State) : (clearFault s).readData = s.readData := rfl
@[simp] theorem clearFault_freeCount (s : State) : (clearFault s).freeCount = s.freeCount := rfl
@[simp] theorem clearFault_bus (s : State) : (clearFault s).bus = s.bus := rfl
@[simp] theorem clearFault_toResults (s : State) : (clearFault s).toResults = s.toResults := rfl

/-! ### A command is in flight (40_control.md R131) -/

@[simp] theorem launch_result (w : Word) (o : CommandOutcome) (s : State) : (launch w o s).result = s.result := rfl
@[simp] theorem launch_mem (w : Word) (o : CommandOutcome) (s : State) : (launch w o s).mem = s.mem := rfl
@[simp] theorem launch_paLen (w : Word) (o : CommandOutcome) (s : State) : (launch w o s).paLen = s.paLen := rfl
@[simp] theorem launch_pbLen (w : Word) (o : CommandOutcome) (s : State) : (launch w o s).pbLen = s.pbLen := rfl
@[simp] theorem launch_prLen (w : Word) (o : CommandOutcome) (s : State) : (launch w o s).prLen = s.prLen := rfl
@[simp] theorem launch_bbLen (w : Word) (o : CommandOutcome) (s : State) : (launch w o s).bbLen = s.bbLen := rfl
@[simp] theorem launch_penalty (w : Word) (o : CommandOutcome) (s : State) : (launch w o s).penalty = s.penalty := rfl
@[simp] theorem launch_bestPenalty (w : Word) (o : CommandOutcome) (s : State) : (launch w o s).bestPenalty = s.bestPenalty := rfl
@[simp] theorem launch_bestMask (w : Word) (o : CommandOutcome) (s : State) : (launch w o s).bestMask = s.bestMask := rfl
@[simp] theorem launch_bestValid (w : Word) (o : CommandOutcome) (s : State) : (launch w o s).bestValid = s.bestValid := rfl
@[simp] theorem launch_arg0 (w : Word) (o : CommandOutcome) (s : State) : (launch w o s).arg0 = s.arg0 := rfl
@[simp] theorem launch_arg1 (w : Word) (o : CommandOutcome) (s : State) : (launch w o s).arg1 = s.arg1 := rfl
@[simp] theorem launch_arg2 (w : Word) (o : CommandOutcome) (s : State) : (launch w o s).arg2 = s.arg2 := rfl
@[simp] theorem launch_matN (w : Word) (o : CommandOutcome) (s : State) : (launch w o s).matN = s.matN := rfl
@[simp] theorem launch_busy (w : Word) (o : CommandOutcome) (s : State) : (launch w o s).busy = true := rfl
@[simp] theorem launch_done (w : Word) (o : CommandOutcome) (s : State) : (launch w o s).done = false := rfl
@[simp] theorem launch_faultFlag (w : Word) (o : CommandOutcome) (s : State) : (launch w o s).faultFlag = s.faultFlag := rfl
@[simp] theorem launch_faultCause (w : Word) (o : CommandOutcome) (s : State) : (launch w o s).faultCause = s.faultCause := rfl
@[simp] theorem launch_faultInfo (w : Word) (o : CommandOutcome) (s : State) : (launch w o s).faultInfo = s.faultInfo := rfl
@[simp] theorem launch_inflight (w : Word) (o : CommandOutcome) (s : State) : (launch w o s).inflight = some ⟨w, o⟩ := rfl
@[simp] theorem launch_inReset (w : Word) (o : CommandOutcome) (s : State) : (launch w o s).inReset = s.inReset := rfl
@[simp] theorem launch_readData (w : Word) (o : CommandOutcome) (s : State) : (launch w o s).readData = s.readData := rfl
@[simp] theorem launch_freeCount (w : Word) (o : CommandOutcome) (s : State) : (launch w o s).freeCount = s.freeCount := rfl
@[simp] theorem launch_bus (w : Word) (o : CommandOutcome) (s : State) : (launch w o s).bus = s.bus := rfl
@[simp] theorem launch_toResults (w : Word) (o : CommandOutcome) (s : State) : (launch w o s).toResults = s.toResults := rfl

/-! ### A command has completed (40_control.md R132) -/

@[simp] theorem completed_result (s : State) (r : Results) : (completed s r).result = r.result := rfl
@[simp] theorem completed_mem (s : State) (r : Results) : (completed s r).mem = r.mem := rfl
@[simp] theorem completed_paLen (s : State) (r : Results) : (completed s r).paLen = r.paLen := rfl
@[simp] theorem completed_pbLen (s : State) (r : Results) : (completed s r).pbLen = r.pbLen := rfl
@[simp] theorem completed_prLen (s : State) (r : Results) : (completed s r).prLen = r.prLen := rfl
@[simp] theorem completed_bbLen (s : State) (r : Results) : (completed s r).bbLen = r.bbLen := rfl
@[simp] theorem completed_penalty (s : State) (r : Results) : (completed s r).penalty = r.penalty := rfl
@[simp] theorem completed_bestPenalty (s : State) (r : Results) : (completed s r).bestPenalty = r.bestPenalty := rfl
@[simp] theorem completed_bestMask (s : State) (r : Results) : (completed s r).bestMask = r.bestMask := rfl
@[simp] theorem completed_bestValid (s : State) (r : Results) : (completed s r).bestValid = r.bestValid := rfl
@[simp] theorem completed_arg0 (s : State) (r : Results) : (completed s r).arg0 = s.arg0 := rfl
@[simp] theorem completed_arg1 (s : State) (r : Results) : (completed s r).arg1 = s.arg1 := rfl
@[simp] theorem completed_arg2 (s : State) (r : Results) : (completed s r).arg2 = s.arg2 := rfl
@[simp] theorem completed_matN (s : State) (r : Results) : (completed s r).matN = s.matN := rfl
@[simp] theorem completed_busy (s : State) (r : Results) : (completed s r).busy = false := rfl
@[simp] theorem completed_done (s : State) (r : Results) : (completed s r).done = true := rfl
@[simp] theorem completed_faultFlag (s : State) (r : Results) : (completed s r).faultFlag = s.faultFlag := rfl
@[simp] theorem completed_faultCause (s : State) (r : Results) : (completed s r).faultCause = s.faultCause := rfl
@[simp] theorem completed_faultInfo (s : State) (r : Results) : (completed s r).faultInfo = s.faultInfo := rfl
@[simp] theorem completed_inflight (s : State) (r : Results) : (completed s r).inflight = none := rfl
@[simp] theorem completed_inReset (s : State) (r : Results) : (completed s r).inReset = s.inReset := rfl
@[simp] theorem completed_readData (s : State) (r : Results) : (completed s r).readData = s.readData := rfl
@[simp] theorem completed_freeCount (s : State) (r : Results) : (completed s r).freeCount = s.freeCount := rfl
@[simp] theorem completed_bus (s : State) (r : Results) : (completed s r).bus = s.bus := rfl
@[simp] theorem completed_toResults (s : State) (r : Results) : (completed s r).toResults = r := rfl

/-! ### A command has faulted (60_exceptions.md R290 to R292) -/

@[simp] theorem faulted_result (i : Instr) (cause : Cause) (s : State) : (faulted i cause s).result = s.result := rfl
@[simp] theorem faulted_mem (i : Instr) (cause : Cause) (s : State) : (faulted i cause s).mem = s.mem := rfl
@[simp] theorem faulted_paLen (i : Instr) (cause : Cause) (s : State) : (faulted i cause s).paLen = s.paLen := rfl
@[simp] theorem faulted_pbLen (i : Instr) (cause : Cause) (s : State) : (faulted i cause s).pbLen = s.pbLen := rfl
@[simp] theorem faulted_prLen (i : Instr) (cause : Cause) (s : State) : (faulted i cause s).prLen = s.prLen := rfl
@[simp] theorem faulted_bbLen (i : Instr) (cause : Cause) (s : State) : (faulted i cause s).bbLen = s.bbLen := rfl
@[simp] theorem faulted_penalty (i : Instr) (cause : Cause) (s : State) : (faulted i cause s).penalty = s.penalty := rfl
@[simp] theorem faulted_bestPenalty (i : Instr) (cause : Cause) (s : State) : (faulted i cause s).bestPenalty = s.bestPenalty := rfl
@[simp] theorem faulted_bestMask (i : Instr) (cause : Cause) (s : State) : (faulted i cause s).bestMask = s.bestMask := rfl
@[simp] theorem faulted_bestValid (i : Instr) (cause : Cause) (s : State) : (faulted i cause s).bestValid = s.bestValid := rfl
@[simp] theorem faulted_arg0 (i : Instr) (cause : Cause) (s : State) : (faulted i cause s).arg0 = s.arg0 := rfl
@[simp] theorem faulted_arg1 (i : Instr) (cause : Cause) (s : State) : (faulted i cause s).arg1 = s.arg1 := rfl
@[simp] theorem faulted_arg2 (i : Instr) (cause : Cause) (s : State) : (faulted i cause s).arg2 = s.arg2 := rfl
@[simp] theorem faulted_matN (i : Instr) (cause : Cause) (s : State) : (faulted i cause s).matN = s.matN := rfl
@[simp] theorem faulted_busy (i : Instr) (cause : Cause) (s : State) : (faulted i cause s).busy = false := rfl
@[simp] theorem faulted_done (i : Instr) (cause : Cause) (s : State) : (faulted i cause s).done = false := rfl
@[simp] theorem faulted_faultFlag (i : Instr) (cause : Cause) (s : State) : (faulted i cause s).faultFlag = true := rfl
@[simp] theorem faulted_faultCause (i : Instr) (cause : Cause) (s : State) : (faulted i cause s).faultCause = if s.faultFlag then s.faultCause else cause := rfl
@[simp] theorem faulted_faultInfo (i : Instr) (cause : Cause) (s : State) : (faulted i cause s).faultInfo = if s.faultFlag then s.faultInfo else encode i := rfl
@[simp] theorem faulted_inflight (i : Instr) (cause : Cause) (s : State) : (faulted i cause s).inflight = none := rfl
@[simp] theorem faulted_inReset (i : Instr) (cause : Cause) (s : State) : (faulted i cause s).inReset = s.inReset := rfl
@[simp] theorem faulted_readData (i : Instr) (cause : Cause) (s : State) : (faulted i cause s).readData = s.readData := rfl
@[simp] theorem faulted_freeCount (i : Instr) (cause : Cause) (s : State) : (faulted i cause s).freeCount = s.freeCount := rfl
@[simp] theorem faulted_bus (i : Instr) (cause : Cause) (s : State) : (faulted i cause s).bus = s.bus := rfl
@[simp] theorem faulted_toResults (i : Instr) (cause : Cause) (s : State) : (faulted i cause s).toResults = s.toResults := rfl

/-! ### A fault is recorded (60_exceptions.md R290) -/

@[simp] theorem recordFault_result (cause : Cause) (info : Word) (s : State) :
    (recordFault cause info s).result = s.result := by
  unfold recordFault; split <;> rfl
@[simp] theorem recordFault_mem (cause : Cause) (info : Word) (s : State) :
    (recordFault cause info s).mem = s.mem := by
  unfold recordFault; split <;> rfl
@[simp] theorem recordFault_paLen (cause : Cause) (info : Word) (s : State) :
    (recordFault cause info s).paLen = s.paLen := by
  unfold recordFault; split <;> rfl
@[simp] theorem recordFault_pbLen (cause : Cause) (info : Word) (s : State) :
    (recordFault cause info s).pbLen = s.pbLen := by
  unfold recordFault; split <;> rfl
@[simp] theorem recordFault_prLen (cause : Cause) (info : Word) (s : State) :
    (recordFault cause info s).prLen = s.prLen := by
  unfold recordFault; split <;> rfl
@[simp] theorem recordFault_bbLen (cause : Cause) (info : Word) (s : State) :
    (recordFault cause info s).bbLen = s.bbLen := by
  unfold recordFault; split <;> rfl
@[simp] theorem recordFault_penalty (cause : Cause) (info : Word) (s : State) :
    (recordFault cause info s).penalty = s.penalty := by
  unfold recordFault; split <;> rfl
@[simp] theorem recordFault_bestPenalty (cause : Cause) (info : Word) (s : State) :
    (recordFault cause info s).bestPenalty = s.bestPenalty := by
  unfold recordFault; split <;> rfl
@[simp] theorem recordFault_bestMask (cause : Cause) (info : Word) (s : State) :
    (recordFault cause info s).bestMask = s.bestMask := by
  unfold recordFault; split <;> rfl
@[simp] theorem recordFault_bestValid (cause : Cause) (info : Word) (s : State) :
    (recordFault cause info s).bestValid = s.bestValid := by
  unfold recordFault; split <;> rfl
@[simp] theorem recordFault_arg0 (cause : Cause) (info : Word) (s : State) :
    (recordFault cause info s).arg0 = s.arg0 := by
  unfold recordFault; split <;> rfl
@[simp] theorem recordFault_arg1 (cause : Cause) (info : Word) (s : State) :
    (recordFault cause info s).arg1 = s.arg1 := by
  unfold recordFault; split <;> rfl
@[simp] theorem recordFault_arg2 (cause : Cause) (info : Word) (s : State) :
    (recordFault cause info s).arg2 = s.arg2 := by
  unfold recordFault; split <;> rfl
@[simp] theorem recordFault_matN (cause : Cause) (info : Word) (s : State) :
    (recordFault cause info s).matN = s.matN := by
  unfold recordFault; split <;> rfl
@[simp] theorem recordFault_busy (cause : Cause) (info : Word) (s : State) :
    (recordFault cause info s).busy = s.busy := by
  unfold recordFault; split <;> rfl
@[simp] theorem recordFault_done (cause : Cause) (info : Word) (s : State) :
    (recordFault cause info s).done = s.done := by
  unfold recordFault; split <;> rfl
@[simp] theorem recordFault_inflight (cause : Cause) (info : Word) (s : State) :
    (recordFault cause info s).inflight = s.inflight := by
  unfold recordFault; split <;> rfl
@[simp] theorem recordFault_inReset (cause : Cause) (info : Word) (s : State) :
    (recordFault cause info s).inReset = s.inReset := by
  unfold recordFault; split <;> rfl
@[simp] theorem recordFault_readData (cause : Cause) (info : Word) (s : State) :
    (recordFault cause info s).readData = s.readData := by
  unfold recordFault; split <;> rfl
@[simp] theorem recordFault_freeCount (cause : Cause) (info : Word) (s : State) :
    (recordFault cause info s).freeCount = s.freeCount := by
  unfold recordFault; split <;> rfl
@[simp] theorem recordFault_bus (cause : Cause) (info : Word) (s : State) :
    (recordFault cause info s).bus = s.bus := by
  unfold recordFault; split <;> rfl
@[simp] theorem recordFault_toResults (cause : Cause) (info : Word) (s : State) :
    (recordFault cause info s).toResults = s.toResults := by
  unfold recordFault; split <;> rfl
@[simp] theorem recordFault_faultFlag (cause : Cause) (info : Word) (s : State) :
    (recordFault cause info s).faultFlag = true := by
  unfold recordFault; split <;> simp_all
@[simp] theorem recordFault_faultCause (cause : Cause) (info : Word) (s : State) :
    (recordFault cause info s).faultCause = if s.faultFlag then s.faultCause else cause := by
  unfold recordFault; split <;> rfl
@[simp] theorem recordFault_faultInfo (cause : Cause) (info : Word) (s : State) :
    (recordFault cause info s).faultInfo = if s.faultFlag then s.faultInfo else info := by
  unfold recordFault; split <;> rfl

/-- Recording a fault over a standing record changes nothing (60_exceptions.md R290). -/
theorem recordFault_standing (cause : Cause) (info : Word) (s : State) (h : s.faultFlag = true) :
    recordFault cause info s = s := by
  simp [recordFault, h]

end Sys2Proof.Laws
end

