-- ==== Sys2Proof/Laws/Ops.lean ====
section
/-! SUPPORT. What the shared operations of the commands and of the bus can do: one lemma each. -/

namespace Sys2Proof.Laws

open Sys2Proof.Machine Sys2Proof.Safety

/-! ### Operands -/

/-- Both outcomes of decoding an operand (30_encoding.md R105). -/
theorem operand_cases (k : OperandKind) (a : Word) :
    (kindLegal k a = true ∧ operand k a = .ok a) ∨
      (kindLegal k a = false ∧ operand k a = .error (.fault .operandRange)) := by
  unfold operand raise
  cases kindLegal k a <;> simp

theorem operandElem_cases (a : Word) :
    (a.toNat ≤ 255 ∧ operandElem a = .ok (a.setWidth 8)) ∨
      (255 < a.toNat ∧ operandElem a = .error (.fault .operandRange)) := by
  rcases operand_cases .elem a with ⟨h, e⟩ | ⟨h, e⟩ <;> simp_all [operandElem, kindLegal]

theorem operandCount_cases (lo hi : Nat) (a : Word) :
    (lo ≤ a.toNat ∧ a.toNat ≤ hi ∧ operandCount lo hi a = .ok a.toNat) ∨
      (¬(lo ≤ a.toNat ∧ a.toNat ≤ hi) ∧ operandCount lo hi a = .error (.fault .operandRange)) := by
  rcases operand_cases (.count lo hi) a with ⟨h, e⟩ | ⟨h, e⟩
  · have h' : lo ≤ a.toNat ∧ a.toNat ≤ hi := by simpa [kindLegal] using h
    exact .inl ⟨h'.1, h'.2, by simp [operandCount, e]⟩
  · have h' : ¬(lo ≤ a.toNat ∧ a.toNat ≤ hi) := by simpa [kindLegal] using h
    exact .inr ⟨h', by simp [operandCount, e]⟩

theorem operandBit_cases (a : Word) :
    (a.toNat ≤ 1 ∧ operandBit a = .ok (a == 1)) ∨ (1 < a.toNat ∧ operandBit a = .error (.fault .operandRange)) := by
  rcases operand_cases .bit a with ⟨h, e⟩ | ⟨h, e⟩ <;> simp_all [operandBit, kindLegal]

theorem operandSel_cases (a : Word) :
    (a.toNat ≤ 1 ∧ operandSel a = .ok (a == 1)) ∨ (1 < a.toNat ∧ operandSel a = .error (.fault .operandRange)) := by
  rcases operand_cases .sel a with ⟨h, e⟩ | ⟨h, e⟩ <;> simp_all [operandSel, kindLegal]

/-! ### Completion -/

@[simp] theorem finish_ok (w : Word) (r : Results) (s : State) : finish w (.ok r) s = completed s r := rfl

theorem finish_fault (i : Instr) (cause : Cause) (s : State) :
    finish (encode i) (.fault cause) s = faulted i cause s := by
  unfold finish recordFault faulted flagsFaulted
  cases s
  simp only
  split <;> simp_all

@[simp] theorem conclude_ok (i : Instr) (s : State) (r : Results) : conclude i s (.ok r) = .next (completed s r) := rfl

@[simp] theorem conclude_raise (i : Instr) (s : State) (cause : Cause) :
    conclude i s (.error (.fault cause)) = .next (faulted i cause s) := by
  simp [conclude, finish_fault]

@[simp] theorem conclude_unwritten (i : Instr) (s : State) (a : Nat) :
    conclude i s (.error (.unwritten a)) = .fault (.unwrittenCell a) := rfl

/-- Everything a command can do: complete, end in a fault of the unit, or stop the model at an unwritten cell. -/
theorem conclude_cases (i : Instr) (s : State) (x : Attempt Results) :
    (∃ r, x = .ok r ∧ conclude i s x = .next (completed s r)) ∨
      (∃ cause, x = .error (.fault cause) ∧ conclude i s x = .next (faulted i cause s)) ∨
        ∃ a, x = .error (.unwritten a) ∧ conclude i s x = .fault (.unwrittenCell a) := by
  match x with
  | .ok r => exact .inl ⟨r, rfl, rfl⟩
  | .error (.fault cause) => exact .inr (.inl ⟨cause, rfl, conclude_raise i s cause⟩)
  | .error (.unwritten a) => exact .inr (.inr ⟨a, rfl, rfl⟩)

/-- The inversion of `conclude` for a next state. -/
theorem conclude_next (i : Instr) (s t : State) (x : Attempt Results) (h : conclude i s x = .next t) :
    (∃ r, x = .ok r ∧ t = completed s r) ∨ ∃ cause, x = .error (.fault cause) ∧ t = faulted i cause s := by
  rcases conclude_cases i s x with ⟨r, hx, e⟩ | ⟨c, hx, e⟩ | ⟨a, hx, e⟩ <;> rw [e] at h <;> cases h
  · exact .inl ⟨r, hx, rfl⟩
  · exact .inr ⟨c, hx, rfl⟩

/-- Every command is concluded from some attempt. -/
theorem exec_conclude (i : Instr) (s : State) : ∃ x, exec i s = conclude i s x := by
  cases i <;>
    simp only [exec, execNop, execGfExp, execGfLog, execGfMul, execPNorm, execPMul, execPMod, execPGen, execRsRem,
      execBbClear, execBbPut, execBbPutBit, execBbPad, execBchFmt, execBchVer, execMaskEval, execMatFill, execPenalty,
      execSelReset, execSelScore] <;>
    exact ⟨_, rfl⟩

/-- What a command answers: complete with some results, or a fault of the unit, which changes none. -/
theorem exec_next (i : Instr) (s t : State) (h : exec i s = .next t) :
    (∃ r, t = completed s r) ∨ ∃ cause, t = faulted i cause s := by
  obtain ⟨x, e⟩ := exec_conclude i s
  rw [e] at h
  rcases conclude_next i s t x h with ⟨r, -, ht⟩ | ⟨c, -, ht⟩
  · exact .inl ⟨r, ht⟩
  · exact .inr ⟨c, ht⟩

/-! ### Host accesses -/

/-- Everything a host read can do outside reset: a refusal, recorded and answered with 0, or a value (the checks of
60_exceptions.md R296). -/
theorem hostRead_cases (a : Addr) (width : Nat) (s : State) :
    (hostRead a width s = refuseRead .address a s ∧ (accessFormed a width = false ∨ locate a.toNat = none)) ∨
      (∃ loc, accessFormed a width = true ∧ locate a.toNat = some loc ∧
        ((s.busy = true ∧ busyExempt loc = false ∧ hostRead a width s = refuseRead .busyAccess a s) ∨
          ((s.busy = false ∨ busyExempt loc = true) ∧
            hostRead a width s = { s with readData := readLoc loc a.toNat s }))) := by
  unfold hostRead
  cases hf : accessFormed a width with
  | false => exact .inl ⟨by simp, .inl rfl⟩
  | true =>
    cases hl : locate a.toNat with
    | none => exact .inl ⟨by simp, .inr rfl⟩
    | some loc =>
      refine .inr ⟨loc, rfl, rfl, ?_⟩
      cases s.busy <;> cases he : busyExempt loc <;> simp [he]

/-- A host read changes only the fault record and the word it returns (20_memory.md R71). -/
theorem hostRead_frame (a : Addr) (width : Nat) (s : State) :
    ∃ c i f d, hostRead a width s = { s with faultCause := c, faultInfo := i, faultFlag := f, readData := d } := by
  have hr : ∀ cause, refuseRead cause a s = { s with
      faultCause := if s.faultFlag then s.faultCause else cause
      faultInfo := if s.faultFlag then s.faultInfo else addrWord a
      faultFlag := true
      readData := 0 } := by
    intro cause
    cases s
    unfold refuseRead recordFault
    simp only
    split <;> simp_all
  rcases hostRead_cases a width s with ⟨e, -⟩ | ⟨loc, -, -, ⟨-, -, e⟩ | ⟨-, e⟩⟩
  · exact ⟨_, _, _, _, e.trans (hr _)⟩
  · exact ⟨_, _, _, _, e.trans (hr _)⟩
  · exact ⟨s.faultCause, s.faultInfo, s.faultFlag, _, e⟩

/-- Everything a host write can do outside reset (the checks of 60_exceptions.md R296). -/
theorem hostWrite_cases (a : Addr) (width : Nat) (v : Word) (s : State) :
    (hostWrite a width v s = .next (refuseWrite .address a s) ∧
        (accessFormed a width = false ∨ locate a.toNat = none)) ∨
      (∃ loc, accessFormed a width = true ∧ locate a.toNat = some loc ∧
        ((s.busy = true ∧ hostWrite a width v s = .next (refuseWrite .busyAccess a s)) ∨
          (s.busy = false ∧ hostWritable loc = false ∧
            hostWrite a width v s = .next (refuseWrite .address a s)) ∨
          (s.busy = false ∧ hostWritable loc = true ∧
            ((∃ r, loc = .reg r ∧ hostWrite a width v s = writeReg r a v s) ∨
              ∃ bits w, loc = .cell bits w ∧ hostWrite a width v s = .next (writeWindow bits a v s))))) := by
  unfold hostWrite
  cases hf : accessFormed a width with
  | false => exact .inl ⟨by simp, .inl rfl⟩
  | true =>
    cases hl : locate a.toNat with
    | none => exact .inl ⟨by simp, .inr rfl⟩
    | some loc =>
      refine .inr ⟨loc, rfl, rfl, ?_⟩
      cases hb : s.busy with
      | true => simp
      | false =>
        cases hw : hostWritable loc with
        | false => simp [hw]
        | true => cases loc <;> simp [hw]

/-- Everything issuing a command word can do (40_control.md R130, R131). -/
theorem issue_cases (w : Word) (s : State) :
    (s.faultFlag = true ∧ issue w s = .next s) ∨
      (s.faultFlag = false ∧ (∃ e, decode w = .error e) ∧ issue w s = .next (launch w (.fault .illegalCommand) s)) ∨
      (s.faultFlag = false ∧ ∃ i, decode w = .ok i ∧
        ((∃ t, exec i s = .next t ∧ issue w s = .next (launch w (outcomeOf t) s)) ∨
          (∃ r, exec i s = .fault r ∧ issue w s = .fault r) ∨
          ∃ r, exec i s = .refused r ∧ issue w s = .refused r)) := by
  unfold issue accept
  cases hf : s.faultFlag with
  | true => simp
  | false =>
    cases hd : decode w with
    | error e => simp
    | ok i =>
      refine .inr (.inr ⟨rfl, i, rfl, ?_⟩)
      cases he : exec i s <;> simp [he]

/-- Both outcomes of a completion event (40_control.md R132). -/
theorem complete_cases (s : State) :
    (s.inflight = none ∧ complete s = s) ∨
      ∃ f, s.inflight = some f ∧ complete s = finish f.word f.outcome s := by
  unfold complete
  cases h : s.inflight <;> simp

/-- Everything a step can do. -/
theorem step_cases (s : State) :
    (s.bus = [] ∧ step s = .next (complete s)) ∨
      ∃ e rest, s.bus = e :: rest ∧ step s = busEvent e { s with bus := rest } := by
  unfold step idle
  cases h : s.bus <;> simp

/-- No command is refused for want of a meaning. -/
theorem exec_not_refused (i : Instr) (s : State) (r : Refusal) : exec i s ≠ .refused r := by
  obtain ⟨x, e⟩ := exec_conclude i s
  rw [e]
  rcases conclude_cases i s x with ⟨_, _, h⟩ | ⟨_, _, h⟩ | ⟨_, _, h⟩ <;> rw [h] <;> simp

end Sys2Proof.Laws
end

