-- ==== Sys2Proof/Laws/Lengths.lean ====
section
/-! SUPPORT. The field primitives, and how long the results of the polynomial and packer primitives are. -/

namespace Sys2Proof.Laws

open Sys2Proof.Machine Sys2Proof.Safety

/-! ### The field -/

theorem glog_cases (x : Byte) :
    (x = 0 ∧ glog x = .error (.fault .invalidFieldOp)) ∨ (x ≠ 0 ∧ glog x = .ok (logOf x)) := by
  unfold glog raise
  by_cases h : x = 0
  · exact .inl ⟨h, if_pos h⟩
  · exact .inr ⟨h, if_neg h⟩

@[simp] theorem gmul_zero_left (b : Byte) : gmul 0 b = 0 := by simp [gmul]

@[simp] theorem gmul_zero_right (a : Byte) : gmul a 0 = 0 := by simp [gmul]

/-! ### Polynomials -/

theorem strip_length (p : List Byte) : (strip p).length ≤ p.length := by
  induction p with
  | nil => simp [strip]
  | cons c p ih => unfold strip; split <;> simp; omega

theorem normPoly_length (p : List Byte) (n : Nat) : (normPoly p n).length ≤ p.length + n := by
  have := strip_length p
  simp [normPoly]; omega

/-- After stripping, the first coefficient is not 0 (42_poly_rs.md R170). -/
theorem strip_head (p : List Byte) (c : Byte) (q : List Byte) (h : strip p = c :: q) : c ≠ 0 := by
  induction p with
  | nil => cases h
  | cons x p ih =>
    unfold strip at h
    split at h
    · exact ih h
    · next hx => cases h; exact hx

theorem mulRow_length (c : Byte) (b r : List Byte) : (mulRow c b r).length = r.length := by
  induction b generalizing r with
  | nil => cases r <;> simp [mulRow]
  | cons x b ih => cases r <;> simp [mulRow, ih]

theorem mulRows_length (a b r : List Byte) : (mulRows a b r).length = r.length := by
  induction a generalizing r with
  | nil => simp [mulRows]
  | cons c a ih =>
    have h := mulRow_length c b r
    unfold mulRows
    cases hr : mulRow c b r with
    | nil => rw [hr] at h; simpa using h
    | cons x rest => rw [hr] at h; simp [ih, ← h]

/-- A product has no more coefficients than the operands allow (42_poly_rs.md R171). -/
theorem pmul_length (a b : List Byte) : (pmul a b).length ≤ (normPoly a 0).length + (normPoly b 0).length - 1 := by
  unfold pmul
  simp only
  split
  · simp
  · have := normPoly_length (mulRows (normPoly a 0) (normPoly b 0) (List.replicate ((normPoly a 0).length + (normPoly b 0).length - 1) 0)) 0
    rw [mulRows_length, List.length_replicate] at this
    simpa using this

/-- The generator of `n` EC codewords has at most `n + 1` coefficients (42_poly_rs.md R173). -/
theorem gen_length_le (n : Nat) : (gen n).length ≤ n + 1 := by
  induction n with
  | zero => simp [gen]
  | succ n ih =>
    have h₁ := pmul_length (gen n) [1, gexp n]
    have h₂ := normPoly_length (gen n) 0
    have h₃ := normPoly_length [1, gexp n] 0
    simp only [List.length_cons, List.length_nil] at h₃
    simp only [gen]
    omega

theorem divRow_length (ratio : Int) (b a r : List Byte) (h : divRow ratio b a = .ok r) : r.length ≤ a.length := by
  induction b generalizing a r with
  | nil => unfold divRow at h; cases h; exact Nat.le_refl _
  | cons x b ih =>
    cases a with
    | nil => unfold divRow at h; cases h; simp
    | cons y a =>
      unfold divRow at h
      cases hg : glog x with
      | error e => rw [hg] at h; cases h
      | ok k =>
        rw [hg] at h
        simp only at h
        cases hd : divRow ratio b a with
        | error e => rw [hd] at h; cases h
        | ok rest =>
          rw [hd] at h
          cases h
          simpa using ih a rest hd

/-- A remainder is no longer than the dividend (42_poly_rs.md R172). -/
theorem divLoop_length (fuel : Nat) (a b r : List Byte) (h : divLoop fuel a b = .ok r) : r.length ≤ a.length := by
  induction fuel generalizing a with
  | zero => unfold divLoop at h; cases h; exact Nat.le_refl _
  | succ fuel ih =>
    unfold divLoop at h
    split at h
    · cases h; exact Nat.le_refl _
    · split at h
      · cases h
      · split at h
        · cases h
        · split at h
          · cases h
          · next a' hd =>
            have h₁ := divRow_length _ b a a' hd
            have h₂ := normPoly_length a' 0
            have h₃ := ih _ h
            omega

theorem pmod_length (a b r : List Byte) (h : pmod a b = .ok r) : r.length ≤ a.length := by
  unfold pmod raise at h
  simp only at h
  split at h
  · cases h
  · have h₁ := divLoop_length _ _ _ _ h
    have h₂ := normPoly_length a 0
    omega

@[simp] theorem rightAlign_length (n : Nat) (r : List Byte) : (rightAlign n r).length = n := by
  simp [rightAlign]; omega

/-! ### The packer -/

theorem appendTarget_ok (r : Results) (v : Byte) (h : appendTarget r = .ok v) :
    (r.bbLen % 8 = 0 ∧ v = 0) ∨ (r.bbLen % 8 ≠ 0 ∧ r.mem.read (bbAddr (r.bbLen / 8)) = some v) := by
  unfold appendTarget at h
  split at h
  · next h₀ => cases h; exact .inl ⟨h₀, rfl⟩
  · next h₀ =>
    rcases readCell_cases r.mem (bbAddr (r.bbLen / 8)) with ⟨w, hw, e⟩ | ⟨-, e⟩ <;> rw [e] at h <;> cases h
    exact .inr ⟨h₀, hw⟩

/-- What one append does (43_bitbuf.md R200). -/
theorem appendBit_ok (b : Bool) (r t : Results) (h : appendBit b r = .ok t) :
    ∃ v, appendTarget r = .ok v ∧ t = { r with
      mem := r.mem.write (bbAddr (r.bbLen / 8)) (setBit v (7 - r.bbLen % 8) b)
      bbLen := r.bbLen + 1 } := by
  unfold appendBit at h
  cases hv : appendTarget r with
  | error e => rw [hv] at h; cases h
  | ok v => rw [hv] at h; cases h; exact ⟨v, rfl, rfl⟩

/-- Appending bits grows the stream by their number and writes BBUF and BB_LEN only (43_bitbuf.md R201, R207). -/
theorem appendBits_ok (v k : Nat) (r t : Results) (h : appendBits v k r = .ok t) :
    ∃ m, t = { r with mem := m, bbLen := r.bbLen + k } ∧
      (r.mem.wf → m.wf) ∧
      ∀ a, (∀ p, r.bbLen ≤ p → p < r.bbLen + k → a ≠ bbAddr (p / 8)) → m.read a = r.mem.read a := by
  induction k generalizing r with
  | zero =>
    obtain rfl : r = t := by simpa [appendBits] using h
    exact ⟨r.mem, rfl, id, fun _ _ => rfl⟩
  | succ k ih =>
    unfold appendBits at h
    cases hb : appendBit (v.testBit k) r with
    | error e => rw [hb] at h; cases h
    | ok r' =>
      rw [hb] at h
      obtain ⟨x, -, rfl⟩ := appendBit_ok _ _ _ hb
      obtain ⟨m, rfl, hw, hf⟩ := ih _ h
      refine ⟨m, ?_, fun h' => hw (write_wf _ _ _ h'), fun a ha => ?_⟩
      · simp only [Nat.add_assoc, Nat.add_comm 1 k]
      · rw [hf a fun p h₁ h₂ => ha p (by simp only at h₁; omega) (by simp only at h₂; omega)]
        exact read_write_other _ _ _ _ fun e => ha r.bbLen (Nat.le_refl _) (by omega) e.symm

/-- The pad bytes grow the stream by 8 bits each and write BBUF and BB_LEN only (43_bitbuf.md R202). -/
theorem padBytes_ok (t₀ n : Nat) (r t : Results) (h : padBytes t₀ n r = .ok t) :
    ∃ m, t = { r with mem := m, bbLen := r.bbLen + 8 * n } ∧
      (r.mem.wf → m.wf) ∧
      ∀ a, (∀ p, r.bbLen ≤ p → p < r.bbLen + 8 * n → a ≠ bbAddr (p / 8)) → m.read a = r.mem.read a := by
  induction n generalizing t₀ r with
  | zero =>
    obtain rfl : r = t := by simpa [padBytes] using h
    exact ⟨r.mem, rfl, id, fun _ _ => rfl⟩
  | succ n ih =>
    unfold padBytes at h
    cases hb : appendBits (padByte t₀) 8 r with
    | error e => rw [hb] at h; cases h
    | ok r' =>
      rw [hb] at h
      obtain ⟨m₁, rfl, hw₁, hf₁⟩ := appendBits_ok _ _ _ _ hb
      obtain ⟨m, rfl, hw, hf⟩ := ih _ _ h
      refine ⟨m, ?_, fun h' => hw (hw₁ h'), fun a ha => ?_⟩
      · simp only [Nat.mul_succ, Nat.add_assoc, Nat.add_comm 8]
      · rw [hf a fun p h₁ h₂ => ha p (by simp only at h₁; omega) (by simp only at h₂; omega)]
        exact hf₁ a fun p h₁ h₂ => ha p h₁ (by omega)

/-- Padding fills the stream up to its capacity and writes BBUF and BB_LEN only (43_bitbuf.md R202, R206). -/
theorem padTo_ok (c : Nat) (r t : Results) (hc : r.bbLen ≤ 8 * c) (h : padTo c r = .ok t) :
    ∃ m, t = { r with mem := m, bbLen := 8 * c } ∧
      (r.mem.wf → m.wf) ∧
      ∀ a, (∀ p, r.bbLen ≤ p → p < 8 * c → a ≠ bbAddr (p / 8)) → m.read a = r.mem.read a := by
  unfold padTo at h
  cases h₁ : terminator c r with
  | error e => rw [h₁] at h; cases h
  | ok r₁ =>
    rw [h₁] at h
    obtain ⟨k, hk, m₁, rfl, hw₁, hf₁⟩ : ∃ k, r.bbLen + k ≤ 8 * c ∧ ∃ m, r₁ = { r with mem := m, bbLen := r.bbLen + k } ∧
        (r.mem.wf → m.wf) ∧
        ∀ a, (∀ p, r.bbLen ≤ p → p < r.bbLen + k → a ≠ bbAddr (p / 8)) → m.read a = r.mem.read a := by
      unfold terminator at h₁
      split at h₁
      · exact ⟨4, ‹_›, appendBits_ok _ _ _ _ h₁⟩
      · cases h₁; exact ⟨0, hc, r.mem, rfl, id, fun _ _ => rfl⟩
    simp only at h
    cases h₂ : alignByte { r with mem := m₁, bbLen := r.bbLen + k } with
    | error e => rw [h₂] at h; cases h
    | ok r₂ =>
      rw [h₂] at h
      obtain ⟨m₂, rfl, hw₂, hf₂⟩ := appendBits_ok _ _ _ _ h₂
      obtain ⟨m, rfl, hw, hf⟩ := padBytes_ok _ _ _ _ h
      simp only at hf hf₂ hw hw₂ ⊢
      have hlen : r.bbLen + k + (8 - (r.bbLen + k) % 8) % 8
          + 8 * (c - (r.bbLen + k + (8 - (r.bbLen + k) % 8) % 8) / 8) = 8 * c := by omega
      refine ⟨m, by rw [hlen], fun h' => hw (hw₂ (hw₁ h')), fun a ha => ?_⟩
      rw [hf a fun p _ _ => ha p (by omega) (by omega), hf₂ a fun p _ _ => ha p (by omega) (by omega)]
      exact hf₁ a fun p _ _ => ha p (by omega) (by omega)

end Sys2Proof.Laws
end

