-- ==== Sys2Proof/Laws/PerInstr.lean ====
section
/-! SUPPORT. Statements made per command: `WellFormed`, that a command and its command word pass the static checks. -/

namespace Sys2Proof.Laws.WellFormed

/-- The operand kinds of the command are well formed, its word is no reserved word, and the word's reserved field is 0
(30_encoding.md R102, R103, R105). -/
def Statement (i : Instr) : Prop :=
  i.wellFormed = true ∧ (rawCommand (encode i)).wellFormed = true

theorem nop : Statement .nop := by unfold Statement; decide

theorem gfExp : Statement .gfExp := by unfold Statement; decide

theorem gfLog : Statement .gfLog := by unfold Statement; decide

theorem gfMul : Statement .gfMul := by unfold Statement; decide

theorem pNorm : Statement .pNorm := by unfold Statement; decide

theorem pMul : Statement .pMul := by unfold Statement; decide

theorem pMod : Statement .pMod := by unfold Statement; decide

theorem pGen : Statement .pGen := by unfold Statement; decide

theorem rsRem : Statement .rsRem := by unfold Statement; decide

theorem bbClear : Statement .bbClear := by unfold Statement; decide

theorem bbPut : Statement .bbPut := by unfold Statement; decide

theorem bbPutBit : Statement .bbPutBit := by unfold Statement; decide

theorem bbPad : Statement .bbPad := by unfold Statement; decide

theorem bchFmt : Statement .bchFmt := by unfold Statement; decide

theorem bchVer : Statement .bchVer := by unfold Statement; decide

theorem maskEval : Statement .maskEval := by unfold Statement; decide

theorem matFill : Statement .matFill := by unfold Statement; decide

theorem penalty : Statement .penalty := by unfold Statement; decide

theorem selReset : Statement .selReset := by unfold Statement; decide

theorem selScore : Statement .selScore := by unfold Statement; decide

end Sys2Proof.Laws.WellFormed

namespace Sys2Proof.Laws

/-- Every command is well formed: commands have no fields. -/
theorem instr_wellFormed (i : Instr) : i.wellFormed = true := by
  cases i <;> decide

end Sys2Proof.Laws
end

