-- ==== Sys2Proof/Laws/Sound.lean ====
section
/-! SUPPORT. Lemmas on the invariants of Safety.lean: which addresses are buffer cells, and that writes to cells keep
`cellsSound`. -/

namespace Sys2Proof.Laws

open Sys2Proof.Machine Sys2Proof.Safety

theorem isCellAddr_pa (i : Nat) (h : i < 256) : isCellAddr (paAddr i) = true := by
  have hl : locate (paAddr i) = some (.cell 8 true) := by
    unfold locate paAddr
    rw [if_neg (by omega), if_pos (by omega)]
  have hm : paAddr i % 4 = 0 := by unfold paAddr; omega
  simp [isCellAddr, hl, hm]

theorem isCellAddr_pb (i : Nat) (h : i < 256) : isCellAddr (pbAddr i) = true := by
  have hl : locate (pbAddr i) = some (.cell 8 true) := by
    unfold locate pbAddr
    rw [if_neg (by omega), if_neg (by omega), if_pos (by omega)]
  have hm : pbAddr i % 4 = 0 := by unfold pbAddr; omega
  simp [isCellAddr, hl, hm]

theorem isCellAddr_pr (i : Nat) (h : i < 256) : isCellAddr (prAddr i) = true := by
  have hl : locate (prAddr i) = some (.cell 8 false) := by
    unfold locate prAddr
    rw [if_neg (by omega), if_neg (by omega), if_neg (by omega), if_pos (by omega)]
  have hm : prAddr i % 4 = 0 := by unfold prAddr; omega
  simp [isCellAddr, hl, hm]

theorem isCellAddr_bb (j : Nat) (h : j < 4096) : isCellAddr (bbAddr j) = true := by
  have hl : locate (bbAddr j) = some (.cell 8 false) := by
    unfold locate bbAddr
    rw [if_neg (by omega), if_neg (by omega), if_neg (by omega), if_neg (by omega), if_pos (by omega)]
  have hm : bbAddr j % 4 = 0 := by unfold bbAddr; omega
  simp [isCellAddr, hl, hm]

theorem matRow_matAddr (r c : Nat) (h : c < 256) : matRow (matAddr r c) = r := by
  unfold matRow matAddr
  rw [Nat.shiftRight_eq_div_pow]
  omega

theorem matCol_matAddr (r c : Nat) (h : c < 256) : matCol (matAddr r c) = c := by
  unfold matCol matAddr
  have h2 := Nat.and_two_pow_sub_one_eq_mod ((0x10000 + 4 * (256 * r + c) - 0x10000) / 4) 8
  norm_num at h2 ⊢
  rw [h2]
  omega

theorem isCellAddr_mat (r c : Nat) (hr : r < 177) (hc : c < 177) : isCellAddr (matAddr r c) = true := by
  have h1 := matRow_matAddr r c (by omega)
  have h2 := matCol_matAddr r c (by omega)
  have hl : locate (matAddr r c) = some (.cell 1 true) := by
    unfold locate
    rw [h1, h2]
    unfold matAddr
    rw [if_neg (by omega), if_neg (by omega), if_neg (by omega), if_neg (by omega), if_neg (by omega),
      if_pos (by omega), if_pos ⟨hr, hc⟩]
  have hm : matAddr r c % 4 = 0 := by unfold matAddr; omega
  simp [isCellAddr, hl, hm]

/-- Every entry of a memory after a write is the one written or was there before. -/
theorem mem_write_entry (m : Memory) (a : Nat) (v : Byte) (c : Host.Cell) (h : c ∈ m.write a v) :
    c = (a, v) ∨ c ∈ m := by
  induction m with
  | nil => simpa [Memory.write] using h
  | cons e rest ih =>
    obtain ⟨k, x⟩ := e
    simp only [Memory.write] at h
    split at h
    · simpa using h
    · split at h
      · rcases List.mem_cons.1 h with h | h
        · exact .inl h
        · exact .inr (List.mem_cons_of_mem _ h)
      · rcases List.mem_cons.1 h with h | h
        · exact .inr (h ▸ List.mem_cons_self)
        · rcases ih h with h | h
          · exact .inl h
          · exact .inr (List.mem_cons_of_mem _ h)

/-- A write to a buffer cell, of a value its cell can hold, keeps `cellsSound`. -/
theorem cellsSound_write (m : Memory) (a : Nat) (v : Byte) (h : cellsSound m = true) (ha : isCellAddr a = true)
    (hv : a < 0x10000 ∨ v.toNat ≤ 1) : cellsSound (m.write a v) = true := by
  unfold cellsSound at *
  rw [List.all_eq_true] at *
  intro c hc
  rcases mem_write_entry m a v c hc with rfl | hc
  · rcases hv with hv | hv <;> simp [ha, hv]
  · exact h c hc

/-- Writing a list of cells, each a buffer cell below MAT, keeps `cellsSound`. -/
theorem cellsSound_writeCells (m : Memory) (a : Nat) (p : List Byte) (h : cellsSound m = true)
    (ha : ∀ i < p.length, isCellAddr (a + 4 * i) = true ∧ a + 4 * i < 0x10000) :
    cellsSound (writeCells m a p) = true := by
  induction p generalizing m a with
  | nil => exact h
  | cons v vs ih =>
    have h0 := ha 0 (by simp)
    refine ih _ _ (cellsSound_write m a v h (by simpa using h0.1) (.inl (by simpa using h0.2))) ?_
    intro i hi
    have := ha (i + 1) (by simpa using hi)
    rwa [show a + 4 * (i + 1) = a + 4 + 4 * i by omega] at this

end Sys2Proof.Laws
end

