-- ==== Sys2Proof/Tests/Slice0.lean ====
section
/-! SUPPORT. Tests of the model, each against a value written in spec/ (95_test_vectors.md where no other file is
named), and a witness for the hypotheses of each statement. -/

namespace Sys2Proof.Tests

open Sys2Proof.Machine Sys2Proof.Safety Sys2Proof.Laws

/-! ### Small states and views -/

/-- The reset state with events to come. -/
def quiet (es : List BusEvent) : State := { State.reset with bus := es }

/-- The reset state with ARG values. -/
def args (a₀ a₁ a₂ : Word) : State := { State.reset with arg0 := a₀, arg1 := a₁, arg2 := a₂ }

/-- PA and PB loaded. -/
def polys (p q : List Byte) (a₀ a₁ : Word) : State :=
  { args a₀ a₁ 0 with
    mem := writeCells (writeCells [] 0x1000 p) 0x1400 q, paLen := p.length, pbLen := q.length }

/-- The stream holds the first `len` bits of the bytes `p`. -/
def stream (p : List Byte) (len : Nat) (a₀ a₁ : Word) : State :=
  { args a₀ a₁ 0 with mem := writeCells [] 0x4000 p, bbLen := len }

/-- The square of side `n` with the rows of `m`, and ARG0. -/
def square (n : Nat) (m : List (List Byte)) (a₀ : Word) : State :=
  { args a₀ 0 0 with
    mem := (m.mapIdx (fun r row => (r, row))).foldl (fun acc e => writeCells acc (matAddr e.1 0) e.2) [], matN := n }

/-- A unit with a NOP in flight. -/
def busyUnit (es : List BusEvent) : State :=
  { quiet es with busy := true, inflight := some ⟨0, .ok State.reset.toResults⟩ }

/-- A unit with a fault recorded. -/
def faultedUnit (es : List BusEvent) : State :=
  { quiet es with faultFlag := true, faultCause := .capacity, faultInfo := 0x21 }

/-- A view of the next state. -/
def view {α : Type} (f : State → α) : Host.Outcome State Fault Refusal → Option α
  | .next t => some (f t)
  | _ => none

/-- DONE, FAULT, the cause code. -/
def flagsOf (t : State) : Bool × Bool × Nat := (t.done, t.faultFlag, causeCode t.faultCause)

/-- RESULT of a command that completed without fault. -/
def resultOf (o : Host.Outcome State Fault Refusal) : Option (Bool × Word) := view (fun t => (t.done, t.result)) o

/-- `n` cells of a window. -/
def cells (a n : Nat) (t : State) : List (Option Byte) := (List.range n).map (fun i => t.mem.read (a + 4 * i))

/-! ### Static checks: an ill-formed term for each -/

theorem smoke_reserved_field : (RawCommand.mk 0x00 1).wellFormed = false := by decide
theorem smoke_reserved_opcode : (RawCommand.mk 0x15 0).wellFormed = false := by decide
theorem smoke_well_formed_word : (RawCommand.mk 0x44 0).wellFormed = true := by decide
theorem smoke_empty_range : (OperandKind.count 5 4).wellFormed = false := by decide
theorem smoke_range_past_word : (OperandKind.count 0 (2 ^ 32)).wellFormed = false := by decide
theorem smoke_too_many_kinds : kindsWellFormed [.bit, .bit, .bit, .bit] = false := by decide
theorem smoke_ill_formed_kind : kindsWellFormed [.bit, .count 1 0] = false := by decide

/-! ### Decoding: every command from its word (30_encoding.md R102) -/

theorem test_decode_control : (decode 0x00000000).toOption = some .nop := by decide
theorem test_decode_field :
    (decode 0x00000001).toOption = some .gfExp ∧ (decode 0x00000002).toOption = some .gfLog ∧
      (decode 0x00000003).toOption = some .gfMul := by decide
theorem test_decode_polynomial :
    (decode 0x00000010).toOption = some .pNorm ∧ (decode 0x00000011).toOption = some .pMul ∧
      (decode 0x00000012).toOption = some .pMod ∧ (decode 0x00000013).toOption = some .pGen ∧
      (decode 0x00000014).toOption = some .rsRem := by decide
theorem test_decode_bits :
    (decode 0x00000020).toOption = some .bbClear ∧ (decode 0x00000021).toOption = some .bbPut ∧
      (decode 0x00000022).toOption = some .bbPutBit ∧ (decode 0x00000023).toOption = some .bbPad := by decide
theorem test_decode_bch :
    (decode 0x00000030).toOption = some .bchFmt ∧ (decode 0x00000031).toOption = some .bchVer := by decide
theorem test_decode_mask :
    (decode 0x00000040).toOption = some .maskEval ∧ (decode 0x00000041).toOption = some .matFill ∧
      (decode 0x00000042).toOption = some .penalty ∧ (decode 0x00000043).toOption = some .selReset ∧
      (decode 0x00000044).toOption = some .selScore := by decide
theorem test_decode_reserved :
    (decode 0x00000004).toOption = none ∧ (decode 0x00000100).toOption = none ∧
      (decode 0x00000045).toOption = none ∧ (decode 0x000000FF).toOption = none := by decide
theorem test_decode_table_word : decodeTableWord 32 0x14 = some .rsRem ∧ decodeTableWord 8 0x114 = some .rsRem := by
  decide
theorem test_fetch_word_runs :
    view (fun t => (t.busy, t.inflight.map Flight.word)) (step (State.reset.withFetchWord 32 0x43)) =
      some (true, some 0x43) := by decide

/-! ### Commands -/

theorem test_nop : view flagsOf (exec .nop State.reset) = some (true, false, 0) := by decide
theorem test_gf_exp_negative : resultOf (exec .gfExp (args 0xFFFFFFFF 0 0)) = some (true, 0x8E) := by decide +kernel
theorem test_gf_exp_most_negative : resultOf (exec .gfExp (args 0x80000000 0 0)) = some (true, 0xCC) := by decide +kernel
theorem test_gf_log : resultOf (exec .gfLog (args 0x1D 0 0)) = some (true, 8) := by decide +kernel
theorem test_gf_log_zero : view flagsOf (exec .gfLog (args 0 0 0)) = some (false, true, 1) := by decide
theorem test_gf_mul : resultOf (exec .gfMul (args 0x53 0xCA 0)) = some (true, 0x8F) := by decide +kernel
theorem test_gf_mul_range : view flagsOf (exec .gfMul (args 1 0x100 0)) = some (false, true, 4) := by decide
theorem test_p_norm :
    view (fun t => (t.paLen, cells 0x1000 4 t)) (exec .pNorm (polys [0, 0, 7, 9] [] 0 2)) =
      some (4, [some 7, some 9, some 0, some 0]) := by decide
theorem test_p_norm_capacity : view flagsOf (exec .pNorm (polys [5] [] 0 256)) = some (false, true, 5) := by decide +kernel
theorem test_p_mul :
    view (fun t => (t.prLen, cells 0x1800 4 t)) (exec .pMul (polys [1, 2] [1, 3] 0 0)) =
      some (3, [some 1, some 1, some 6, none]) := by decide +kernel
theorem test_p_mod :
    view (fun t => (t.prLen, cells 0x1800 2 t)) (exec .pMod (polys [1, 2, 3, 4, 5] [1, 2] 0 0)) =
      some (1, [some 1, none]) := by decide +kernel
theorem test_p_mod_inner_zero : view flagsOf (exec .pMod (polys [1, 2, 3] [1, 0, 1] 0 0)) = some (false, true, 1) := by
  decide
theorem test_p_gen :
    view (fun t => (t.pbLen, cells 0x1400 4 t)) (exec .pGen (args 3 0 0)) =
      some (4, [some 1, some 7, some 14, some 8]) := by decide +kernel
theorem test_rs_rem :
    view (fun t => (t.prLen, cells 0x1800 4 t)) (exec .rsRem (polys [1, 2, 3, 4] [] 4 0)) =
      some (4, [some 117, some 163, some 178, some 96]) := by decide +kernel
theorem test_rs_rem_zero_data :
    view (fun t => (t.prLen, cells 0x1800 3 t)) (exec .rsRem (polys [0, 0] [] 3 0)) =
      some (3, [some 0, some 0, some 0]) := by decide
theorem test_bb_clear : view (fun t => (t.bbLen, cells 0x4000 1 t)) (exec .bbClear (stream [0x40] 8 0 0)) =
    some (0, [some 0x40]) := by decide
theorem test_bb_put :
    view (fun t => (t.bbLen, cells 0x4000 2 t)) (exec .bbPut (stream [0x40] 4 5 8)) =
      some (12, [some 0x40, some 0x50]) := by decide
theorem test_bb_put_ignores_high_bits :
    view (fun t => (t.bbLen, cells 0x4000 2 t)) (exec .bbPut (stream [] 0 0x1FF 8)) =
      some (8, [some 0xFF, none]) := by decide
theorem test_bb_put_bit :
    view (fun t => (t.bbLen, cells 0x4000 1 t)) (exec .bbPutBit (stream [0x80] 2 1 0)) = some (3, [some 0xA0]) := by
  decide
theorem test_bb_pad :
    view (fun t => (t.bbLen, cells 0x4000 3 t)) (exec .bbPad (stream [0x80] 1 3 0)) =
      some (24, [some 0x80, some 0xEC, some 0x11]) := by decide
theorem test_bb_pad_no_terminator :
    view (fun t => (t.bbLen, cells 0x4000 2 t)) (exec .bbPad (stream [0xFC] 6 1 0)) =
      some (8, [some 0xFC, none]) := by decide
theorem test_bch_fmt : resultOf (exec .bchFmt (args 8 0 0)) = some (true, 0x77C4) := by decide
theorem test_bch_ver : resultOf (exec .bchVer (args 63 0 0)) = some (true, 0x3FB85) := by decide
theorem test_mask_eval : resultOf (exec .maskEval (args 4 2 3)) = some (true, 1) := by decide
theorem test_mask_eval_range : view flagsOf (exec .maskEval (args 9 300 0)) = some (false, true, 4) := by decide
/-- 45_mask_penalty.md R248: the last module of MAT, whatever MAT_N is. -/
theorem test_mat_fill : view (fun t => t.mem.read 0x3C2C0) (exec .matFill (args 1 0 0)) = some (some 1) := by
  have hv (s : State) (r : Results) (a : Nat) :
      view (fun t => t.mem.read a) (conclude .matFill s (.ok r)) = some (r.mem.read a) := rfl
  have ha : 0x3C2C0 = matAddr 176 176 := by decide
  simp only [exec, execMatFill, show operandBit (args 1 0 0).arg0 = .ok true by decide]
  refine (hv _ _ _).trans (congrArg some ?_)
  simp only [if_true, read_fillCells]
  rw [if_pos ((mem_matAddrs _).2 ⟨176, 176, by decide, by decide, ha⟩)]

theorem test_penalty_dark_square :
    view (fun t => (t.penalty, t.result)) (exec .penalty (square 2 [[1, 1], [1, 1]] 0)) = some (103, 103) := by decide
theorem test_penalty_three :
    view (fun t => t.penalty) (exec .penalty (square 3 [[1, 0, 0], [0, 0, 0], [0, 0, 0]] 0)) = some 79 := by decide
theorem test_sel_reset :
    view (fun t => (t.bestValid, t.bestPenalty, t.bestMask))
      (exec .selReset { State.reset with bestValid := true, bestPenalty := 9, bestMask := 5 }) =
      some (false, 0, 0) := by decide
theorem test_sel_score_tie :
    view (fun t => (t.bestValid, t.bestPenalty, t.bestMask))
      (exec .selScore { square 1 [[0]] 3 with bestValid := true, bestPenalty := 100, bestMask := 7 }) =
      some (true, 100, 3) := by decide
theorem test_sel_score_worse :
    view (fun t => (t.penalty, t.bestPenalty, t.bestMask))
      (exec .selScore { square 1 [[0]] 3 with bestValid := true, bestPenalty := 50, bestMask := 7 }) =
      some (100, 50, 7) := by decide

/-! ### Accesses, faults and the BUSY hazard -/

/-- The record, and the word read. -/
def recordOf (t : State) : Bool × Nat × Word × Word := (t.faultFlag, causeCode t.faultCause, t.faultInfo, t.readData)

theorem test_misaligned_read : view recordOf (step (quiet [.read 0x002 4])) = some (true, 7, 0x002, 0) := by decide
theorem test_unmapped_read : view recordOf (step (quiet [.read 0x044 4])) = some (true, 7, 0x044, 0) := by decide
theorem test_mat_column_177 : view recordOf (step (quiet [.read 0x102C4 4])) = some (true, 7, 0x102C4, 0) := by decide
theorem test_write_result : view recordOf (step (quiet [.write 0x020 4 1])) = some (true, 7, 0x020, 0) := by decide
theorem test_write_pr : view recordOf (step (quiet [.write 0x1800 4 1])) = some (true, 7, 0x1800, 0) := by decide
theorem test_pa_len_257 : view (fun t => (recordOf t, t.paLen)) (step (quiet [.write 0x024 4 257])) =
    some ((true, 8, 0x024, 0), 0) := by decide
/-- 10_state.md R21: the bits above the field are ignored. -/
theorem test_pa_len_reserved_bits : view (fun t => (t.faultFlag, t.paLen)) (step (quiet [.write 0x024 4 0x205])) =
    some (false, 5) := by decide
theorem test_mat_n_reserved_bits : view (fun t => (t.faultFlag, t.matN)) (step (quiet [.write 0x034 4 0x103])) =
    some (false, 3) := by decide
theorem test_mat_n_177 : view (fun t => (t.faultFlag, t.matN)) (step (quiet [.write 0x034 4 177])) =
    some (false, 177) := by decide
theorem test_write_pa : view (fun t => (t.faultFlag, t.mem.read 0x1000)) (step (quiet [.write 0x1000 4 0x1FF])) =
    some (false, some 0xFF) := by decide
theorem test_write_module : view (fun t => (t.faultFlag, t.mem.read 0x10000)) (step (quiet [.write 0x10000 4 2])) =
    some (false, some 0) := by decide
theorem test_read_id : view recordOf (step (quiet [.read 0x000 4])) = some (false, 0, 0, 0x51524731) := by decide
theorem test_clear_fault : view recordOf (step (faultedUnit [.write 0x008 4 4])) = some (false, 0, 0, 0) := by decide
theorem test_no_clear : view recordOf (step (faultedUnit [.write 0x008 4 3])) = some (true, 5, 0x21, 0) := by decide
theorem test_first_fault_kept : view recordOf (step (faultedUnit [.read 0x044 4])) = some (true, 5, 0x21, 0) := by
  decide
theorem test_discarded_command :
    view (fun t => (t.busy, t.inflight.isSome)) (step (faultedUnit [cmdWrite 1])) = some (false, false) := by decide
theorem test_busy_status : view recordOf (step (busyUnit [.read 0x008 4])) = some (false, 0, 0, 1) := by decide
theorem test_busy_arg0 : view (fun t => (recordOf t, t.arg0)) (step (busyUnit [.write 0x014 4 7])) =
    some ((true, 6, 0x014, 0), 0) := by decide
theorem test_busy_misaligned : view recordOf (step (busyUnit [.read 0x003 4])) = some (true, 7, 0x003, 0) := by decide
theorem test_busy_before_value : view recordOf (step (busyUnit [.write 0x024 4 300])) = some (true, 6, 0x024, 0) := by
  decide
theorem test_completion : view (fun t => (t.busy, flagsOf t)) (step (busyUnit [.complete])) =
    some (false, (true, false, 0)) := by decide
theorem test_reserved_word_completes : view recordOf (run 2 (quiet [cmdWrite 0x45, .complete])) =
    some (true, 3, 0x45, 0) := by decide
theorem test_reset_discards : view (fun t => (t.busy, t.inflight, t.matN)) (run 2 (busyUnit [.assertReset, .releaseReset])) =
    some (false, none, 21) := by decide
/-- Program P1, its first half (95_test_vectors.md P1, lines 1 to 12). -/
theorem test_program_p1 :
    programAccesses [.pseudo (.op .gfExp [8]), .base (.rdReg .result), .pseudo (.op .gfMul [0x53, 0xCA]),
        .base (.rdReg .result), .pseudo (.op .gfLog [0])] =
      [.write 0x014 4 8, .write 0x004 4 1, .read 0x008 4, .read 0x020 4, .write 0x014 4 0x53, .write 0x018 4 0xCA,
        .write 0x004 4 3, .read 0x008 4, .read 0x020 4, .write 0x014 4 0, .write 0x004 4 2, .read 0x008 4] := by
  decide
/-- Program P1, its second half (95_test_vectors.md P1, lines 13 to 23). -/
theorem test_program_p1_faulted :
    programAccesses [.base (.rdReg .faultCause), .base (.rdReg .faultInfo), .base (.rdReg .result), .base (.cmd .nop),
        .base (.rdReg .status), .pseudo .clrf, .base (.rdReg .status), .pseudo (.op .gfExp [0xFFFFFFFF]),
        .base (.rdReg .result)] =
      [.read 0x00C 4, .read 0x010 4, .read 0x020 4, .write 0x004 4 0, .read 0x008 4, .write 0x008 4 4, .read 0x008 4,
        .write 0x014 4 0xFFFFFFFF, .write 0x004 4 1, .read 0x008 4, .read 0x020 4] := by decide
/-- 30_encoding.md R108: `ldp`, the empty one too. -/
theorem test_ldp : programAccesses [.pseudo (.ldpPa [7, 9]), .pseudo (.ldpPb [])] =
    [.write 0x1000 4 7, .write 0x1004 4 9, .write 0x024 4 2, .write 0x028 4 0] := by decide
/-- Both interleavings of 95_test_vectors.md P5, with NOP for P_GEN: the completion after or before `wr ARG0, 3`. -/
theorem test_interleavings :
    let p := statements [.base (.cmd .nop), .base (.wrReg .arg0 3), .base .poll]
    follows p State.reset [cmdWrite 0, .write 0x014 4 3, .complete, .read 0x008 4] = true ∧
      follows p State.reset [cmdWrite 0, .complete, .write 0x014 4 3, .read 0x008 4] = true := by decide
/-- 30_encoding.md R107: a `poll` reads again while it sees BUSY = 1, and ends at the first read that sees BUSY = 0. -/
theorem test_poll_repeats :
    let p := statements [.pseudo (.op .nop [])]
    follows p State.reset [cmdWrite 0, .read 0x008 4, .complete, .read 0x008 4] = true ∧
      follows p State.reset [cmdWrite 0, .read 0x008 4] = false ∧
      follows p State.reset [cmdWrite 0, .complete, .read 0x008 4, .read 0x008 4] = false := by decide

/-! ### Witnesses: concrete states and operands that meet the hypotheses of each statement, clause by clause -/

/-- A state with a written byte view, a coefficient, a module and a command in flight. -/
def soundUnit (es : List BusEvent) : State :=
  { quiet es with
    mem := [(0x1000, 7), (0x4000, 0xF0), (0x10000, 1)]
    paLen := 1
    bbLen := 4
    busy := true
    inflight := some ⟨0x04, .fault .illegalCommand⟩ }

theorem soundUnit_results (es : List BusEvent) : ResultsSound (soundUnit es).toResults where
  canonical := show Memory.wf [(0x1000, 7), (0x4000, 0xF0), (0x10000, 1)] by decide
  cells := show cellsSound [(0x1000, 7), (0x4000, 0xF0), (0x10000, 1)] = true by decide
  paLen := by show 1 ≤ 256; decide
  pbLen := by show 0 ≤ 256; decide
  prLen := by show 0 ≤ 256; decide
  bbLen := by show 4 ≤ 32768; decide
  view := by
    refine ⟨show ∀ p < 4, (streamBit [(0x1000, 7), (0x4000, 0xF0), (0x10000, 1)] p).isSome by decide, ?_⟩
    intro p h1 h2
    have h3 : ∀ p < 8, 4 ≤ p → streamBit [(0x1000, 7), (0x4000, 0xF0), (0x10000, 1)] p = some false := by decide
    exact h3 p (Nat.lt_of_lt_of_le h2 (by show 8 * viewBytes 4 ≤ 8; decide)) h1
  best := fun _ => ⟨rfl, rfl⟩

theorem soundUnit_sound (es : List BusEvent) : Sound (soundUnit es) where
  results := soundUnit_results es
  matN := by show 1 ≤ 21 ∧ 21 ≤ 177; decide
  busy := rfl
  notDone := fun _ => rfl
  noRecord := fun _ => ⟨rfl, rfl⟩
  record := fun h => Bool.noConfusion h
  outcome := by
    intro f h
    obtain rfl : (⟨0x04, .fault .illegalCommand⟩ : Flight) = f := Option.some.inj h
    show 1 ≤ 3 ∧ 3 ≤ 5
    decide

theorem quiet_ready (es : List BusEvent) : Ready (quiet es) := ⟨rfl, rfl, rfl, rfl⟩

/-- A stream of `n` zero bytes. -/
def zeroStream (n : Nat) : State := stream (List.replicate n 0) (8 * n) 0 0

theorem zeroStream_results (n : Nat) (h : n ≤ 4096) : ResultsSound (zeroStream n).toResults where
  canonical := writeCells_wf [] _ _ List.Pairwise.nil
  cells := by
    refine cellsSound_writeCells [] _ _ rfl ?_
    intro i hi
    rw [List.length_replicate] at hi
    exact ⟨isCellAddr_bb i (by omega), by omega⟩
  paLen := Nat.zero_le _
  pbLen := Nat.zero_le _
  prLen := Nat.zero_le _
  bbLen := by show 8 * n ≤ 8 * 4096; omega
  view := by
    have hb : (zeroStream n).bbLen = 8 * n := rfl
    have hm : (zeroStream n).mem = writeCells [] 0x4000 (List.replicate n 0) := rfl
    rw [viewSound, hb, hm]
    refine ⟨fun p hp => ?_, fun p h1 h2 => ?_⟩
    · have h := writeCells_holds [] 0x4000 (List.replicate n (0 : Byte)) (p / 8)
        (by rw [List.length_replicate]; omega)
      rw [streamBit, bbAddr, h, List.getElem?_replicate_of_lt (by omega)]
      rfl
    · unfold viewBytes at h2; omega
  best := fun _ => ⟨rfl, rfl⟩

theorem witness_EveryStepKeepsTheStateSound :
    Sound (soundUnit [.complete]) ∧ (view (fun t => t.faultInfo) (step (soundUnit [.complete]))) = some 0x04 :=
  ⟨soundUnit_sound _, by decide⟩

theorem witness_DecodingAcceptsExactlyTheCommandWords : (decode 0x44).toOption = some .selScore ∧
    (0x44 : Word) = encode .selScore := by decide

theorem witness_ReservedWordsRaiseIllegalCommand :
    Ready (quiet [cmdWrite 0x100, .complete]) ∧ Ready (quiet [cmdWrite 0x45, .complete]) ∧
      (0x100 : Word) >>> 8 ≠ 0 ∧ ∀ i, opcode i ≠ (0x45 : Word).setWidth 8 :=
  ⟨quiet_ready _, quiet_ready _, by decide, by intro i; cases i <;> decide⟩

theorem witness_StepRunsTheDecodedCommand :
    Ready (quiet [cmdWrite 0x20]) ∧ (quiet [cmdWrite 0x20]).bus = [cmdWrite 0x20] ∧
      (decode 0x20).toOption = some .bbClear := ⟨quiet_ready _, rfl, by decide⟩

theorem witness_AcceptThenCompleteGivesWhatExecGives :
    Ready (quiet [cmdWrite (encode .bbClear), .complete]) ∧
      ∃ t, exec .bbClear (quiet [cmdWrite (encode .bbClear), .complete]) = .next t := ⟨quiet_ready _, _, rfl⟩

theorem witness_HostAccessesDoNotDisturbACommandInFlight :
    Ready (quiet (cmdWrite (encode .bbClear) :: ([.read 0x008 4, .write 0x014 4 5] ++ [.complete]))) ∧
      ([.read 0x008 4, .write 0x014 4 5] : List BusEvent).all isAccess = true ∧
      ∃ t, exec .bbClear (quiet (cmdWrite (encode .bbClear) :: ([.read 0x008 4, .write 0x014 4 5] ++ [.complete]))) =
        .next t := ⟨quiet_ready _, by decide, _, rfl⟩

/-- With no access, or only exempt ones, no fault stands at the end: the last clause is met. -/
theorem witness_HostAccessesDoNotDisturbACommandInFlight_quiet :
    view (fun u => u.faultFlag) (run 3 (quiet (cmdWrite (encode .bbClear) :: ([.read 0x008 4] ++ [.complete])))) =
      some false := by decide

theorem witness_NothingIsVisibleBeforeCompletion :
    (busyUnit [.write 0x014 4 7]).busy = true ∧ isAccess (.write 0x014 4 7) = true ∧
      (view (fun t => t.busy) (step (busyUnit [.write 0x014 4 7]))) = some true := by decide

theorem witness_EveryCommandInFlightCompletes :
    (busyUnit []).inflight = some ⟨0, .ok State.reset.toResults⟩ ∧ (busyUnit []).bus = [] ∧
      (soundUnit [.complete]).inflight = some ⟨0x04, .fault .illegalCommand⟩ ∧
      (soundUnit [.complete]).bus = [.complete] ∧ Sound (soundUnit [.read 0x008 4]) ∧
      (view (fun t => t.busy) (run 2 (soundUnit [.read 0x008 4]))) = some false :=
  ⟨rfl, rfl, rfl, rfl, soundUnit_sound _, by decide⟩

/-- Boundaries of the windows, one address inside and one outside of each. -/
theorem witness_TheAddressMapIsTheSpecs :
    locate 0x040 = some (.reg .bestMask) ∧ locate 0x044 = none ∧ locate 0x0FFC = none ∧
      locate 0x13FC = some (.cell 8 true) ∧ locate 0x17FC = some (.cell 8 true) ∧
      locate 0x1800 = some (.cell 8 false) ∧ locate 0x1BFC = some (.cell 8 false) ∧ locate 0x1C00 = none ∧
      locate 0x3FFC = none ∧ locate 0x4000 = some (.cell 8 false) ∧ locate 0x7FFC = some (.cell 8 false) ∧
      locate 0x8000 = none ∧ locate 0x10000 = some (.cell 1 true) ∧ locate 0x102C0 = some (.cell 1 true) ∧
      locate 0x102C4 = none ∧ locate 0x3C2C0 = some (.cell 1 true) ∧ locate 0x3C400 = none ∧
      locate 0xFFFFC = none := by decide

theorem witness_RegisterReadsReturnTheRegisters :
    (quiet [.read 0x034 4]).busy = false ∧ (quiet [.read 0x034 4]).inReset = false ∧
      (quiet [.read 0x034 4]).bus = [.read (BitVec.ofNat 20 (regOffset .matN)) 4] ∧ Sound (soundUnit []) :=
  ⟨by decide, by decide, by decide, soundUnit_sound _⟩

theorem witness_RegisterWritesStoreTheValue :
    (quiet [.write 0x024 4 256]).busy = false ∧ (quiet [.write 0x024 4 256]).inReset = false ∧
      (256 : Word).toNat % 512 ≤ 256 ∧ (0x205 : Word).toNat % 512 ≤ 256 ∧ 1 ≤ (1 : Word).toNat % 256 ∧
      (177 : Word).toNat % 256 ≤ 177 := by decide

theorem witness_WindowWriteThenReadReturnsTheLowBits :
    (quiet [.write 0x13FC 4 0x1FF, .read 0x13FC 4]).bus =
        [.write (BitVec.ofNat 20 0x13FC) 4 0x1FF, .read (BitVec.ofNat 20 0x13FC) 4] ∧
      inWindow paAddr 256 0x13FC ∧ inWindow pbAddr 256 0x17FC ∧ inMat 0x3C2C0 ∧
      (0xFF : Word) = 0x1FF &&& 0xFF ∧ (1 : Word) = 0x1FF &&& 1 :=
  ⟨by decide, ⟨255, by decide, rfl⟩, ⟨255, by decide, rfl⟩, ⟨176, 176, by decide, by decide, rfl⟩, by decide, by decide⟩

theorem witness_PermittedReadsHaveNoSideEffect :
    let s := { soundUnit [.read 0x4000 4, .read 0x4000 4] with busy := false, inflight := none }
    s.inReset = false ∧ s.busy = false ∧ locate 0x4000 = some (.cell 8 false) ∧ s.mem.read 0x4000 = some 0xF0 ∧
      locate 0x10000 = some (.cell 1 true) ∧ s.mem.read 0x10000 = some 1 ∧ locate 0x008 = some (.reg .status) ∧
      busyExempt (.reg .status) = true := by decide

/-- The width clauses, at cells that nothing has written. -/
theorem witness_PermittedReadsHaveNoSideEffect_unwritten :
    State.reset.inReset = false ∧ State.reset.busy = false ∧ State.reset.mem.read 0x1BFC = none ∧
      locate 0x1BFC = some (.cell 8 false) ∧ State.reset.mem.read 0x3C2C0 = none ∧
      locate 0x3C2C0 = some (.cell 1 true) := by decide

theorem witness_BusyHazardRefusesEveryOtherAccess :
    (busyUnit [.read 0x020 4]).busy = true ∧ (busyUnit [.read 0x020 4]).inReset = false ∧
      locate 0x020 = some (.reg .result) ∧ locate 0x010 = some (.reg .faultInfo) ∧ 0x010 = regOffset .faultInfo := by
  decide

theorem witness_BadAccessesAreAddressFaults :
    (quiet [.read 0x002 4]).inReset = false ∧ (2 : Nat) ≠ 4 ∧ (0x002 : Addr).toNat % 4 ≠ 0 ∧ locate 0x044 = none ∧
      (quiet [.write 0x020 4 0]).busy = false ∧ inWindow prAddr 256 0x1BFC ∧ inWindow bbAddr 4096 0x7FFC :=
  ⟨by decide, by decide, by decide, by decide, by decide, ⟨255, by decide, rfl⟩, ⟨4095, by decide, rfl⟩⟩

theorem witness_IllegalRegisterValuesAreRefused :
    (quiet [.write 0x024 4 257]).busy = false ∧ (quiet [.write 0x024 4 257]).inReset = false ∧
      256 < (257 : Word).toNat % 512 ∧ (0 : Word).toNat % 256 < 1 ∧ 177 < (178 : Word).toNat % 256 ∧
      inWindow paAddr 256 0x1000 ∧ inWindow pbAddr 256 0x1400 ∧ inMat 0x10000 :=
  ⟨by decide, by decide, by decide, by decide, by decide, ⟨0, by decide, rfl⟩, ⟨0, by decide, rfl⟩,
    ⟨0, 0, by decide, by decide, rfl⟩⟩

theorem witness_OnlyAStatusWriteOrResetClearsTheFault :
    (faultedUnit [.write 0x008 4 4]).busy = false ∧ (4 : Word).getLsbD 2 = true ∧ (3 : Word).getLsbD 2 = false ∧
      (busyUnit [.write 0x008 4 4]).busy = true ∧ (faultedUnit [.assertReset]).bus = [.assertReset] ∧
      (faultedUnit [.write 0x008 4 4]).faultFlag = true ∧
      (view (fun t => t.faultFlag) (step (faultedUnit [.write 0x008 4 4]))) = some false := by decide

theorem witness_AStandingFaultKeepsItsRecordAndBlocksCommands :
    (faultedUnit [cmdWrite 1]).inReset = false ∧ (faultedUnit [cmdWrite 1]).busy = false ∧
      (faultedUnit [cmdWrite 1]).faultFlag = true ∧ (faultedUnit [.read 0x044 4]).faultFlag = true ∧
      (view (fun t => t.faultFlag) (step (faultedUnit [.read 0x044 4]))) = some true := by decide

theorem witness_ResetDiscardsAndRestores :
    ([.write 0x004 4 0, .read 0x008 4] : List BusEvent).all isAccess = true ∧
      (busyUnit (.assertReset :: ([.write 0x004 4 0, .read 0x008 4] ++ [.releaseReset]))).bus =
        .assertReset :: ([.write 0x004 4 0, .read 0x008 4] ++ [.releaseReset]) := by decide

theorem witness_OperandsOutOfRangeRaiseOperandRange :
    argsLegal .bbPut (args 0 33 0) = false ∧ argsLegal .maskEval (args 0 0 256) = false ∧
      argsLegal .gfLog (args 0 0 0) = true ∧ (args 0 0 0).faultFlag = false ∧ (args 0 0 0).faultCause = .none ∧
      (view flagsOf (exec .gfLog (args 0 0 0))) = some (false, true, 1) := by decide

theorem witness_AFaultedCommandHasNoOtherEffect :
    (view (fun t => t.done) (exec .gfLog (args 0 0 0))) = some false := by decide

theorem witness_CommandsWriteOnlyTheirState :
    (polys [1, 2] [1, 3] 0 0).paLen ≤ 256 ∧ ∃ t, exec .bbClear (polys [1, 2] [1, 3] 0 0) = .next t ∧
      ¬mayWrite .bbClear 0x1000 := ⟨by decide, _, rfl, id⟩

theorem witness_UnwrittenCellsStopTheModel :
    let s : State := { args 0 0 0 with mem := [(0x1000, 1)], paLen := 2 }
    1 < s.paLen ∧ (∀ j < 1, (s.mem.read (paAddr j)).isSome) ∧ s.mem.read (paAddr 1) = none ∧
      argsLegal .rsRem s = true ∧ argsLegal .pNorm s = true ∧ s.arg0 = 0 := by decide

theorem witness_UnwrittenCellsStopTheModel_second :
    let s : State := { args 1 0 0 with mem := [(0x1000, 1)], paLen := 1, pbLen := 1 }
    0 < s.pbLen ∧ (∀ j < 0, (s.mem.read (pbAddr j)).isSome) ∧ s.mem.read (pbAddr 0) = none ∧
      (∀ j < s.paLen, (s.mem.read (paAddr j)).isSome) ∧ argsLegal .pNorm s = true ∧ s.arg0 = 1 := by decide

/-- P_NORM on PB, with PA not written. -/
theorem witness_UnwrittenCellsStopTheModel_pb :
    let s : State := { args 1 0 0 with paLen := 1, pbLen := 1 }
    0 < s.pbLen ∧ (∀ j < 0, (s.mem.read (pbAddr j)).isSome) ∧ s.mem.read (pbAddr 0) = none ∧
      argsLegal .pNorm s = true ∧ s.arg0 = 1 := by decide

theorem witness_UnwrittenCellsStopTheModel_square :
    ¬squareWritten State.reset.mem State.reset.matN ∧ argsLegal .selScore State.reset = true :=
  ⟨fun h => absurd (h 0 0 (by decide) (by decide)) (by decide), by decide⟩

theorem witness_FieldCommandsGiveTheirResults :
    (args 255 0 0).arg0 = zext32 255 ∧ (255 : Byte) ≠ 0 ∧ (args 0 0 0).arg0 = 0 ∧ (args 3 255 0).arg0 = zext32 3 ∧
      (args 3 255 0).arg1 = zext32 255 := by decide

theorem witness_ExpAndLogAreInverse : (1 : Byte) ≠ 0 := by decide
theorem witness_FieldProductLaws : (2 : Byte) ≠ 0 ∧ (255 : Byte) ≠ 0 := by decide

theorem polys_holdsPa (p : List Byte) (a₀ a₁ : Word) (h : p.length ≤ 256) (q : List Byte) :
    paHolds (polys p q a₀ a₁) p ∧ pbHolds (polys p q a₀ a₁) q := by
  refine ⟨⟨rfl, fun i hi => ?_⟩, rfl, writeCells_holds _ _ _⟩
  have hm : (polys p q a₀ a₁).mem = writeCells (writeCells [] 0x1000 p) 0x1400 q := rfl
  rw [hm, read_writeCells_other _ _ _ _ (fun j _ => by unfold paAddr; omega)]
  exact writeCells_holds [] 0x1000 p i hi

theorem witness_PNormNormalisesTheSelectedBuffer :
    (polys [5] [0, 5] 0 256).arg1.toNat ≤ 256 ∧ (polys [5] [0, 5] 0 256).arg0 = 0 ∧
      paHolds (polys [5] [0, 5] 0 256) [5] ∧ 256 < (normPoly [5] 256).length ∧ (normPoly [0, 5] 255).length ≤ 256 ∧
      (polys [5] [0, 5] 1 255).arg0 = 1 ∧ pbHolds (polys [5] [0, 5] 1 255) [0, 5] :=
  ⟨by decide, by decide, (polys_holdsPa [5] 0 256 (by decide) [0, 5]).1, by decide +kernel,
    by decide +kernel, by decide, (polys_holdsPa [5] 1 255 (by decide) [0, 5]).2⟩

theorem witness_PolynomialProductIsTheConvolution :
    strip [0, 0] = [] ∧ strip [0, 1, 2] ≠ [] ∧ strip [1, 3] ≠ [] := by decide

theorem witness_PMulWritesTheProduct :
    (paHolds (polys (List.replicate 200 1) (List.replicate 58 1) 0 0) (List.replicate 200 1) ∧
      pbHolds (polys (List.replicate 200 1) (List.replicate 58 1) 0 0) (List.replicate 58 1)) ∧
      strip (List.replicate 200 (1 : Byte)) ≠ [] ∧ strip (List.replicate 58 (1 : Byte)) ≠ [] ∧
      256 < (strip (List.replicate 200 (1 : Byte))).length + (strip (List.replicate 58 (1 : Byte))).length - 1 ∧
      (strip (List.replicate 200 (1 : Byte))).length + (strip (List.replicate 57 (1 : Byte))).length - 1 ≤ 256 :=
  ⟨polys_holdsPa _ 0 0 (by decide +kernel) _, by decide +kernel, by decide +kernel,
    by decide +kernel, by decide +kernel⟩

theorem witness_PolynomialRemainderIsTheRemainder : pmod [1, 0, 0] [1, 3] = .ok [5] := by decide +kernel

theorem witness_PModWritesTheRemainder :
    (paHolds (polys [1, 2, 3] [1, 0, 1] 0 0) [1, 2, 3] ∧ pbHolds (polys [1, 2, 3] [1, 0, 1] 0 0) [1, 0, 1]) ∧
      strip [0, 0] = [] ∧ (0 : Byte) ∈ strip [1, 0, 1] ∧ (strip [1, 0, 1]).length ≤ (strip [1, 2, 3]).length ∧
      (strip [9]).length < (strip [1, 0, 1]).length ∧ (0 : Byte) ∉ strip [1, 3] :=
  ⟨polys_holdsPa _ 0 0 (by decide) _, by decide, by decide, by decide, by decide, by decide⟩

theorem witness_GeneratorVanishesAtItsRoots : (0 : Nat) < 1 ∧ (253 : Nat) < 254 := by decide

theorem witness_PGenWritesTheGenerator : (args 255 0 0).arg0.toNat ≤ 255 := by decide

theorem witness_RsRemWritesTheCodewords :
    (polys [1, 2] [] 255 0).arg0.toNat = 255 ∧ paHolds (polys [1, 2] [] 255 0) [1, 2] ∧
      256 < (strip [1, 2]).length + 255 ∧ paHolds (polys [1] [] 255 0) [1] ∧ (strip [1]).length + 255 ≤ 256 ∧
      strip [1] ≠ [] ∧ paHolds (polys [1, 2] [] 254 0) [1, 2] ∧ (strip [1, 2]).length + 254 ≤ 256 ∧
      strip [0, 0] = [] :=
  ⟨by decide, (polys_holdsPa [1, 2] 255 0 (by decide) []).1, by decide,
    (polys_holdsPa [1] 255 0 (by decide) []).1, by decide, by decide,
    (polys_holdsPa [1, 2] 254 0 (by decide) []).1, by decide, by decide⟩

theorem witness_DataWithItsCodewordsIsAMultipleOfTheGenerator :
    pmod (normPoly [1, 2, 3, 4] 4) (gen 4) = .ok [117, 163, 178, 96] := by decide +kernel

theorem witness_BbPutAppendsTheLowBits :
    ResultsSound (soundUnit []).toResults ∧ (soundUnit []).arg1.toNat ≤ 32 ∧ (soundUnit []).bbLen + 32 ≤ 32768 ∧
      ResultsSound (zeroStream 4096).toResults ∧ 32768 < (zeroStream 4096).bbLen + 1 :=
  ⟨soundUnit_results _, by decide, by decide, zeroStream_results 4096 (Nat.le_refl _), by show 32768 < 32769; decide⟩

theorem witness_BbPutBitAppendsOneBit :
    ResultsSound (soundUnit []).toResults ∧ (soundUnit []).arg0 = bitWord false ∧ (soundUnit []).bbLen < 32768 ∧
      ResultsSound (zeroStream 4096).toResults ∧ (zeroStream 4096).bbLen = 32768 :=
  ⟨soundUnit_results _, by decide, by decide, zeroStream_results 4096 (Nat.le_refl _), rfl⟩

theorem witness_BbPadFillsUpToTheCapacity :
    ResultsSound (soundUnit []).toResults ∧ (soundUnit []).arg0.toNat ≤ 4096 ∧
      8 * (soundUnit []).arg0.toNat < (soundUnit []).bbLen ∧ (soundUnit []).bbLen ≤ 8 * 4096 :=
  ⟨soundUnit_results _, by decide, by decide, by decide⟩

theorem witness_BchCommandsGiveTheCodewords : (args 31 0 0).arg0.toNat ≤ 31 ∧ (args 63 0 0).arg0.toNat ≤ 63 := by decide
theorem witness_BchRemainderIsTheRemainder : g15 ≠ 0 ∧ g18 ≠ 0 := by decide
theorem witness_BchCodewordsRoundTrip : (31 : Nat) ≤ 31 ∧ (63 : Nat) ≤ 63 := by decide

theorem witness_MaskEvalGivesTheMaskValue :
    (args 7 255 255).arg0.toNat ≤ 7 ∧ (args 7 255 255).arg1.toNat ≤ 255 ∧ (args 7 255 255).arg2.toNat ≤ 255 := by
  decide

theorem witness_MatFillWritesEveryModule : (args 1 0 0).arg0 = bitWord true ∧ (args 0 0 0).arg0 = bitWord false := by
  decide

theorem square_written : squareWritten (square 2 [[1, 0], [0, 1]] 7).mem 2 := by
  have h : ∀ r < 2, ∀ c < 2, ((square 2 [[1, 0], [0, 1]] 7).mem.read (matAddr r c)).isSome := by decide
  exact fun r c hr hc => h r hr c hc

theorem witness_PenaltyScoresTheSquare :
    squareWritten (square 2 [[1, 0], [0, 1]] 7).mem (square 2 [[1, 0], [0, 1]] 7).matN := square_written

theorem witness_PenaltyFitsItsRegister : (177 : Nat) ≤ 177 := by decide
theorem witness_PenaltyLawsOfTransposeColourAndUniformSquares : (5 : Nat) ≤ 5 := by decide

/-- Both clauses: from BEST_VALID = 0 the candidate is kept, against a lower best penalty it is not. -/
theorem witness_SelScoreKeepsTheBetterCandidate :
    (square 2 [[1, 0], [0, 1]] 7).arg0.toNat ≤ 7 ∧ (square 2 [[1, 0], [0, 1]] 7).matN ≤ 177 ∧
      squareWritten (square 2 [[1, 0], [0, 1]] 7).mem 2 ∧ (square 2 [[1, 0], [0, 1]] 7).bestValid = false ∧
      let s := { square 2 [[1, 0], [0, 1]] 7 with bestValid := true, bestMask := 7 }
      ¬(s.bestValid = false ∨ penaltyOf (moduleAt s.mem) s.matN < s.bestPenalty.toNat ∨
        (penaltyOf (moduleAt s.mem) s.matN = s.bestPenalty.toNat ∧ s.arg0.toNat < s.bestMask.toNat)) :=
  ⟨by decide, by decide, square_written, by decide, by decide⟩

theorem witness_SelectionIsTheLexicographicMinimum :
    (square 2 [] 0).bestValid = false ∧ (square 2 [] 0).matN ≤ 177 ∧
      ∀ c, c ∈ [(7, (square 2 [[1, 0], [0, 1]] 7).mem), (0, (square 2 [[1, 0], [0, 1]] 7).mem)] →
        c.1 ≤ 7 ∧ squareWritten c.2 (square 2 [] 0).matN := by
  refine ⟨by decide, by decide, fun c hc => ?_⟩
  simp only [List.mem_cons, List.not_mem_nil, or_false] at hc
  rcases hc with rfl | rfl <;> exact ⟨by decide, square_written⟩

end Sys2Proof.Tests
end

section
/-! The field product: the table of powers of ALPHA read as repeated doubling, and the product by logarithms as the
product of polynomials. -/

namespace Sys2Proof.Proofs

open Sys2Proof.Machine Sys2Proof.Safety

/-! ### One step times ALPHA -/

/-- 0x1D is FIELD_POLY without its leading term (41_gf.md R156). -/
theorem timesAlpha_eq (a : Byte) : timesAlpha a = a <<< 1 ^^^ if a.getLsbD 7 then 0x1D else 0 := by
  have hshift : (a.setWidth 9 <<< 1).setWidth 8 = a <<< 1 := by
    ext i hi
    simp only [BitVec.getElem_setWidth, BitVec.getLsbD_shiftLeft, BitVec.getLsbD_setWidth, BitVec.getElem_shiftLeft]
    grind
  unfold timesAlpha
  split <;> simp [BitVec.setWidth_xor, hshift, fieldPoly]

@[simp] theorem timesAlpha_zero : timesAlpha 0#8 = 0#8 := by decide

/-- Multiplying by ALPHA is linear over GF(2). -/
theorem timesAlpha_xor (a b : Byte) : timesAlpha (a ^^^ b) = timesAlpha a ^^^ timesAlpha b := by
  have hcarry : ∀ p q : Bool, (if p ^^ q then 0x1D else 0 : Byte) =
      (if p then 0x1D else 0) ^^^ (if q then 0x1D else 0) := by decide
  simp only [timesAlpha_eq, BitVec.shiftLeft_xor_distrib, BitVec.getLsbD_xor, hcarry]
  ac_rfl

/-! ### Powers of ALPHA -/

/-- `timesPower` is the library's iteration of the step. -/
theorem timesPower_eq_iterate (a : Byte) (n : Nat) : timesPower a n = timesAlpha^[n] a := by
  induction n with
  | zero => rfl
  | succ n ih => rw [timesPower, ih, Function.iterate_succ_apply']

theorem timesPower_timesAlpha (a : Byte) (n : Nat) : timesPower (timesAlpha a) n = timesAlpha (timesPower a n) := by
  rw [timesPower_eq_iterate, ← Function.iterate_succ_apply, ← timesPower_eq_iterate, timesPower]

theorem timesPower_add (a : Byte) (m n : Nat) : timesPower a (m + n) = timesPower (timesPower a n) m := by
  simp only [timesPower_eq_iterate, Function.iterate_add_apply]

@[simp] theorem timesPower_zero_left (n : Nat) : timesPower 0#8 n = 0#8 := by
  rw [timesPower_eq_iterate, Function.iterate_fixed timesAlpha_zero]

/-- ALPHA has order 255: its order divides 255 = 3 * 5 * 17 and none of 15, 51 and 85. So FIELD_POLY is primitive. -/
theorem minimalPeriod_timesAlpha_one : Function.minimalPeriod timesAlpha 1 = 255 := by
  have hdvd : Function.minimalPeriod timesAlpha 1 ∣ 255 := by
    rw [← Function.isPeriodicPt_iff_minimalPeriod_dvd]; decide +kernel
  have hproper : ∀ d ∈ Nat.divisors 255, d = 255 ∨ d ∣ 15 ∨ d ∣ 51 ∨ d ∣ 85 := by decide
  obtain h | h | h | h := hproper _ (Nat.mem_divisors.2 ⟨hdvd, by decide⟩)
  · exact h
  all_goals
    rw [← Function.isPeriodicPt_iff_minimalPeriod_dvd] at h
    exact absurd h (by decide +kernel)

theorem timesPower_one_mod (n : Nat) : timesPower 1 (n % 255) = timesPower 1 n := by
  have h := Function.iterate_mod_minimalPeriod_eq (f := timesAlpha) (x := 1) (n := n)
  rwa [minimalPeriod_timesAlpha_one, ← timesPower_eq_iterate, ← timesPower_eq_iterate] at h

theorem timesPower_one_injOn : Set.InjOn (timesPower 1) (Set.Iio 255) := by
  have h := Function.iterate_injOn_Iio_minimalPeriod (f := timesAlpha) (x := 1)
  rw [minimalPeriod_timesAlpha_one] at h
  exact h.congr fun n _ => (timesPower_eq_iterate 1 n).symm

theorem timesPower_one_ne_zero (n : Nat) : timesPower 1 n ≠ 0 := by
  intro h
  have hcycle : timesPower 1 (254 * n + n) = 1 := by
    rw [← timesPower_one_mod, show (254 * n + n) % 255 = 0 by omega, timesPower]
  rw [timesPower_add, h] at hcycle
  exact absurd ((timesPower_zero_left _).symm.trans hcycle) (by decide)

/-- The 255 distinct powers of ALPHA are all 255 nonzero elements. -/
theorem exists_timesPower_one_eq {x : Byte} (h : x ≠ 0) : ∃ n < 255, timesPower 1 n = x := by
  have hmaps : Set.MapsTo (fun n => (timesPower 1 n).toNat) (Finset.range 255) (Finset.Ico 1 256) := fun n _ =>
    Finset.mem_coe.2 (Finset.mem_Ico.2
      ⟨Nat.pos_of_ne_zero fun h0 => timesPower_one_ne_zero n (BitVec.eq_of_toNat_eq h0), BitVec.isLt _⟩)
  have hinj : Set.InjOn (fun n => (timesPower 1 n).toNat) (Finset.range 255) := fun m hm n hn hmn =>
    timesPower_one_injOn (Finset.mem_range.1 hm) (Finset.mem_range.1 hn) (BitVec.eq_of_toNat_eq hmn)
  have hx : x.toNat ∈ Finset.Ico 1 256 :=
    Finset.mem_Ico.2 ⟨Nat.pos_of_ne_zero fun h0 => h (BitVec.eq_of_toNat_eq h0), x.isLt⟩
  obtain ⟨n, hn, hnx⟩ := Finset.surjOn_of_injOn_of_card_le _ hmaps hinj (by simp) hx
  exact ⟨n, Finset.mem_range.1 hn, BitVec.eq_of_toNat_eq hnx⟩

/-! ### The table -/

@[simp] theorem powersFrom_length (a : Byte) (n : Nat) : (powersFrom a n).length = n := by
  induction n generalizing a with
  | zero => rfl
  | succ n ih => exact congrArg Nat.succ (ih _)

theorem powersFrom_getD (a : Byte) {n k : Nat} (h : k < n) : (powersFrom a n).getD k 0 = timesPower a k := by
  induction n generalizing a k with
  | zero => omega
  | succ n ih =>
    cases k with
    | zero => rfl
    | succ k =>
      calc (powersFrom (timesAlpha a) n).getD k 0
        _ = timesPower (timesAlpha a) k := ih _ (by omega)
        _ = timesPower a (k + 1) := timesPower_timesAlpha a k

@[simp] theorem expTable_length : expTable.length = 255 := powersFrom_length 1 255

theorem gexp_eq_timesPower (n : Int) : gexp n = timesPower 1 (n % 255).toNat :=
  powersFrom_getD 1 (by omega)

/-- A natural exponent need not be reduced modulo 255. -/
theorem gexp_natCast (n : Nat) : gexp n = timesPower 1 n := by
  rw [gexp_eq_timesPower, show ((n : Int) % 255).toNat = n % 255 by omega, timesPower_one_mod]

theorem mem_expTable {x : Byte} (h : x ≠ 0) : x ∈ expTable := by
  obtain ⟨n, hn, rfl⟩ := exists_timesPower_one_eq h
  have hlt : n < expTable.length := by rwa [expTable_length]
  rw [← powersFrom_getD 1 hn]
  exact (List.getElem_eq_getD (h := hlt) 0) ▸ List.getElem_mem hlt

theorem logOf_lt {x : Byte} (h : x ≠ 0) : logOf x < 255 := by
  simpa [logOf] using List.idxOf_lt_length_of_mem (mem_expTable h)

theorem timesPower_logOf {x : Byte} (h : x ≠ 0) : timesPower 1 (logOf x) = x := by
  rw [← powersFrom_getD 1 (logOf_lt h)]
  exact (List.getElem_eq_getD 0).symm.trans (List.getElem_idxOf (List.idxOf_lt_length_of_mem (mem_expTable h)))

/-- The product by logarithms is as many steps times ALPHA as the logarithm says. -/
theorem gmul_eq_timesPower {a : Byte} (ha : a ≠ 0) (b : Byte) : gmul a b = timesPower b (logOf a) := by
  by_cases hb : b = 0
  · rw [hb, Laws.gmul_zero_right]
    exact (timesPower_zero_left _).symm
  calc gmul a b
    _ = gexp ((logOf a + logOf b : Nat) : Int) := if_neg (not_or.2 ⟨ha, hb⟩)
    _ = timesPower (timesPower 1 (logOf b)) (logOf a) := by rw [gexp_natCast, timesPower_add]
    _ = timesPower b (logOf a) := by rw [timesPower_logOf hb]

/-! ### Shift and add -/

theorem shiftAddProduct_eq_foldl (a b : Byte) :
    shiftAddProduct a b =
      (List.range 8).foldl (fun acc i => acc ^^^ if b.getLsbD i then timesPower a i else 0) 0 :=
  List.foldl_map

@[simp] theorem shiftAddProduct_zero_left (b : Byte) : shiftAddProduct 0#8 b = 0#8 := by
  simp [shiftAddProduct_eq_foldl]

/-- With 1 on the left the summands are the bits of `b`. -/
theorem shiftAddProduct_one_left : ∀ b : Byte, shiftAddProduct 1 b = b := by decide +kernel

/-- By linearity of the step, a factor ALPHA on the left comes out of the sum. -/
theorem shiftAddProduct_timesAlpha_left (a b : Byte) :
    shiftAddProduct (timesAlpha a) b = timesAlpha (shiftAddProduct a b) := by
  rw [shiftAddProduct_eq_foldl, shiftAddProduct_eq_foldl, ← List.foldl_hom timesAlpha]
  · rfl
  intro acc i
  split <;> simp [timesAlpha_xor, timesPower_timesAlpha]

theorem shiftAddProduct_timesPower_left (a b : Byte) (n : Nat) :
    shiftAddProduct (timesPower a n) b = timesPower (shiftAddProduct a b) n := by
  induction n with
  | zero => rfl
  | succ n ih => rw [timesPower, shiftAddProduct_timesAlpha_left, ih, timesPower]

/-- Settles O32: both products are `b` taken `log a` steps times ALPHA. -/
theorem fieldProductIsThePolynomialProduct : Obligations.FieldProductIsThePolynomialProduct := by
  intro a b
  by_cases ha : a = 0
  · rw [ha, Laws.gmul_zero_left]
    exact (shiftAddProduct_zero_left b).symm
  calc gmul a b
    _ = timesPower b (logOf a) := gmul_eq_timesPower ha b
    _ = timesPower (shiftAddProduct 1 b) (logOf a) := by rw [shiftAddProduct_one_left]
    _ = shiftAddProduct (timesPower 1 (logOf a)) b := (shiftAddProduct_timesPower_left 1 b _).symm
    _ = shiftAddProduct a b := by rw [timesPower_logOf ha]

end Sys2Proof.Proofs
end

section
/-! The address map: which location stands at each 4-byte-aligned byte address (20_memory.md R62 to R65). -/

namespace Sys2Proof.Proofs

open Sys2Proof.Machine Sys2Proof.Safety

/-! ### The registers -/

theorem regOffset_le (r : Reg) : regOffset r ≤ 0x040 := by cases r <;> decide

theorem regOffset_aligned (r : Reg) : regOffset r % 4 = 0 := by cases r <;> rfl

@[simp] theorem regList_regOffset (r : Reg) : regList[regOffset r / 4]? = some r := by cases r <;> rfl

/-- The registers fill the aligned addresses up to BEST_MASK. -/
theorem exists_eq_regOffset {a : Nat} (h : a % 4 = 0) (hle : a ≤ 0x040) : ∃ r, a = regOffset r := by
  have hall : ∀ k < 17, ∃ r ∈ regList, 4 * k = regOffset r := by decide
  obtain ⟨r, -, hr⟩ := hall (a / 4) (by omega)
  exact ⟨r, by omega⟩

@[simp] theorem locate_regOffset (r : Reg) : locate (regOffset r) = some (.reg r) := by
  rw [locate, if_pos (regOffset_le r), regList_regOffset, Option.map_some]

/-! ### The windows -/

theorem inWindow_paAddr_iff {a : Nat} (h : a % 4 = 0) : inWindow paAddr 256 a ↔ 0x1000 ≤ a ∧ a ≤ 0x13FC := by
  refine ⟨fun ⟨i, hi, e⟩ => ?_, fun _ => ⟨(a - 0x1000) / 4, ?_, ?_⟩⟩ <;> unfold paAddr at * <;> omega

theorem inWindow_pbAddr_iff {a : Nat} (h : a % 4 = 0) : inWindow pbAddr 256 a ↔ 0x1400 ≤ a ∧ a ≤ 0x17FC := by
  refine ⟨fun ⟨i, hi, e⟩ => ?_, fun _ => ⟨(a - 0x1400) / 4, ?_, ?_⟩⟩ <;> unfold pbAddr at * <;> omega

theorem inWindow_prAddr_iff {a : Nat} (h : a % 4 = 0) : inWindow prAddr 256 a ↔ 0x1800 ≤ a ∧ a ≤ 0x1BFC := by
  refine ⟨fun ⟨i, hi, e⟩ => ?_, fun _ => ⟨(a - 0x1800) / 4, ?_, ?_⟩⟩ <;> unfold prAddr at * <;> omega

theorem inWindow_bbAddr_iff {a : Nat} (h : a % 4 = 0) : inWindow bbAddr 4096 a ↔ 0x4000 ≤ a ∧ a ≤ 0x7FFC := by
  refine ⟨fun ⟨i, hi, e⟩ => ?_, fun _ => ⟨(a - 0x4000) / 4, ?_, ?_⟩⟩ <;> unfold bbAddr at * <;> omega

theorem matAddr_bounds {r c : Nat} (hr : r < 177) (hc : c < 177) : 0x10000 ≤ matAddr r c ∧ matAddr r c ≤ 0x4FFFC := by
  unfold matAddr
  omega

/-- An aligned address from the MAT window on is that of its row and column. -/
theorem matAddr_matRow_matCol {a : Nat} (h : a % 4 = 0) (h₀ : 0x10000 ≤ a) : matAddr (matRow a) (matCol a) = a := by
  have hcol : matCol a = (a - 0x10000) / 4 % 256 := Nat.and_two_pow_sub_one_eq_mod _ 8
  rw [hcol, matRow, matAddr, Nat.shiftRight_eq_div_pow]
  omega

theorem locate_paAddr {a : Nat} (h : inWindow paAddr 256 a) : locate a = some (.cell 8 true) := by
  obtain ⟨i, hi, rfl⟩ := h
  unfold locate paAddr
  rw [if_neg (by omega), if_pos (by omega)]

theorem locate_pbAddr {a : Nat} (h : inWindow pbAddr 256 a) : locate a = some (.cell 8 true) := by
  obtain ⟨i, hi, rfl⟩ := h
  unfold locate pbAddr
  rw [if_neg (by omega), if_neg (by omega), if_pos (by omega)]

theorem locate_prAddr {a : Nat} (h : inWindow prAddr 256 a) : locate a = some (.cell 8 false) := by
  obtain ⟨i, hi, rfl⟩ := h
  unfold locate prAddr
  rw [if_neg (by omega), if_neg (by omega), if_neg (by omega), if_pos (by omega)]

theorem locate_bbAddr {a : Nat} (h : inWindow bbAddr 4096 a) : locate a = some (.cell 8 false) := by
  obtain ⟨i, hi, rfl⟩ := h
  unfold locate bbAddr
  rw [if_neg (by omega), if_neg (by omega), if_neg (by omega), if_neg (by omega), if_pos (by omega)]

theorem locate_inMat {a : Nat} (h : inMat a) : locate a = some (.cell 1 true) := by
  obtain ⟨r, c, hr, hc, rfl⟩ := h
  have hb := matAddr_bounds hr hc
  have hc' : c < 256 := hc.trans (by decide)
  unfold locate
  rw [if_neg (by omega), if_neg (by omega), if_neg (by omega), if_neg (by omega), if_neg (by omega), if_pos hb,
    Laws.matRow_matAddr r c hc', Laws.matCol_matAddr r c hc', if_pos ⟨hr, hc⟩]

/-! ### The whole map -/

/-- An aligned address that is no register's and no cell's is unmapped. -/
theorem locate_eq_none {a : Nat} (h : a % 4 = 0) (hreg : ∀ r, a ≠ regOffset r) (hpa : ¬inWindow paAddr 256 a)
    (hpb : ¬inWindow pbAddr 256 a) (hpr : ¬inWindow prAddr 256 a) (hbb : ¬inWindow bbAddr 4096 a) (hmat : ¬inMat a) :
    locate a = none := by
  have hreg' : ¬a ≤ 0x040 := fun hle => (exists_eq_regOffset h hle).elim hreg
  rw [inWindow_paAddr_iff h] at hpa
  rw [inWindow_pbAddr_iff h] at hpb
  rw [inWindow_prAddr_iff h] at hpr
  rw [inWindow_bbAddr_iff h] at hbb
  rw [locate, if_neg hreg', if_neg hpa, if_neg hpb, if_neg hpr, if_neg hbb]
  split_ifs with hwin hcell
  · exact absurd ⟨_, _, hcell.1, hcell.2, (matAddr_matRow_matCol h hwin.1).symm⟩ hmat
  · rfl
  · rfl

/-- Everything that can stand at an aligned address. -/
theorem locate_cases {a : Nat} (h : a % 4 = 0) :
    (∃ r, a = regOffset r ∧ locate a = some (.reg r)) ∨
      (inWindow paAddr 256 a ∨ inWindow pbAddr 256 a) ∧ locate a = some (.cell 8 true) ∨
      (inWindow prAddr 256 a ∨ inWindow bbAddr 4096 a) ∧ locate a = some (.cell 8 false) ∨
      inMat a ∧ locate a = some (.cell 1 true) ∨
      ((∀ r, a ≠ regOffset r) ∧ ¬inWindow paAddr 256 a ∧ ¬inWindow pbAddr 256 a ∧ ¬inWindow prAddr 256 a ∧
        ¬inWindow bbAddr 4096 a ∧ ¬inMat a) ∧ locate a = none := by
  by_cases hreg : ∃ r, a = regOffset r
  · obtain ⟨r, rfl⟩ := hreg
    exact .inl ⟨r, rfl, locate_regOffset r⟩
  by_cases hpa : inWindow paAddr 256 a
  · exact .inr (.inl ⟨.inl hpa, locate_paAddr hpa⟩)
  by_cases hpb : inWindow pbAddr 256 a
  · exact .inr (.inl ⟨.inr hpb, locate_pbAddr hpb⟩)
  by_cases hpr : inWindow prAddr 256 a
  · exact .inr (.inr (.inl ⟨.inl hpr, locate_prAddr hpr⟩))
  by_cases hbb : inWindow bbAddr 4096 a
  · exact .inr (.inr (.inl ⟨.inr hbb, locate_bbAddr hbb⟩))
  by_cases hmat : inMat a
  · exact .inr (.inr (.inr (.inl ⟨hmat, locate_inMat hmat⟩)))
  have hreg' := not_exists.1 hreg
  exact .inr (.inr (.inr (.inr
    ⟨⟨hreg', hpa, hpb, hpr, hbb, hmat⟩, locate_eq_none h hreg' hpa hpb hpr hbb hmat⟩)))

theorem locate_eq_reg_iff {a : Nat} (h : a % 4 = 0) (r : Reg) : locate a = some (.reg r) ↔ a = regOffset r := by
  refine ⟨fun hl => ?_, fun e => e ▸ locate_regOffset r⟩
  obtain ⟨q, rfl, e⟩ | ⟨-, e⟩ | ⟨-, e⟩ | ⟨-, e⟩ | ⟨-, e⟩ := locate_cases h <;> simp_all

theorem locate_eq_polynomialCell_iff {a : Nat} (h : a % 4 = 0) :
    locate a = some (.cell 8 true) ↔ inWindow paAddr 256 a ∨ inWindow pbAddr 256 a := by
  refine ⟨fun hl => ?_, fun hw => hw.elim locate_paAddr locate_pbAddr⟩
  obtain ⟨q, rfl, e⟩ | ⟨hw, -⟩ | ⟨-, e⟩ | ⟨-, e⟩ | ⟨-, e⟩ := locate_cases h <;> simp_all

theorem locate_eq_readOnlyCell_iff {a : Nat} (h : a % 4 = 0) :
    locate a = some (.cell 8 false) ↔ inWindow prAddr 256 a ∨ inWindow bbAddr 4096 a := by
  refine ⟨fun hl => ?_, fun hw => hw.elim locate_prAddr locate_bbAddr⟩
  obtain ⟨q, rfl, e⟩ | ⟨-, e⟩ | ⟨hw, -⟩ | ⟨-, e⟩ | ⟨-, e⟩ := locate_cases h <;> simp_all

theorem locate_eq_module_iff {a : Nat} (h : a % 4 = 0) : locate a = some (.cell 1 true) ↔ inMat a := by
  refine ⟨fun hl => ?_, locate_inMat⟩
  obtain ⟨q, rfl, e⟩ | ⟨-, e⟩ | ⟨-, e⟩ | ⟨hw, -⟩ | ⟨-, e⟩ := locate_cases h <;> simp_all

theorem locate_eq_none_iff {a : Nat} (h : a % 4 = 0) :
    locate a = none ↔ (∀ r, a ≠ regOffset r) ∧ ¬inWindow paAddr 256 a ∧ ¬inWindow pbAddr 256 a ∧
      ¬inWindow prAddr 256 a ∧ ¬inWindow bbAddr 4096 a ∧ ¬inMat a := by
  refine ⟨fun hl => ?_, fun ⟨hreg, hpa, hpb, hpr, hbb, hmat⟩ => locate_eq_none h hreg hpa hpb hpr hbb hmat⟩
  obtain ⟨q, rfl, e⟩ | ⟨-, e⟩ | ⟨-, e⟩ | ⟨-, e⟩ | ⟨hn, -⟩ := locate_cases h <;> simp_all

/-- Settles O13: the tables of offsets and addresses are definitional, the map is read off `locate_cases`. -/
theorem theAddressMapIsTheSpecs : Obligations.TheAddressMapIsTheSpecs :=
  ⟨by decide, fun _ => ⟨rfl, rfl, rfl, rfl, fun _ => rfl⟩, fun _ _ h =>
    ⟨locate_eq_reg_iff h, locate_eq_polynomialCell_iff h, locate_eq_readOnlyCell_iff h, locate_eq_module_iff h,
      locate_eq_none_iff h⟩⟩

end Sys2Proof.Proofs
end

section
/-! Host accesses outside reset while the unit is not busy: registers and cells read and written, refused values, and
reset (10_state.md R21 to R46, 20_memory.md R67, 60_exceptions.md R289, 70_reset_and_hazards.md R320). -/

namespace Sys2Proof.Proofs

open Sys2Proof.Machine Sys2Proof.Safety

/-! ### One event -/

theorem step_of_bus {s : State} {e : BusEvent} {rest : List BusEvent} (h : s.bus = e :: rest) :
    step s = busEvent e { s with bus := rest } := by
  rw [step, h]

theorem step_read {s : State} {a : Addr} {width : Nat} {rest : List BusEvent} (hr : s.inReset = false)
    (h : s.bus = .read a width :: rest) : step s = .next (hostRead a width { s with bus := rest }) := by
  simp [step_of_bus h, busEvent, hr]

theorem step_write {s : State} {a : Addr} {width : Nat} {v : Word} {rest : List BusEvent} (hr : s.inReset = false)
    (h : s.bus = .write a width v :: rest) : step s = hostWrite a width v { s with bus := rest } := by
  simp [step_of_bus h, busEvent, hr]

/-! ### Permitted accesses -/

section
variable {s : State} {a : Addr} (hb : s.busy = false) (ha : a.toNat % 4 = 0)
include hb ha

theorem hostRead_permitted {loc : Loc} (hl : locate a.toNat = some loc) :
    hostRead a 4 s = { s with readData := readLoc loc a.toNat s } := by
  simp [hostRead, accessFormed, ha, hl, hb]

theorem hostWrite_reg {r : Reg} (hl : locate a.toNat = some (.reg r)) (hw : hostWritable (.reg r) = true) (v : Word) :
    hostWrite a 4 v s = writeReg r a v s := by
  simp [hostWrite, accessFormed, ha, hl, hb, hw]

theorem hostWrite_cell {bits : Nat} (hl : locate a.toNat = some (.cell bits true)) (v : Word) :
    hostWrite a 4 v s = .next (writeWindow bits a v s) := by
  simp [hostWrite, accessFormed, ha, hl, hb, hostWritable]

end

/-- The step of a permitted register read returns `readReg`. -/
theorem step_readReg {s : State} {r : Reg} {a : Addr} {rest : List BusEvent} (hb : s.busy = false)
    (hr : s.inReset = false) (ha : a.toNat = regOffset r) (h : s.bus = .read a 4 :: rest) :
    step s = .next { s with bus := rest, readData := readReg r s } := by
  rw [step_read hr h, hostRead_permitted (s := { s with bus := rest }) hb (ha ▸ regOffset_aligned r)
    (ha ▸ locate_regOffset r)]
  rfl

/-- The step of a permitted register write is `writeReg`. -/
theorem step_writeReg {s : State} {r : Reg} {a : Addr} {v : Word} {rest : List BusEvent} (hb : s.busy = false)
    (hr : s.inReset = false) (ha : a.toNat = regOffset r) (hw : hostWritable (.reg r) = true)
    (h : s.bus = .write a 4 v :: rest) : step s = writeReg r a v { s with bus := rest } := by
  rw [step_write hr h]
  exact hostWrite_reg (s := { s with bus := rest }) hb (ha ▸ regOffset_aligned r) (ha ▸ locate_regOffset r) hw v

/-- The step of a permitted cell write is `writeWindow`. -/
theorem step_writeWindow {s : State} {bits : Nat} {a : Addr} {v : Word} {rest : List BusEvent} (hb : s.busy = false)
    (hr : s.inReset = false) (ha : a.toNat % 4 = 0) (hl : locate a.toNat = some (.cell bits true))
    (h : s.bus = .write a 4 v :: rest) : step s = .next (writeWindow bits a v { s with bus := rest }) := by
  rw [step_write hr h]
  exact hostWrite_cell (s := { s with bus := rest }) hb ha hl v

/-! ### Reading a register -/

theorem regOffset_toNat (r : Reg) : (BitVec.ofNat 20 (regOffset r)).toNat = regOffset r :=
  Nat.mod_eq_of_lt ((regOffset_le r).trans_lt (by decide))

/-- The four flags in their bits, 0 above (10_state.md R24). -/
theorem statusWord_bits (s : State) :
    (statusWord s).getLsbD 0 = s.busy ∧ (statusWord s).getLsbD 1 = s.done ∧ (statusWord s).getLsbD 2 = s.faultFlag ∧
      (statusWord s).getLsbD 3 = s.bestValid ∧ (statusWord s).toNat < 16 := by
  unfold statusWord
  generalize s.busy = busy, s.done = done, s.faultFlag = fault, s.bestValid = best
  revert busy done fault best
  decide

theorem causeCode_lt (c : Cause) : causeCode c < 9 := by cases c <;> decide

/-- Settles O14: `readReg` is the table of the registers, and each number fits its 32 bits. -/
theorem registerReadsReturnTheRegisters : Obligations.RegisterReadsReturnTheRegisters := by
  refine ⟨fun s r rest hb hr h => ?_, statusWord_bits, fun s => ?_, fun s hs => ?_, ?_⟩
  · exact step_readReg hb hr (regOffset_toNat r) h
  · have hc : (readReg .faultCause s).toNat = causeCode s.faultCause :=
      Nat.mod_eq_of_lt ((causeCode_lt _).trans (by decide))
    exact ⟨rfl, rfl, rfl, rfl, rfl, rfl, rfl, rfl, rfl, BitVec.toNat_setWidth_of_le (by decide), hc⟩
  · obtain ⟨⟨-, -, hpa, hpb, hpr, hbb, -, -⟩, ⟨-, hmat⟩, -, -, -, -, -⟩ := hs
    have fits : ∀ {n bound : Nat}, n ≤ bound → bound < 2 ^ 32 → (BitVec.ofNat 32 n).toNat = n := fun h hlt =>
      Nat.mod_eq_of_lt (h.trans_lt hlt)
    exact ⟨fits hpa (by decide), fits hpb (by decide), fits hpr (by decide), fits hbb (by decide),
      fits hmat (by decide)⟩
  · decide

/-! ### Writing a register or a cell -/

theorem lengthField_eq (v : Word) : lengthField v = v.toNat % 512 := BitVec.toNat_setWidth 9 v

theorem sideField_eq (v : Word) : sideField v = v.toNat % 256 := BitVec.toNat_setWidth 8 v

theorem lengthLegal_iff (v : Word) : lengthLegal v = true ↔ v.toNat % 512 ≤ 256 := by
  rw [lengthLegal, lengthField_eq, decide_eq_true_iff]

theorem sideLegal_iff (v : Word) : sideLegal v = true ↔ 1 ≤ v.toNat % 256 ∧ v.toNat % 256 ≤ 177 := by
  rw [sideLegal, sideField_eq, decide_eq_true_iff]

theorem refuseWrite_eq_recorded (cause : Cause) (a : Addr) (s : State) :
    refuseWrite cause a s = recorded cause a s := by
  cases s
  unfold refuseWrite recordFault recorded
  simp only
  split <;> simp_all [addrWord]

/-- Settles O15: each write reaches its arm of `writeReg`, whose check the value passes. -/
theorem registerWritesStoreTheValue : Obligations.RegisterWritesStoreTheValue := by
  intro s v rest hb hr
  refine ⟨fun h => step_writeReg (r := .arg0) hb hr rfl rfl h, fun h => step_writeReg (r := .arg1) hb hr rfl rfl h,
    fun h => step_writeReg (r := .arg2) hb hr rfl rfl h, fun h hv => ?_, fun h hv => ?_, fun h hv₁ hv₂ => ?_⟩
  · rw [step_writeReg (r := .paLen) hb hr rfl rfl h, writeReg, if_pos ((lengthLegal_iff v).2 hv), lengthField_eq]
  · rw [step_writeReg (r := .pbLen) hb hr rfl rfl h, writeReg, if_pos ((lengthLegal_iff v).2 hv), lengthField_eq]
  · rw [step_writeReg (r := .matN) hb hr rfl rfl h, writeReg, if_pos ((sideLegal_iff v).2 ⟨hv₁, hv₂⟩), sideField_eq]

/-- Settles O20: an illegal value fails the register's check and is recorded; a cell has no check. -/
theorem illegalRegisterValuesAreRefused : Obligations.IllegalRegisterValuesAreRefused := by
  refine ⟨rfl, fun s a v rest hr hb h hv => ?_, fun s a v rest hr hb h => ⟨fun hw => ?_, fun hm => ?_⟩⟩
  · obtain ⟨rfl | rfl, hv⟩ | ⟨rfl, hv⟩ := hv
    · rw [step_writeReg (r := .paLen) hb hr rfl rfl h, writeReg, if_neg (mt (lengthLegal_iff v).1 (by omega)),
        refuseWrite_eq_recorded]
      rfl
    · rw [step_writeReg (r := .pbLen) hb hr rfl rfl h, writeReg, if_neg (mt (lengthLegal_iff v).1 (by omega)),
        refuseWrite_eq_recorded]
      rfl
    · rw [step_writeReg (r := .matN) hb hr rfl rfl h, writeReg, if_neg (mt (sideLegal_iff v).1 (by omega)),
        refuseWrite_eq_recorded]
      rfl
  · have ha : a.toNat % 4 = 0 := by
      obtain ⟨i, -, e⟩ | ⟨i, -, e⟩ := hw <;> simp only [e, paAddr, pbAddr] <;> omega
    exact step_writeWindow hb hr ha (hw.elim locate_paAddr locate_pbAddr) h
  · have ha : a.toNat % 4 = 0 := by
      obtain ⟨r, c, -, -, e⟩ := hm
      simp only [e, matAddr]
      omega
    exact step_writeWindow hb hr ha (locate_inMat hm) h

/-! ### Reset -/

/-- Settles O1, by the definition of the reset state. -/
theorem resetHoldsTheSpecValues : Obligations.ResetHoldsTheSpecValues := by
  unfold Obligations.ResetHoldsTheSpecValues
  decide

/-- The reset state with the model's own fields, and its reset input, at given values. -/
def resetWith (data : Word) (count : Nat) (bus : List BusEvent) (held : Bool) : State :=
  { State.reset with readData := data, freeCount := count, bus := bus, inReset := held }

theorem sound_resetWith (data : Word) (count : Nat) (bus : List BusEvent) (held : Bool) :
    Sound (resetWith data count bus held) where
  results :=
    { canonical := List.Pairwise.nil
      cells := rfl
      paLen := Nat.zero_le _
      pbLen := Nat.zero_le _
      prLen := Nat.zero_le _
      bbLen := Nat.zero_le _
      view := by simp [viewSound, viewBytes, resetWith, State.reset]
      best := fun _ => ⟨rfl, rfl⟩ }
  matN := (by decide : 1 ≤ 21 ∧ 21 ≤ 177)
  busy := rfl
  notDone := fun h => Bool.noConfusion h
  noRecord := fun _ => ⟨rfl, rfl⟩
  record := fun h => Bool.noConfusion h
  outcome := fun _ h => Option.noConfusion rfl (heq_of_eq h)

/-- Settles O2. -/
theorem resetStateIsSoundAndUnwritten : Obligations.ResetStateIsSoundAndUnwritten :=
  ⟨sound_resetWith 0 0 [] false, fun _ => rfl⟩

theorem run_succ_of_step {n : Nat} {s t : State} (h : step s = .next t) : run (n + 1) s = run n t := by
  have hcore : core.step s = .next t := h
  simp only [run, Host.Core.run, hcore]
  rfl

/-- While reset is held, an access changes only the model's own fields. -/
theorem step_resetWith_access {e : BusEvent} (he : isAccess e = true) (data : Word) (count : Nat)
    (rest : List BusEvent) : ∃ d n, step (resetWith data count (e :: rest) true) = .next (resetWith d n rest true) := by
  cases e with
  | read a width => exact ⟨_, _, rfl⟩
  | write a width v => exact ⟨_, _, rfl⟩
  | complete => cases he
  | assertReset => cases he
  | releaseReset => cases he

/-- Held in reset through any accesses, then released. -/
theorem run_resetWith {es : List BusEvent} (h : es.all isAccess = true) (data : Word) (count : Nat) :
    ∃ d n, run (es.length + 1) (resetWith data count (es ++ [.releaseReset]) true) =
      .next { State.reset with readData := d, freeCount := n } := by
  induction es generalizing data count with
  | nil => exact ⟨data, count, rfl⟩
  | cons e es ih =>
    rw [List.all_cons, Bool.and_eq_true] at h
    obtain ⟨d, n, hstep⟩ := step_resetWith_access h.1 data count (es ++ [.releaseReset])
    obtain ⟨d', n', hrun⟩ := ih h.2 d n
    exact ⟨d', n', (run_succ_of_step hstep).trans hrun⟩

/-- Settles O23: asserting reset gives `resetWith`, which the accesses keep and the release frees. -/
theorem resetDiscardsAndRestores : Obligations.ResetDiscardsAndRestores := by
  intro s es hes hbus
  obtain ⟨d, n, h⟩ := run_resetWith hes s.readData (s.freeCount + 1)
  exact ⟨d, n, (run_succ_of_step (step_of_bus hbus)).trans h⟩

end Sys2Proof.Proofs
end

section
/-! Polynomials: stripping, the passes of the division, and the coefficients of the generator (42_poly_rs.md R170 to
R181). -/

namespace Sys2Proof.Proofs

open Sys2Proof.Machine Sys2Proof.Safety

/-! ### Stripping -/

@[simp] theorem normPoly_zero (p : List Byte) : normPoly p 0 = strip p := List.append_nil _

theorem strip_cons {c : Byte} (h : c ≠ 0) (p : List Byte) : strip (c :: p) = c :: p := if_neg h

@[simp] theorem strip_zero_cons (p : List Byte) : strip (0 :: p) = strip p := if_pos rfl

@[simp] theorem strip_strip (p : List Byte) : strip (strip p) = strip p := by
  cases hp : strip p with
  | nil => rfl
  | cons c q => exact strip_cons (Laws.strip_head p c q hp) q

@[simp] theorem strip_replicate_zero (n : Nat) : strip (List.replicate n 0) = [] := by
  induction n with
  | zero => rfl
  | succ n ih => rwa [List.replicate_succ, strip_zero_cons]

theorem normPoly_of_strip_nil {p : List Byte} (h : strip p = []) (n : Nat) : normPoly p n = List.replicate n 0 := by
  rw [normPoly, h, List.nil_append]

/-- A shifted nonzero polynomial is normalised already. -/
theorem strip_normPoly {p : List Byte} (h : strip p ≠ []) (n : Nat) : strip (normPoly p n) = normPoly p n := by
  obtain ⟨c, q, hp⟩ := List.exists_cons_of_ne_nil h
  rw [normPoly, hp, List.cons_append, strip_cons (Laws.strip_head p c q hp)]

@[simp] theorem normPoly_length (p : List Byte) (n : Nat) : (normPoly p n).length = (strip p).length + n := by
  simp [normPoly]

theorem pmul_strip (a b : List Byte) : pmul (strip a) (strip b) = pmul a b := by simp [pmul]

/-- Outside the CAPACITY case of P_MUL the product fits its window (42_poly_rs.md R175). -/
theorem pmul_length_le {a b : List Byte}
    (h : ¬(strip a ≠ [] ∧ strip b ≠ [] ∧ 256 < (strip a).length + (strip b).length - 1)) : (pmul a b).length ≤ 256 := by
  by_cases hzero : strip a = [] ∨ strip b = []
  · simp [pmul, hzero]
  · have hlen := Laws.pmul_length a b
    rw [normPoly_zero, normPoly_zero] at hlen
    rw [not_or] at hzero
    exact hlen.trans (Nat.le_of_not_lt fun hlt => h ⟨hzero.1, hzero.2, hlt⟩)

/-! ### The division -/

theorem pmod_eq (a b : List Byte) :
    pmod a b = if strip b = [] then raise .zeroDivisor else divLoop ((strip a).length + 1) (strip a) (strip b) := by
  simp [pmod]

theorem glog_eq {x : Byte} (h : x ≠ 0) : glog x = .ok (logOf x) := if_neg h

theorem divRow_of_zero_mem (ratio : Int) {b a : List Byte} (h : 0 ∈ b) (hlen : b.length ≤ a.length) :
    divRow ratio b a = .error (.fault .invalidFieldOp) := by
  induction b generalizing a with
  | nil => cases h
  | cons y bs ih =>
    cases a with
    | nil => simp at hlen
    | cons x as =>
      obtain ⟨rfl, e⟩ | ⟨hy, e⟩ := Laws.glog_cases y
      · rw [divRow, e]
      · rw [divRow, e, ih (List.mem_of_ne_of_mem hy.symm h) (by simpa using hlen)]

theorem divRow_of_zero_notMem (ratio : Int) {b : List Byte} (a : List Byte) (h : 0 ∉ b) :
    ∃ r, divRow ratio b a = .ok r := by
  induction b generalizing a with
  | nil => exact ⟨a, by rw [divRow]⟩
  | cons y bs ih =>
    rw [List.mem_cons, not_or] at h
    cases a with
    | nil => exact ⟨[], by rw [divRow]⟩
    | cons x as =>
      obtain ⟨r, hr⟩ := ih as h.2
      exact ⟨_, by rw [divRow, glog_eq (Ne.symm h.1), hr]⟩

theorem divLoop_of_length_lt (fuel : Nat) {a b : List Byte} (h : a.length < b.length) : divLoop fuel a b = .ok a := by
  cases fuel with
  | zero => rfl
  | succ fuel => rw [divLoop, if_pos h]

/-- The first coefficient of the dividend cancels: XOR of a coefficient with the power of its own logarithm. -/
theorem xor_gexp_logOf {x y : Byte} (hx : x ≠ 0) :
    x ^^^ gexp ((logOf y : Int) + ((logOf x : Int) - (logOf y : Int))) = 0 := by
  rw [add_sub_cancel, gexp_natCast, timesPower_logOf hx]
  exact BitVec.xor_self

/-- One pass of the division: the leading coefficient is gone, the others are those of `divRow` (42_poly_rs.md R172). -/
theorem divLoop_succ_cons (fuel : Nat) {x y : Byte} {as bs : List Byte} (hx : x ≠ 0) (hy : y ≠ 0)
    (h : bs.length ≤ as.length) :
    divLoop (fuel + 1) (x :: as) (y :: bs) =
      divRow ((logOf x : Int) - (logOf y : Int)) bs as >>= fun rest => divLoop fuel (strip rest) (y :: bs) := by
  rw [divLoop, if_neg (by simpa using h)]
  simp only [List.headD_cons, glog_eq hx, glog_eq hy, divRow, xor_gexp_logOf hx]
  cases divRow ((logOf x : Int) - (logOf y : Int)) bs as with
  | error e => rfl
  | ok rest => simp; rfl

/-- A nonempty normalised polynomial begins with a nonzero coefficient. -/
theorem exists_cons_of_strip_eq {p : List Byte} (h : strip p = p) (hne : p ≠ []) :
    ∃ c q, p = c :: q ∧ c ≠ 0 := by
  obtain ⟨c, q, rfl⟩ := List.exists_cons_of_ne_nil hne
  exact ⟨c, q, rfl, Laws.strip_head _ c q h⟩

section
variable {b : List Byte} (hb : strip b = b) (hne : b ≠ [])
include hb hne

/-- Without a zero coefficient in the divisor the division raises nothing (42_poly_rs.md R179). -/
theorem divLoop_of_zero_notMem (h0 : 0 ∉ b) (fuel : Nat) {a : List Byte} (ha : strip a = a) :
    ∃ r, divLoop fuel a b = .ok r := by
  induction fuel generalizing a with
  | zero => exact ⟨a, rfl⟩
  | succ fuel ih =>
    by_cases hlt : a.length < b.length
    · exact ⟨a, divLoop_of_length_lt _ hlt⟩
    obtain ⟨y, bs, rfl, hy⟩ := exists_cons_of_strip_eq hb hne
    obtain ⟨x, as, rfl, hx⟩ := exists_cons_of_strip_eq ha (by rintro rfl; simp at hlt)
    obtain ⟨rest, hrest⟩ := divRow_of_zero_notMem ((logOf x : Int) - (logOf y : Int)) as
      (fun hm => h0 (List.mem_cons_of_mem y hm))
    rw [divLoop_succ_cons fuel hx hy (by simpa using hlt), hrest]
    exact ih (strip_strip rest)

/-- A divisor with a zero coefficient raises INVALID_FIELD_OP in the first pass (42_poly_rs.md R179). -/
theorem divLoop_of_zero_mem (h0 : 0 ∈ b) (fuel : Nat) {a : List Byte} (ha : strip a = a) (hlen : b.length ≤ a.length) :
    divLoop (fuel + 1) a b = .error (.fault .invalidFieldOp) := by
  obtain ⟨y, bs, rfl, hy⟩ := exists_cons_of_strip_eq hb hne
  obtain ⟨x, as, rfl, hx⟩ := exists_cons_of_strip_eq ha (by rintro rfl; simp at hlen)
  have hlen' : bs.length ≤ as.length := by simpa using hlen
  rw [divLoop_succ_cons fuel hx hy hlen', divRow_of_zero_mem _ (List.mem_of_ne_of_mem hy.symm h0) hlen']
  rfl

/-- Every pass shortens the dividend, so the remainder is shorter than the divisor (42_poly_rs.md R180). -/
theorem divLoop_length_lt {fuel : Nat} {a r : List Byte} (ha : strip a = a) (hfuel : a.length < fuel)
    (h : divLoop fuel a b = .ok r) : r.length < b.length := by
  induction fuel generalizing a with
  | zero => omega
  | succ fuel ih =>
    by_cases hlt : a.length < b.length
    · rw [divLoop_of_length_lt _ hlt] at h
      cases h
      exact hlt
    obtain ⟨y, bs, rfl, hy⟩ := exists_cons_of_strip_eq hb hne
    obtain ⟨x, as, rfl, hx⟩ := exists_cons_of_strip_eq ha (by rintro rfl; simp at hlt)
    rw [divLoop_succ_cons fuel hx hy (by simpa using hlt)] at h
    cases hd : divRow ((logOf x : Int) - (logOf y : Int)) bs as with
    | error e => rw [hd] at h; cases h
    | ok rest =>
      rw [hd] at h
      have hrest := (Laws.strip_length rest).trans (Laws.divRow_length _ _ _ _ hd)
      exact ih (strip_strip rest) (hrest.trans_lt (by simpa using hfuel)) h

end

theorem pmod_of_zero_notMem {a b : List Byte} (hne : strip b ≠ []) (h0 : 0 ∉ strip b) : ∃ r, pmod a b = .ok r := by
  rw [pmod_eq, if_neg hne]
  exact divLoop_of_zero_notMem (strip_strip b) hne h0 _ (strip_strip a)

theorem pmod_of_length_lt {a b : List Byte} (h : (strip a).length < (strip b).length) : pmod a b = .ok (strip a) := by
  rw [pmod_eq, if_neg (by rintro e; simp [e] at h), divLoop_of_length_lt _ h]

theorem pmod_of_zero_mem {a b : List Byte} (hne : strip b ≠ []) (h0 : 0 ∈ strip b)
    (hlen : (strip b).length ≤ (strip a).length) : pmod a b = .error (.fault .invalidFieldOp) := by
  rw [pmod_eq, if_neg hne]
  exact divLoop_of_zero_mem (strip_strip b) hne h0 _ (strip_strip a) hlen

theorem pmod_of_strip_nil (a : List Byte) {b : List Byte} (h : strip b = []) :
    pmod a b = .error (.fault .zeroDivisor) := by
  rw [pmod_eq, if_pos h]
  rfl

theorem pmod_length_lt {a b r : List Byte} (h : pmod a b = .ok r) : r.length < (strip b).length := by
  rw [pmod_eq] at h
  split_ifs at h with hne
  · cases h
  · exact divLoop_length_lt (strip_strip b) hne (strip_strip a) (Nat.lt_succ_self _) h

/-- What the division can do: ZERO_DIVISOR, INVALID_FIELD_OP, or a remainder (42_poly_rs.md R176, R179). -/
theorem pmod_cases (a b : List Byte) :
    (strip b = [] ∧ pmod a b = .error (.fault .zeroDivisor)) ∨
      (strip b ≠ [] ∧ 0 ∈ strip b ∧ (strip b).length ≤ (strip a).length ∧
        pmod a b = .error (.fault .invalidFieldOp)) ∨
      (strip b ≠ [] ∧ (0 ∉ strip b ∨ (strip a).length < (strip b).length) ∧ ∃ r, pmod a b = .ok r) := by
  by_cases hne : strip b = []
  · exact .inl ⟨hne, pmod_of_strip_nil a hne⟩
  by_cases h0 : 0 ∈ strip b
  · rcases Nat.lt_or_ge (strip a).length (strip b).length with hlt | hle
    · exact .inr (.inr ⟨hne, .inr hlt, _, pmod_of_length_lt hlt⟩)
    · exact .inr (.inl ⟨hne, h0, hle, pmod_of_zero_mem hne h0 hle⟩)
  · exact .inr (.inr ⟨hne, .inl h0, pmod_of_zero_notMem hne h0⟩)

/-! ### The generator -/

/-- Multiplying by ALPHA^n is n steps times ALPHA. -/
theorem gmul_gexp (c : Byte) (n : Nat) : gmul c (gexp n) = timesPower c n := by
  by_cases hc : c = 0
  · rw [hc, Laws.gmul_zero_left]
    exact (timesPower_zero_left n).symm
  calc gmul c (gexp n)
    _ = timesPower (timesPower 1 n) (logOf c) := by rw [gmul_eq_timesPower hc, gexp_natCast]
    _ = timesPower (timesPower 1 (logOf c)) n := by rw [← timesPower_add, Nat.add_comm, timesPower_add]
    _ = timesPower c n := by rw [timesPower_logOf hc]

theorem gmul_one (c : Byte) : gmul c 1 = c := gmul_gexp c 0

theorem timesPower_xor (a b : Byte) (n : Nat) : timesPower (a ^^^ b) n = timesPower a n ^^^ timesPower b n := by
  induction n with
  | zero => rfl
  | succ n ih => rw [timesPower, ih, timesAlpha_xor]; rfl

/-- Multiplying by `x - ALPHA^n`: the coefficients, and below them the coefficients times ALPHA^n. -/
def timesRoot (p : List Byte) (n : Nat) : List Byte :=
  List.zipWith (· ^^^ ·) (p ++ [0]) (0 :: p.map (timesPower · n))

/-- The rows of the product with a divisor of degree 1; `x` is what the row before has left in the first place. -/
theorem mulRows_linear (a : List Byte) (n : Nat) (x : Byte) :
    mulRows a [1, gexp n] (x :: List.replicate a.length 0) =
      List.zipWith (· ^^^ ·) (a ++ [0]) (x :: a.map (timesPower · n)) := by
  induction a generalizing x with
  | nil => simp [mulRows]
  | cons c a ih =>
    have hrow : mulRow c [1, gexp n] (x :: List.replicate (c :: a).length 0) =
        (c ^^^ x) :: timesPower c n :: List.replicate a.length 0 := by
      simp only [mulRow, List.length_cons, List.replicate_succ, gmul_one, gmul_gexp, BitVec.xor_comm x c]
      exact congrArg (fun y => (c ^^^ x) :: y :: _) BitVec.zero_xor
    rw [mulRows, hrow]
    exact congrArg (List.cons _) (ih _)

theorem pmul_linear {c : Byte} (hc : c ≠ 0) (q : List Byte) (n : Nat) :
    pmul (c :: q) [1, gexp n] = timesRoot (c :: q) n := by
  have hlen : (c :: q).length + [1, gexp n].length - 1 = (c :: q).length + 1 := by simp
  have hhead : timesRoot (c :: q) n = c :: (timesRoot (c :: q) n).tail := by simp [timesRoot]
  simp only [pmul, normPoly_zero, strip_cons hc, strip_cons (show (1 : Byte) ≠ 0 by decide), hlen,
    List.replicate_succ, mulRows_linear]
  rw [if_neg (by simp)]
  change strip (timesRoot (c :: q) n) = _
  rw [hhead, strip_cons hc]

/-- The generator is monic of degree `n` (42_poly_rs.md R173). -/
theorem gen_eq_cons (n : Nat) : ∃ q, gen n = 1 :: q ∧ q.length = n := by
  induction n with
  | zero => exact ⟨[], rfl, rfl⟩
  | succ n ih =>
    obtain ⟨q, hq, hlen⟩ := ih
    refine ⟨(timesRoot (1 :: q) n).tail, ?_, ?_⟩
    · rw [gen, hq, pmul_linear (by decide)]
      simp [timesRoot]
    · simp [timesRoot, hlen]

theorem gen_length (n : Nat) : (gen n).length = n + 1 := by
  obtain ⟨q, hq, hlen⟩ := gen_eq_cons n
  rw [hq, List.length_cons, hlen]

theorem gen_succ (n : Nat) : gen (n + 1) = timesRoot (gen n) n := by
  obtain ⟨q, hq, -⟩ := gen_eq_cons n
  rw [gen, hq, pmul_linear (by decide)]

@[simp] theorem strip_gen (n : Nat) : strip (gen n) = gen n := by
  obtain ⟨q, hq, -⟩ := gen_eq_cons n
  rw [hq, strip_cons (by decide)]

/-! ### The coefficients of the generator -/

/-- Coefficient `k + 1` of the sum of a polynomial and its shifted image. -/
theorem zipWith_xor_map_getD_succ {f : Byte → Byte} (hf : f 0 = 0) (p : List Byte) (x : Byte) (k : Nat) :
    (List.zipWith (· ^^^ ·) (p ++ [0]) (x :: p.map f)).getD (k + 1) 0 = p.getD (k + 1) 0 ^^^ f (p.getD k 0) := by
  induction p generalizing x k with
  | nil => exact (congrArg ((0 : Byte) ^^^ ·) hf).symm
  | cons c p ih =>
    cases k with
    | zero => cases p <;> rfl
    | succ k => exact ih (f c) k

/-- Coefficient `k` of the generator, the highest degree first, 0 past its end. -/
def genCoeff (n k : Nat) : Byte := (gen n).getD k 0

theorem genCoeff_of_lt {n k : Nat} (h : n < k) : genCoeff n k = 0 :=
  List.getD_eq_default _ _ (by rw [gen_length]; exact h)

theorem genCoeff_zero (n : Nat) : genCoeff n 0 = 1 := by
  obtain ⟨q, hq, -⟩ := gen_eq_cons n
  rw [genCoeff, hq]
  rfl

theorem genCoeff_succ_succ (n k : Nat) :
    genCoeff (n + 1) (k + 1) = genCoeff n (k + 1) ^^^ timesPower (genCoeff n k) n := by
  rw [genCoeff, gen_succ]
  exact zipWith_xor_map_getD_succ (timesPower_zero_left n) _ _ _

theorem xor_xor_cancel (x y z : Byte) : (z ^^^ x) ^^^ (y ^^^ z) = x ^^^ y := by
  calc (z ^^^ x) ^^^ (y ^^^ z)
    _ = x ^^^ y ^^^ (z ^^^ z) := by ac_rfl
    _ = x ^^^ y := by rw [BitVec.xor_self, BitVec.xor_zero]

theorem timesPower_of_zero (n : Nat) : timesPower 0 n = 0 := timesPower_zero_left n

/-- Taking steps times ALPHA in either order. -/
theorem timesPower_swap (a : Byte) {m n m' n' : Nat} (h : m + n = m' + n') :
    timesPower (timesPower a m) n = timesPower (timesPower a m') n' := by
  rw [← timesPower_add, ← timesPower_add, Nat.add_comm, h, Nat.add_comm]

/-- Two neighbouring coefficients `a`, `b` of the generator: `(ALPHA^(k+1) - 1) b = (ALPHA^n - ALPHA^k) a`. It compares
the product with the one whose variable is scaled by ALPHA, which has all but one of the same factors. In the step both
sides come down to `ALPHA^k a + ALPHA^(n+k+1) a`, with `a` the coefficient one degree before. -/
theorem genCoeff_ratio (n k : Nat) :
    timesPower (genCoeff n (k + 1)) (k + 1) ^^^ genCoeff n (k + 1) =
      timesPower (genCoeff n k) n ^^^ timesPower (genCoeff n k) k := by
  induction n generalizing k with
  | zero =>
    cases k with
    | zero => decide
    | succ k => simp only [genCoeff_of_lt (Nat.succ_pos _), timesPower_of_zero]
  | succ n ih =>
    have hupper : timesPower (genCoeff (n + 1) (k + 1)) (k + 1) ^^^ genCoeff (n + 1) (k + 1) =
        timesPower (genCoeff n k) k ^^^ timesPower (timesPower (genCoeff n k) n) (k + 1) := by
      calc _
        _ = (timesPower (genCoeff n (k + 1)) (k + 1) ^^^ genCoeff n (k + 1)) ^^^
            (timesPower (timesPower (genCoeff n k) n) (k + 1) ^^^ timesPower (genCoeff n k) n) := by
          rw [genCoeff_succ_succ, timesPower_xor]
          ac_rfl
        _ = _ := by rw [ih, xor_xor_cancel]
    have hlower : timesPower (genCoeff (n + 1) k) (n + 1) ^^^ timesPower (genCoeff (n + 1) k) k =
        timesPower (genCoeff n k) k ^^^ timesPower (timesPower (genCoeff n k) n) (k + 1) := by
      cases k with
      | zero =>
        rw [genCoeff_zero, genCoeff_zero, BitVec.xor_comm]
        rfl
      | succ k =>
        have hpower : timesPower (genCoeff n (k + 1)) (k + 1) =
            genCoeff n (k + 1) ^^^ (timesPower (genCoeff n k) n ^^^ timesPower (genCoeff n k) k) := by
          rw [← ih k, BitVec.xor_comm (timesPower _ _), ← BitVec.xor_assoc, BitVec.xor_self, BitVec.zero_xor]
        calc _
          _ = timesPower (genCoeff n (k + 1)) (k + 1) ^^^ timesPower (genCoeff n (k + 1) ^^^
              (timesPower (genCoeff n k) n ^^^ timesPower (genCoeff n k) k)) (n + 1) := by
            simp only [genCoeff_succ_succ, timesPower_xor]
            rw [timesPower_swap (m := n) (n := k + 1) (m' := k) (n' := n + 1) _ (by omega)]
            ac_rfl
          _ = _ := by rw [← hpower, timesPower_swap (m := n) (m' := k + 1) (n' := n + 1) _ (by omega)]
    rw [hupper, hlower]

theorem timesPower_ne_zero {x : Byte} (h : x ≠ 0) (n : Nat) : timesPower x n ≠ 0 := by
  obtain ⟨m, -, rfl⟩ := exists_timesPower_one_eq h
  rw [← timesPower_add]
  exact timesPower_one_ne_zero _

/-- No power of ALPHA below the 255th fixes a nonzero element. -/
theorem timesPower_ne_self {x : Byte} (h : x ≠ 0) {d : Nat} (hd : 0 < d) (hd' : d < 255) : timesPower x d ≠ x := by
  obtain ⟨m, hm, rfl⟩ := exists_timesPower_one_eq h
  rw [← timesPower_add, ← timesPower_one_mod]
  intro e
  have := timesPower_one_injOn (Nat.mod_lt _ (by decide)) hm e
  omega

theorem genCoeff_ne_zero {n k : Nat} (hn : n ≤ 254) (hk : k ≤ n) : genCoeff n k ≠ 0 := by
  induction k with
  | zero => rw [genCoeff_zero]; decide
  | succ k ih =>
    intro h0
    have hratio := genCoeff_ratio n k
    rw [h0, timesPower_of_zero, BitVec.xor_self, eq_comm, BitVec.xor_eq_zero_iff] at hratio
    have hfix : timesPower (timesPower (genCoeff n k) k) (n - k) = timesPower (genCoeff n k) k := by
      rwa [← timesPower_add, Nat.sub_add_cancel (by omega)]
    exact timesPower_ne_self (timesPower_ne_zero (ih (by omega)) k) (by omega) (by omega) hfix

theorem zero_notMem_gen {n : Nat} (hn : n ≤ 254) : 0 ∉ gen n := by
  intro hmem
  obtain ⟨k, hk, h0⟩ := List.mem_iff_getElem.1 hmem
  have hk' : k ≤ n := Nat.le_of_lt_succ (hk.trans_eq (gen_length n))
  exact genCoeff_ne_zero hn hk' ((List.getElem_eq_getD 0).symm.trans h0)

/-- For 255 codewords the second coefficient is 0, since ALPHA^255 = 1 (42_poly_rs.md R181). -/
theorem zero_mem_gen_255 : 0 ∈ gen 255 := by
  have hfix : timesPower (genCoeff 255 1) 1 = genCoeff 255 1 := by
    have hratio := genCoeff_ratio 255 0
    rwa [genCoeff_zero, ← timesPower_one_mod, BitVec.xor_self, BitVec.xor_eq_zero_iff] at hratio
  have h0 : genCoeff 255 1 = 0 := by
    by_contra hne
    exact timesPower_ne_self hne (by decide) (by decide) hfix
  have hlt : 1 < (gen 255).length := by rw [gen_length]; decide
  rw [← h0, genCoeff, ← List.getElem_eq_getD (h := hlt)]
  exact List.getElem_mem hlt

end Sys2Proof.Proofs
end

section
/-! The polynomial and Reed-Solomon commands on operands that are written (42_poly_rs.md R174 to R181). -/

namespace Sys2Proof.Proofs

open Sys2Proof.Machine Sys2Proof.Safety

/-! ### Operands and results -/

theorem ok_bind {α β : Type} (a : α) (f : α → Attempt β) : ((.ok a : Attempt α) >>= f) = f a := rfl

theorem operandCount_of_le {hi : Nat} {a : Word} (h : a.toNat ≤ hi) : operandCount 0 hi a = .ok a.toNat := by
  obtain ⟨-, -, e⟩ | ⟨hn, -⟩ := Laws.operandCount_cases 0 hi a
  · exact e
  · exact absurd ⟨Nat.zero_le _, h⟩ hn

theorem readPa_eq_ok_iff {s : State} {p : List Byte} : readPa s = .ok p ↔ paHolds s p := Laws.readCells_ok _ _ _ _

theorem readPb_eq_ok_iff {s : State} {p : List Byte} : readPb s = .ok p ↔ pbHolds s p := Laws.readCells_ok _ _ _ _

theorem fitPoly_of_le {p : List Byte} (h : p.length ≤ 256) : fitPoly p = .ok p := if_neg h.not_gt

theorem fitPoly_of_lt {p : List Byte} (h : 256 < p.length) : fitPoly p = .error (.fault .capacity) := if_pos h

/-- Writing a list of cells from the first of a window on replaces exactly those (10_state.md R31). -/
theorem cellsReplaced_writeCells (m : Memory) {addr : Nat → Nat} (h : ∀ i, addr i = addr 0 + 4 * i) (p : List Byte) :
    cellsReplaced m (writeCells m (addr 0) p) addr p :=
  ⟨Laws.writeCells_holds m _ p, fun a ha =>
    Laws.read_writeCells_other m _ a p fun i hi => h i ▸ ha i hi⟩

theorem paAddr_eq (i : Nat) : paAddr i = paAddr 0 + 4 * i := rfl

theorem pbAddr_eq (i : Nat) : pbAddr i = pbAddr 0 + 4 * i := rfl

theorem prAddr_eq (i : Nat) : prAddr i = prAddr 0 + 4 * i := rfl

/-- A command that stored a polynomial of PR. -/
theorem exists_writePr {i : Instr} {s : State} {p : List Byte} (h : exec i s = .next (completed s (writePr s p))) :
    ∃ m', exec i s = .next (completed s { s.toResults with mem := m', prLen := p.length }) ∧
      cellsReplaced s.mem m' prAddr p :=
  ⟨_, h, cellsReplaced_writeCells s.mem prAddr_eq p⟩

/-! ### P_NORM -/

/-- A polynomial that fits is stored. -/
theorem conclude_fitPoly_of_le {i : Instr} {s : State} {p : List Byte} (h : p.length ≤ 256)
    (store : List Byte → Results) :
    conclude i s (fitPoly p >>= fun q => .ok (store q)) = .next (completed s (store p)) := by
  rw [fitPoly_of_le h, ok_bind, Laws.conclude_ok]

/-- A polynomial that does not fit raises CAPACITY (60_exceptions.md R286). -/
theorem conclude_fitPoly_of_lt {i : Instr} {s : State} {p : List Byte} (h : 256 < p.length)
    (f : List Byte → Attempt Results) : conclude i s (fitPoly p >>= f) = .next (faulted i .capacity s) := by
  rw [fitPoly_of_lt h]
  exact Laws.conclude_raise _ _ _

theorem exec_pNorm_pa {s : State} {p : List Byte} (h₀ : s.arg0 = 0) (h₁ : s.arg1.toNat ≤ 256) (hp : paHolds s p) :
    exec .pNorm s = conclude .pNorm s
      (fitPoly (normPoly p s.arg1.toNat) >>= fun q => .ok (writePa s q)) := by
  have hsel : operandSel s.arg0 = .ok false := by rw [h₀]; rfl
  simp only [exec, execPNorm, hsel, operandCount_of_le h₁, readPa_eq_ok_iff.2 hp]
  rfl

theorem exec_pNorm_pb {s : State} {p : List Byte} (h₀ : s.arg0 = 1) (h₁ : s.arg1.toNat ≤ 256) (hp : pbHolds s p) :
    exec .pNorm s = conclude .pNorm s
      (fitPoly (normPoly p s.arg1.toNat) >>= fun q => .ok (writePb s q)) := by
  have hsel : operandSel s.arg0 = .ok true := by rw [h₀]; rfl
  simp only [exec, execPNorm, hsel, operandCount_of_le h₁, readPb_eq_ok_iff.2 hp]
  rfl

/-- Settles O34: the selected polynomial is normalised, and `fitPoly` decides. -/
theorem pNormNormalisesTheSelectedBuffer : Obligations.PNormNormalisesTheSelectedBuffer := by
  refine fun s p h₁ => ⟨fun h₀ hp => ?_, fun h₀ hp => ?_⟩
  · rw [exec_pNorm_pa h₀ h₁ hp]
    exact ⟨fun hfit => ⟨_, conclude_fitPoly_of_le hfit _, cellsReplaced_writeCells s.mem paAddr_eq _⟩,
      fun hlong => conclude_fitPoly_of_lt hlong _⟩
  · rw [exec_pNorm_pb h₀ h₁ hp]
    exact ⟨fun hfit => ⟨_, conclude_fitPoly_of_le hfit _, cellsReplaced_writeCells s.mem pbAddr_eq _⟩,
      fun hlong => conclude_fitPoly_of_lt hlong _⟩

/-! ### P_MUL and P_MOD -/

theorem exec_pMul {s : State} {a b : List Byte} (ha : paHolds s a) (hb : pbHolds s b) :
    exec .pMul s = conclude .pMul s
      (if strip a ≠ [] ∧ strip b ≠ [] ∧ 256 < (strip a).length + (strip b).length - 1 then raise .capacity
        else .ok (writePr s (pmul a b))) := by
  simp only [exec, execPMul, readPa_eq_ok_iff.2 ha, readPb_eq_ok_iff.2 hb, normPoly_zero, pmul_strip]
  rfl

/-- Settles O36: the guard of `exec_pMul` is the case split. -/
theorem pMulWritesTheProduct : Obligations.PMulWritesTheProduct := by
  refine fun s a b ha hb => ⟨fun hfit => exists_writePr ?_, fun hlong => ?_⟩
  · have hguard : ¬(strip a ≠ [] ∧ strip b ≠ [] ∧ 256 < (strip a).length + (strip b).length - 1) := by
      rintro ⟨hna, hnb, hlt⟩
      exact hfit.elim hna (·.elim hnb hlt.not_ge)
    rw [exec_pMul ha hb, if_neg hguard, Laws.conclude_ok]
  · rw [exec_pMul ha hb, if_pos hlong]
    exact Laws.conclude_raise _ _ _

theorem exec_pMod {s : State} {a b : List Byte} (ha : paHolds s a) (hb : pbHolds s b) :
    exec .pMod s = conclude .pMod s (pmod a b >>= fun r => .ok (writePr s r)) := by
  simp only [exec, execPMod, readPa_eq_ok_iff.2 ha, readPb_eq_ok_iff.2 hb]
  rfl

/-- Settles O38: the three outcomes of `pmod`. -/
theorem pModWritesTheRemainder : Obligations.PModWritesTheRemainder := by
  refine fun s a b ha hb => ⟨fun hnil => ?_, fun hne h0 hlen => ?_, fun hne hdiv => ?_⟩
  · rw [exec_pMod ha hb, pmod_of_strip_nil a hnil]
    exact Laws.conclude_raise _ _ _
  · rw [exec_pMod ha hb, pmod_of_zero_mem hne h0 hlen]
    exact Laws.conclude_raise _ _ _
  · obtain ⟨r, hr⟩ : ∃ r, pmod a b = .ok r :=
      hdiv.elim (pmod_of_zero_notMem hne) fun hlt => ⟨_, pmod_of_length_lt hlt⟩
    have hexec : exec .pMod s = .next (completed s (writePr s r)) := by
      rw [exec_pMod ha hb, hr]
      rfl
    obtain ⟨m', h⟩ := exists_writePr hexec
    exact ⟨r, m', hr, h⟩

/-! ### P_GEN and RS_REM -/

/-- Settles O41: the generator has exactly `n + 1` coefficients. -/
theorem pGenWritesTheGenerator : Obligations.PGenWritesTheGenerator := by
  intro s hn
  refine ⟨_, ?_, cellsReplaced_writeCells s.mem pbAddr_eq _⟩
  simp only [exec, execPGen, operandCount_of_le hn]
  rw [← gen_length]
  rfl

theorem exec_rsRem {s : State} {d : List Byte} (hn : s.arg0.toNat ≤ 255) (hd : paHolds s d) :
    exec .rsRem s = conclude .rsRem s
      (fitPoly (normPoly d s.arg0.toNat) >>= fun p => pmod p (gen s.arg0.toNat) >>= fun r =>
        .ok (writePr s (rightAlign s.arg0.toNat r))) := by
  simp only [exec, execRsRem, operandCount_of_le hn, readPa_eq_ok_iff.2 hd]
  rfl

theorem rightAlign_of_length_le {n : Nat} {r : List Byte} (h : r.length ≤ n) :
    rightAlign n r = List.replicate (n - r.length) 0 ++ r := by
  rw [rightAlign, Nat.sub_eq_zero_of_le h, List.drop_zero]

/-- A remainder by the generator is at most `n` coefficients long. -/
theorem pmod_gen_length_le {p r : List Byte} {n : Nat} (h : pmod p (gen n) = .ok r) : r.length ≤ n := by
  have hlt := pmod_length_lt h
  rw [strip_gen, gen_length] at hlt
  omega

theorem strip_gen_ne_nil (n : Nat) : strip (gen n) ≠ [] := by
  obtain ⟨q, hq, -⟩ := gen_eq_cons n
  rw [strip_gen, hq]
  exact List.cons_ne_nil _ _

/-- Where the division by the generator raises nothing: no zero coefficient, or zero data (42_poly_rs.md R181). -/
theorem exists_pmod_gen {d : List Byte} {n : Nat} (h : n ≤ 254 ∨ strip d = []) :
    ∃ r, pmod (normPoly d n) (gen n) = .ok r := by
  obtain hn | hd := h
  · refine pmod_of_zero_notMem (strip_gen_ne_nil n) ?_
    rw [strip_gen]
    exact zero_notMem_gen hn
  · refine ⟨_, pmod_of_length_lt ?_⟩
    rw [normPoly_of_strip_nil hd, strip_replicate_zero]
    exact List.length_pos_of_ne_nil (strip_gen_ne_nil n)

/-- Settles O42: `fitPoly` decides CAPACITY, and the zero coefficients of the generator decide INVALID_FIELD_OP. -/
theorem rsRemWritesTheCodewords : Obligations.RsRemWritesTheCodewords := by
  refine fun s d hn hd => ⟨fun hlong => ?_, fun hfit h255 hne => ?_, fun hfit hok => ?_⟩
  · rw [exec_rsRem hn hd, conclude_fitPoly_of_lt ((normPoly_length d _).symm ▸ hlong)]
  · have hdiv : pmod (normPoly d s.arg0.toNat) (gen s.arg0.toNat) = .error (.fault .invalidFieldOp) := by
      refine pmod_of_zero_mem (strip_gen_ne_nil _) ?_ ?_
      · rw [strip_gen, h255]
        exact zero_mem_gen_255
      · have hpos := List.length_pos_of_ne_nil hne
        rw [strip_gen, gen_length, strip_normPoly hne, normPoly_length]
        omega
    rw [exec_rsRem hn hd, fitPoly_of_le ((normPoly_length d _).symm ▸ hfit)]
    rw [ok_bind, hdiv]
    exact Laws.conclude_raise _ _ _
  · obtain ⟨r, hr⟩ := exists_pmod_gen hok
    have hlen := pmod_gen_length_le hr
    have hexec : exec .rsRem s = .next (completed s (writePr s (rightAlign s.arg0.toNat r))) := by
      rw [exec_rsRem hn hd, fitPoly_of_le ((normPoly_length d _).symm ▸ hfit)]
      rw [ok_bind, hr]
      rfl
    obtain ⟨m', h, hcells⟩ := exists_writePr hexec
    rw [Laws.rightAlign_length] at h
    rw [rightAlign_of_length_le hlen] at hcells
    exact ⟨r, m', hr, hlen, h, hcells⟩

end Sys2Proof.Proofs
end

section
/-! Reads of unwritten cells: the commands stop at the first (10_state.md R42). -/

namespace Sys2Proof.Proofs

open Sys2Proof.Machine Sys2Proof.Safety

/-! ### Modules -/

/-- Both outcomes of reading a row: its modules are written, or the read stops at one that is not. -/
theorem readModules_cases (m : Memory) (r c n : Nat) :
    ((∃ row, readModules m r c n = .ok row) ∧ ∀ j, c ≤ j → j < c + n → (m.read (matAddr r j)).isSome) ∨
      ∃ j, c ≤ j ∧ j < c + n ∧ m.read (matAddr r j) = none ∧
        readModules m r c n = .error (.unwritten (matAddr r j)) := by
  induction n generalizing c with
  | zero => exact .inl ⟨⟨[], rfl⟩, fun j _ _ => by omega⟩
  | succ n ih =>
    obtain ⟨v, hv, e⟩ | ⟨hu, e⟩ := Laws.readCell_cases m (matAddr r c)
    · obtain ⟨⟨row, hrow⟩, hw⟩ | ⟨j, hj, hj', hu, hrow⟩ := ih (c + 1)
      · refine .inl ⟨⟨v.getLsbD 0 :: row, by rw [readModules, e, hrow]⟩, fun j hj hj' => ?_⟩
        obtain rfl | hlt := hj.eq_or_lt
        · rw [hv]; rfl
        · exact hw j hlt (by omega)
      · exact .inr ⟨j, by omega, by omega, hu, by rw [readModules, e, hrow]⟩
    · exact .inr ⟨c, le_rfl, by omega, hu, by rw [readModules, e]⟩

/-- Both outcomes of reading rows. -/
theorem readRows_cases (m : Memory) (n r k : Nat) :
    ((∃ rows, readRows m n r k = .ok rows) ∧
        ∀ i j, r ≤ i → i < r + k → j < n → (m.read (matAddr i j)).isSome) ∨
      ∃ i j, i < r + k ∧ j < n ∧ m.read (matAddr i j) = none ∧
        readRows m n r k = .error (.unwritten (matAddr i j)) := by
  induction k generalizing r with
  | zero => exact .inl ⟨⟨[], rfl⟩, fun i _ _ _ _ => by omega⟩
  | succ k ih =>
    obtain ⟨⟨row, hrow⟩, hw⟩ | ⟨j, -, hj, hu, hrow⟩ := readModules_cases m r 0 n
    · obtain ⟨⟨rows, hrows⟩, hw'⟩ | ⟨i, j, hi, hj, hu, hrows⟩ := ih (r + 1)
      · refine .inl ⟨⟨row :: rows, by rw [readRows, hrow, hrows]⟩, fun i j hi hi' hj => ?_⟩
        obtain rfl | hlt := hi.eq_or_lt
        · exact hw j (Nat.zero_le j) (by omega)
        · exact hw' i j hlt (by omega) hj
      · exact .inr ⟨i, j, by omega, hj, hu, by rw [readRows, hrow, hrows]⟩
    · exact .inr ⟨r, j, by omega, by omega, hu, by rw [readRows, hrow]⟩

/-- Both outcomes of scoring the square: it is written, or the score stops at a module that is not. -/
theorem matPenalty_cases (s : State) :
    (squareWritten s.mem s.matN ∧ ∃ p, matPenalty s = .ok p) ∨
      ∃ r c, r < s.matN ∧ c < s.matN ∧ s.mem.read (matAddr r c) = none ∧
        matPenalty s = .error (.unwritten (matAddr r c)) := by
  obtain ⟨⟨rows, hrows⟩, hw⟩ | ⟨r, c, hr, hc, hu, hrows⟩ := readRows_cases s.mem s.matN 0 s.matN
  · exact .inl ⟨fun r c hr hc => hw r c (Nat.zero_le r) (by omega) hc, _, by rw [matPenalty, hrows]⟩
  · exact .inr ⟨r, c, by omega, hc, hu, by rw [matPenalty, hrows]⟩

/-! ### Commands that stop -/

theorem argsLegal_iff_rsRem {s : State} : argsLegal .rsRem s = true ↔ s.arg0.toNat ≤ 255 := decide_eq_true_iff

theorem argsLegal_iff_pNorm {s : State} : argsLegal .pNorm s = true ↔ s.arg0.toNat ≤ 1 ∧ s.arg1.toNat ≤ 256 :=
  decide_eq_true_iff

theorem argsLegal_iff_selScore {s : State} : argsLegal .selScore s = true ↔ s.arg0.toNat ≤ 7 := decide_eq_true_iff

section
variable {s : State} {a : Nat} (h : readPa s = .error (.unwritten a))
include h

theorem exec_pMul_unwrittenPa : exec .pMul s = .fault (.unwrittenCell a) := by
  simp only [exec, execPMul, h]
  rfl

theorem exec_pMod_unwrittenPa : exec .pMod s = .fault (.unwrittenCell a) := by
  simp only [exec, execPMod, h]
  rfl

theorem exec_rsRem_unwrittenPa (hargs : argsLegal .rsRem s = true) : exec .rsRem s = .fault (.unwrittenCell a) := by
  simp only [exec, execRsRem, operandCount_of_le (argsLegal_iff_rsRem.1 hargs), h]
  rfl

theorem exec_pNorm_unwrittenPa (hargs : argsLegal .pNorm s = true) (h₀ : s.arg0 = 0) :
    exec .pNorm s = .fault (.unwrittenCell a) := by
  have hsel : operandSel s.arg0 = .ok false := by rw [h₀]; rfl
  simp only [exec, execPNorm, hsel, operandCount_of_le (argsLegal_iff_pNorm.1 hargs).2, h]
  rfl

end

section
variable {s : State} {a : Nat} (h : readPb s = .error (.unwritten a))
include h

theorem exec_pMul_unwrittenPb {p : List Byte} (hp : readPa s = .ok p) : exec .pMul s = .fault (.unwrittenCell a) := by
  simp only [exec, execPMul, hp, h]
  rfl

theorem exec_pMod_unwrittenPb {p : List Byte} (hp : readPa s = .ok p) : exec .pMod s = .fault (.unwrittenCell a) := by
  simp only [exec, execPMod, hp, h]
  rfl

theorem exec_pNorm_unwrittenPb (hargs : argsLegal .pNorm s = true) (h₀ : s.arg0 = 1) :
    exec .pNorm s = .fault (.unwrittenCell a) := by
  have hsel : operandSel s.arg0 = .ok true := by rw [h₀]; rfl
  simp only [exec, execPNorm, hsel, operandCount_of_le (argsLegal_iff_pNorm.1 hargs).2, h]
  rfl

end

/-- A window whose cells are all written is read. -/
theorem exists_readCells {m : Memory} {a n : Nat} (h : ∀ j < n, (m.read (a + 4 * j)).isSome) :
    ∃ p, readCells m a n = .ok p := by
  cases hr : readCells m a n with
  | ok p => exact ⟨p, rfl⟩
  | error e =>
    obtain ⟨i, hi, hu, -⟩ := Laws.readCells_error m a n e hr
    exact absurd (h i hi) (by rw [hu]; decide)

/-- Settles O27: the operands are read in order, PA before PB, and the first unwritten cell ends the command. -/
theorem unwrittenCellsStopTheModel : Obligations.UnwrittenCellsStopTheModel := by
  refine ⟨fun s k hk hw hu => ?_, fun s k hk hw hu => ?_, fun s hs => ?_⟩
  · have hpa : readPa s = .error (.unwritten (paAddr k)) := Laws.readCells_unwritten _ _ _ k hk hw hu
    exact ⟨exec_pMul_unwrittenPa hpa, exec_pMod_unwrittenPa hpa, exec_rsRem_unwrittenPa hpa,
      exec_pNorm_unwrittenPa hpa⟩
  · have hpb : readPb s = .error (.unwritten (pbAddr k)) := Laws.readCells_unwritten _ _ _ k hk hw hu
    refine ⟨fun hpa => ?_, exec_pNorm_unwrittenPb hpb⟩
    obtain ⟨p, hp⟩ := exists_readCells hpa
    exact ⟨exec_pMul_unwrittenPb hpb hp, exec_pMod_unwrittenPb hpb hp⟩
  · obtain ⟨hw, -⟩ | ⟨r, c, hr, hc, hu, e⟩ := matPenalty_cases s
    · exact absurd hw hs
    refine ⟨r, c, hr, hc, hu, ?_, fun hargs => ?_⟩
    · simp only [exec, execPenalty, e]
      rfl
    · simp only [exec, execSelScore, operandCount_of_le (argsLegal_iff_selScore.1 hargs), e]
      rfl

end Sys2Proof.Proofs
end

section
/-! What each command can write: its effect on the state it reads, one row of 20_memory.md R68 at a time, and the faults
it can raise (60_exceptions.md R281). -/

namespace Sys2Proof.Proofs

open Sys2Proof.Machine Sys2Proof.Safety
open Relation (ReflTransGen)

/-! ### Partial correctness of an attempt -/

/-- The value of an attempt, where it gives one, meets `post`; its fault, where it raises one, is a command's. -/
def Meets {α : Type} (x : Attempt α) (post : α → Prop) : Prop :=
  match x with
  | .ok a => post a
  | .error (.fault cause) => outcomeSound (.fault cause)
  | .error (.unwritten _) => True

theorem meets_pure {α : Type} {post : α → Prop} {a : α} (h : post a) : Meets (pure a) post := h

theorem meets_bind {α β : Type} {x : Attempt α} {f : α → Attempt β} {post : α → Prop} {post' : β → Prop}
    (hx : Meets x post) (hf : ∀ a, post a → Meets (f a) post') : Meets (x >>= f) post' := by
  match x with
  | .ok a => exact hf a hx
  | .error (.fault cause) => exact hx
  | .error (.unwritten _) => trivial

theorem meets_mono {α : Type} {x : Attempt α} {post post' : α → Prop} (hx : Meets x post)
    (h : ∀ a, post a → post' a) : Meets x post' := by
  match x with
  | .ok a => exact h a hx
  | .error (.fault cause) => exact hx
  | .error (.unwritten _) => trivial

theorem meets_raise {α : Type} {post : α → Prop} {cause : Cause} (h : 1 ≤ causeCode cause ∧ causeCode cause ≤ 5) :
    Meets (raise cause) post := h

/-! ### Operands and buffers -/

theorem meets_operand (k : OperandKind) (a : Word) : Meets (operand k a) fun _ => True := by
  obtain ⟨-, e⟩ | ⟨-, e⟩ := Laws.operand_cases k a <;> rw [e]
  · trivial
  · exact meets_raise (by decide)

theorem meets_operandInt (a : Word) : Meets (operandInt a) fun _ => True := trivial

theorem meets_operandElem (a : Word) : Meets (operandElem a) fun _ => True := by
  obtain ⟨-, e⟩ | ⟨-, e⟩ := Laws.operandElem_cases a <;> rw [e]
  · trivial
  · exact meets_raise (by decide)

theorem meets_operandBit (a : Word) : Meets (operandBit a) fun _ => True := by
  obtain ⟨-, e⟩ | ⟨-, e⟩ := Laws.operandBit_cases a <;> rw [e]
  · trivial
  · exact meets_raise (by decide)

theorem meets_operandSel (a : Word) : Meets (operandSel a) fun _ => True := by
  obtain ⟨-, e⟩ | ⟨-, e⟩ := Laws.operandSel_cases a <;> rw [e]
  · trivial
  · exact meets_raise (by decide)

theorem meets_operandCount (lo hi : Nat) (a : Word) : Meets (operandCount lo hi a) (· ≤ hi) := by
  obtain ⟨-, h, e⟩ | ⟨-, e⟩ := Laws.operandCount_cases lo hi a <;> rw [e]
  · exact h
  · exact meets_raise (by decide)

theorem meets_glog (x : Byte) : Meets (glog x) fun _ => True := by
  obtain ⟨-, e⟩ | ⟨-, e⟩ := Laws.glog_cases x <;> rw [e]
  · exact meets_raise (by decide)
  · trivial

theorem meets_readCells (m : Memory) (a n : Nat) : Meets (readCells m a n) (·.length = n) := by
  cases h : readCells m a n with
  | ok p => exact ((Laws.readCells_ok m a n p).1 h).1
  | error e =>
    obtain ⟨i, -, -, rfl⟩ := Laws.readCells_error m a n e h
    trivial

theorem meets_fitPoly (p : List Byte) : Meets (fitPoly p) (·.length ≤ 256) := by
  rcases Nat.lt_or_ge 256 p.length with h | h
  · rw [fitPoly_of_lt h]
    exact meets_raise (by decide)
  · rw [fitPoly_of_le h]
    exact h

theorem meets_pmod (a b : List Byte) : Meets (pmod a b) (·.length ≤ a.length) := by
  obtain ⟨-, e⟩ | ⟨-, -, -, e⟩ | ⟨-, -, r, e⟩ := pmod_cases a b <;> rw [e]
  · exact meets_raise (by decide)
  · exact meets_raise (by decide)
  · exact Laws.pmod_length a b r e

theorem meets_matPenalty (s : State) : Meets (matPenalty s) fun _ => True := by
  obtain ⟨-, p, e⟩ | ⟨r, c, -, -, -, e⟩ := matPenalty_cases s <;> rw [e] <;> trivial

theorem meets_fitBits (len limit : Nat) : Meets (fitBits len limit) fun _ => len ≤ limit := by
  unfold fitBits
  split_ifs with h
  · exact meets_raise (by decide)
  · exact Nat.le_of_not_lt h

/-! ### The packer -/

/-- One bit is appended to a stream that has room for it (43_bitbuf.md R200). -/
def AppendsBit (r t : Results) : Prop := r.bbLen < 32768 ∧ ∃ b, appendBit b r = .ok t

/-- An append stops only at an unwritten byte. -/
theorem appendBit_error {b : Bool} {r : Results} {e : Stop} (h : appendBit b r = .error e) : ∃ a, e = .unwritten a := by
  unfold appendBit appendTarget at h
  obtain ⟨v, -, hread⟩ | ⟨-, hread⟩ := Laws.readCell_cases r.mem (bbAddr (r.bbLen / 8)) <;> rw [hread] at h
  · split_ifs at h
  · split_ifs at h
    cases h
    exact ⟨_, rfl⟩

theorem meets_appendBit (b : Bool) {r : Results} (h : r.bbLen < 32768) :
    Meets (appendBit b r) fun t => AppendsBit r t ∧ t.bbLen = r.bbLen + 1 := by
  cases e : appendBit b r with
  | ok t =>
    obtain ⟨v, -, ht⟩ := Laws.appendBit_ok b r t e
    exact ⟨⟨h, b, e⟩, by rw [ht]⟩
  | error stop =>
    obtain ⟨a, rfl⟩ := appendBit_error e
    trivial

/-- `t` is `r` with `n` bits in the stream, appended one after the other. -/
def GrowsTo (r : Results) (n : Nat) (t : Results) : Prop := ReflTransGen AppendsBit r t ∧ t.bbLen = n

theorem GrowsTo.trans {r t u : Results} {n k : Nat} (h : GrowsTo r n t) (h' : GrowsTo t k u) : GrowsTo r k u :=
  ⟨h.1.trans h'.1, h'.2⟩

theorem meets_appendBits (v k : Nat) {r : Results} (h : r.bbLen + k ≤ 32768) :
    Meets (appendBits v k r) (GrowsTo r (r.bbLen + k)) := by
  induction k generalizing r with
  | zero => exact ⟨.refl, rfl⟩
  | succ k ih =>
    have hbind : appendBits v (k + 1) r = appendBit (v.testBit k) r >>= appendBits v k := by
      rw [appendBits]
      cases appendBit (v.testBit k) r <;> rfl
    rw [hbind]
    refine meets_bind (meets_appendBit _ (by omega)) fun t ⟨ht, hlen⟩ => ?_
    refine meets_mono (ih (by omega)) fun u hu => ⟨.head ht hu.1, ?_⟩
    rw [hu.2]
    omega

theorem meets_padBytes (t₀ n : Nat) {r : Results} (h : r.bbLen + 8 * n ≤ 32768) :
    Meets (padBytes t₀ n r) (GrowsTo r (r.bbLen + 8 * n)) := by
  induction n generalizing t₀ r with
  | zero => exact ⟨.refl, rfl⟩
  | succ n ih =>
    have hbind : padBytes t₀ (n + 1) r = appendBits (padByte t₀) 8 r >>= padBytes (t₀ + 1) n := by
      rw [padBytes]
      cases appendBits (padByte t₀) 8 r <;> rfl
    rw [hbind]
    refine meets_bind (meets_appendBits _ 8 (by omega)) fun t ht => ?_
    have hlen := ht.2
    refine meets_mono (ih _ (by omega)) fun u hu => ht.trans ⟨hu.1, ?_⟩
    rw [hu.2]
    omega

theorem meets_padTo {c : Nat} (hc : c ≤ 4096) {r : Results} (h : r.bbLen ≤ 8 * c) :
    Meets (padTo c r) (ReflTransGen AppendsBit r) := by
  have hbind : padTo c r = terminator c r >>= fun r₁ => alignByte r₁ >>= fun r₂ =>
      padBytes 0 (c - r₂.bbLen / 8) r₂ := by
    unfold padTo
    cases terminator c r with
    | error e => rfl
    | ok r₁ =>
      dsimp only [ok_bind]
      cases alignByte r₁ <;> rfl
  have hterm : Meets (terminator c r) fun r₁ => ReflTransGen AppendsBit r r₁ ∧ r₁.bbLen ≤ 8 * c := by
    unfold terminator
    split_ifs with hroom
    · exact meets_mono (meets_appendBits 0 4 (by omega)) fun r₁ h₁ => ⟨h₁.1, h₁.2.le.trans hroom⟩
    · exact ⟨.refl, h⟩
  rw [hbind]
  refine meets_bind hterm fun r₁ ⟨h₁, hlen₁⟩ => ?_
  refine meets_bind (meets_appendBits 0 _ (by omega)) fun r₂ ⟨h₂, hlen₂⟩ => ?_
  exact meets_mono (meets_padBytes 0 _ (by omega)) fun t ht => (h₁.trans h₂).trans ht.1

/-! ### The commands -/

/-- What a command that completes writes: a polynomial with its length, one result, bits of the stream, modules, or
the scores (20_memory.md R68). -/
inductive CommandEffect (s : State) : Instr → Results → Prop
  | nop : CommandEffect s .nop s.toResults
  | result {i : Instr}
      (hi : i = .gfExp ∨ i = .gfLog ∨ i = .gfMul ∨ i = .bchFmt ∨ i = .bchVer ∨ i = .maskEval) (v : Word) :
      CommandEffect s i (withResult s v)
  | pa {p : List Byte} (hp : p.length ≤ 256) : CommandEffect s .pNorm (writePa s p)
  | pb {i : Instr} (hi : i = .pNorm ∨ i = .pGen) {p : List Byte} (hp : p.length ≤ 256) :
      CommandEffect s i (writePb s p)
  | pr {i : Instr} (hi : i = .pMul ∨ i = .pMod ∨ i = .rsRem) {p : List Byte} (hp : p.length ≤ 256) :
      CommandEffect s i (writePr s p)
  | clear : CommandEffect s .bbClear { s.toResults with bbLen := 0 }
  | bits {i : Instr} (hi : i = .bbPut ∨ i = .bbPutBit ∨ i = .bbPad) {r : Results}
      (hr : ReflTransGen AppendsBit s.toResults r) : CommandEffect s i r
  | fill (b : Bool) : CommandEffect s .matFill { s.toResults with mem := fillCells s.mem matAddrs (if b then 1 else 0) }
  | penalty (p : Nat) : CommandEffect s .penalty (withPenalty s p)
  | selReset : CommandEffect s .selReset { s.toResults with bestValid := false, bestPenalty := 0, bestMask := 0 }
  | selScore (p : Nat) (m : BitVec 3) :
      CommandEffect s .selScore (keepBest (BitVec.ofNat 32 p) m (withPenalty s p))

/-- Every command is concluded from an attempt with its effect. P_MOD's remainder is no longer than PA. -/
theorem exec_effect (i : Instr) {s : State} (h : s.paLen ≤ 256) :
    ∃ x, exec i s = conclude i s x ∧ Meets x (CommandEffect s i) := by
  cases i with
  | nop => exact ⟨.ok _, rfl, CommandEffect.nop⟩
  | gfExp => exact ⟨_, rfl, meets_bind (meets_operandInt s.arg0) fun _ _ => meets_pure (.result (by decide) _)⟩
  | gfLog =>
    exact ⟨_, rfl, meets_bind (meets_operandElem _) fun _ _ => meets_bind (meets_glog _) fun _ _ =>
      .result (by decide) _⟩
  | gfMul =>
    exact ⟨_, rfl, meets_bind (meets_operandElem _) fun _ _ => meets_bind (meets_operandElem _) fun _ _ =>
      .result (by decide) _⟩
  | pNorm =>
    refine ⟨_, rfl, meets_bind (meets_operandSel _) fun sel _ => meets_bind (meets_operandCount ..) fun shift _ => ?_⟩
    cases sel with
    | false =>
      exact meets_bind (meets_readCells ..) fun _ _ => meets_bind (meets_fitPoly _) fun _ hp => .pa hp
    | true =>
      exact meets_bind (meets_readCells ..) fun _ _ => meets_bind (meets_fitPoly _) fun _ hp => .pb (by decide) hp
  | pMul =>
    refine ⟨_, rfl, meets_bind (meets_readCells ..) fun a _ => meets_bind (meets_readCells ..) fun b _ => ?_⟩
    simp only [normPoly_zero, pmul_strip]
    split_ifs with hlong
    · exact meets_raise (by decide)
    · exact meets_pure (.pr (by decide) (pmul_length_le hlong))
  | pMod =>
    exact ⟨_, rfl, meets_bind (meets_readCells ..) fun a ha => meets_bind (meets_readCells ..) fun b _ =>
      meets_bind (meets_pmod a b) fun r hr => .pr (by decide) (hr.trans (ha.le.trans h))⟩
  | pGen =>
    exact ⟨_, rfl, meets_bind (meets_operandCount ..) fun n hn =>
      .pb (by decide) ((gen_length n).trans_le (by omega))⟩
  | rsRem =>
    refine ⟨_, rfl, meets_bind (meets_operandCount ..) fun n hn => meets_bind (meets_readCells ..) fun _ _ =>
      meets_bind (meets_fitPoly _) fun d _ => meets_bind (meets_pmod ..) fun r _ => .pr (by decide) ?_⟩
    rw [Laws.rightAlign_length]
    omega
  | bbClear => exact ⟨.ok _, rfl, CommandEffect.clear⟩
  | bbPut =>
    exact ⟨_, rfl, meets_bind (meets_operand ..) fun _ _ => meets_bind (meets_operandCount ..) fun _ _ =>
      meets_bind (meets_fitBits ..) fun _ hfit => meets_mono (meets_appendBits _ _ hfit) fun _ hr =>
        .bits (by decide) hr.1⟩
  | bbPutBit =>
    exact ⟨_, rfl, meets_bind (meets_operandBit _) fun _ _ => meets_bind (meets_fitBits ..) fun _ hfit =>
      meets_mono (meets_appendBit _ hfit) fun _ hr => .bits (by decide) (.single hr.1)⟩
  | bbPad =>
    exact ⟨_, rfl, meets_bind (meets_operandCount ..) fun _ hc => meets_bind (meets_fitBits ..) fun _ hfit =>
      meets_mono (meets_padTo hc hfit) fun _ hr => .bits (by decide) hr⟩
  | bchFmt => exact ⟨_, rfl, meets_bind (meets_operandCount ..) fun _ _ => .result (by decide) _⟩
  | bchVer => exact ⟨_, rfl, meets_bind (meets_operandCount ..) fun _ _ => .result (by decide) _⟩
  | maskEval =>
    exact ⟨_, rfl, meets_bind (meets_operandCount ..) fun _ _ => meets_bind (meets_operandCount ..) fun _ _ =>
      meets_bind (meets_operandCount ..) fun _ _ => .result (by decide) _⟩
  | matFill => exact ⟨_, rfl, meets_bind (meets_operandBit _) fun b _ => .fill b⟩
  | penalty => exact ⟨_, rfl, meets_bind (meets_matPenalty s) fun p _ => .penalty p⟩
  | selReset => exact ⟨.ok _, rfl, CommandEffect.selReset⟩
  | selScore =>
    exact ⟨_, rfl, meets_bind (meets_operandCount ..) fun m _ => meets_bind (meets_matPenalty s) fun p _ =>
      .selScore p _⟩

end Sys2Proof.Proofs
end

section
/-! What a command leaves unchanged (20_memory.md R68). -/

namespace Sys2Proof.Proofs

open Sys2Proof.Machine Sys2Proof.Safety
open Relation (ReflTransGen)

/-- Whatever a command answers, it has completed with its effect or raised a command's fault. -/
theorem exec_next_effect {i : Instr} {s t : State} (hlen : s.paLen ≤ 256) (h : exec i s = .next t) :
    (∃ r, CommandEffect s i r ∧ t = completed s r) ∨
      ∃ cause, outcomeSound (.fault cause) ∧ t = faulted i cause s := by
  obtain ⟨x, hx, hmeets⟩ := exec_effect i hlen
  rw [hx] at h
  obtain ⟨r, rfl, rfl⟩ | ⟨cause, rfl, rfl⟩ := Laws.conclude_next i s t x h
  · exact .inl ⟨r, hmeets, rfl⟩
  · exact .inr ⟨cause, hmeets, rfl⟩

/-! ### The memory -/

/-- A write of a list of cells of a window keeps every cell outside it. -/
theorem read_writeCells_of_not_inWindow (m : Memory) {addr : Nat → Nat} (haddr : ∀ i, addr i = addr 0 + 4 * i)
    {p : List Byte} {n a : Nat} (hp : p.length ≤ n) (ha : ¬inWindow addr n a) :
    (writeCells m (addr 0) p).read a = m.read a :=
  Laws.read_writeCells_other m _ a p fun i hi e => ha ⟨i, hi.trans_le hp, e.trans (haddr i).symm⟩

/-- Appending bits writes BBUF and BB_LEN only. -/
theorem appendsBit_frame {r t : Results} (h : ReflTransGen AppendsBit r t) :
    (∃ m n, t = { r with mem := m, bbLen := n }) ∧
      ∀ a, ¬inWindow bbAddr Config.bbBytes a → t.mem.read a = r.mem.read a := by
  induction h with
  | refl => exact ⟨⟨r.mem, r.bbLen, rfl⟩, fun _ _ => rfl⟩
  | @tail u t _ hstep ih =>
    obtain ⟨⟨m, n, rfl⟩, hmem⟩ := ih
    obtain ⟨hroom, b, e⟩ := hstep
    obtain ⟨v, -, rfl⟩ := Laws.appendBit_ok _ _ _ e
    refine ⟨⟨_, _, rfl⟩, fun a ha => ?_⟩
    rw [← hmem a ha]
    refine Laws.read_write_other _ _ _ _ fun heq => ha ⟨n / 8, ?_, heq.symm⟩
    exact Nat.div_lt_of_lt_mul hroom

theorem effect_memory {s : State} {i : Instr} {r : Results} (h : CommandEffect s i r) {a : Nat} (ha : ¬mayWrite i a) :
    r.mem.read a = s.mem.read a := by
  cases h with
  | nop | result | clear | penalty | selReset => rfl
  | pa hp => exact read_writeCells_of_not_inWindow _ paAddr_eq hp fun hw => ha (.inl hw)
  | pb hi hp =>
    refine read_writeCells_of_not_inWindow _ pbAddr_eq hp fun hw => ha ?_
    obtain rfl | rfl := hi
    · exact .inr hw
    · exact hw
  | pr hi hp =>
    refine read_writeCells_of_not_inWindow _ prAddr_eq hp fun hw => ha ?_
    obtain rfl | rfl | rfl := hi <;> exact hw
  | bits hi hr =>
    refine (appendsBit_frame hr).2 a fun hw => ha ?_
    obtain rfl | rfl | rfl := hi <;> exact hw
  | fill b =>
    have hnot : a ∉ matAddrs := fun hm => ha ((Laws.mem_matAddrs a).1 hm)
    simp only [Laws.read_fillCells, if_neg hnot]
  | selScore p m =>
    unfold keepBest
    split_ifs <;> rfl

/-! ### The registers -/

theorem effect_registers {s : State} {i : Instr} {r : Results} (h : CommandEffect s i r) :
    (i ∉ [.gfExp, .gfLog, .gfMul, .bchFmt, .bchVer, .maskEval, .penalty, .selScore] → r.result = s.result) ∧
    (i ≠ .pNorm → r.paLen = s.paLen) ∧
    (i ∉ [.pNorm, .pGen] → r.pbLen = s.pbLen) ∧
    (i ∉ [.pMul, .pMod, .rsRem] → r.prLen = s.prLen) ∧
    (i ∉ [.bbClear, .bbPut, .bbPutBit, .bbPad] → r.bbLen = s.bbLen) ∧
    (i ∉ [.penalty, .selScore] → r.penalty = s.penalty) ∧
    (i ∉ [.selReset, .selScore] →
      r.bestPenalty = s.bestPenalty ∧ r.bestMask = s.bestMask ∧ r.bestValid = s.bestValid) := by
  cases h with
  | nop => simp
  | result hi v => obtain rfl | rfl | rfl | rfl | rfl | rfl := hi <;> simp [withResult]
  | pa hp => simp [writePa]
  | pb hi hp => obtain rfl | rfl := hi <;> simp [writePb]
  | pr hi hp => obtain rfl | rfl | rfl := hi <;> simp [writePr]
  | clear => simp
  | bits hi hr =>
    obtain ⟨⟨m, n, rfl⟩, -⟩ := appendsBit_frame hr
    obtain rfl | rfl | rfl := hi <;> simp
  | fill b => simp
  | penalty p => simp [withPenalty]
  | selReset => simp
  | selScore p m =>
    unfold keepBest
    split_ifs <;> simp [withPenalty]

/-- Settles O26: a fault changes no result, and an effect keeps what its row does not name. -/
theorem commandsWriteOnlyTheirState : Obligations.CommandsWriteOnlyTheirState := by
  intro i s t hlen h
  obtain ⟨r, hr, rfl⟩ | ⟨cause, -, rfl⟩ := exec_next_effect hlen h
  · obtain ⟨hresult, hpa, hpb, hpr, hbb, hpen, hbest⟩ := effect_registers hr
    exact ⟨⟨rfl, rfl, rfl, rfl, rfl, rfl, rfl, rfl⟩, hresult, hpa, hpb, hpr, hbb, hpen, hbest,
      fun a ha => effect_memory hr ha⟩
  · exact ⟨⟨rfl, rfl, rfl, rfl, rfl, rfl, rfl, rfl⟩, fun _ => rfl, fun _ => rfl, fun _ => rfl, fun _ => rfl,
      fun _ => rfl, fun _ => rfl, fun _ => ⟨rfl, rfl, rfl⟩, fun _ _ => rfl⟩

end Sys2Proof.Proofs
end

section
/-! The invariants of the results: every effect of a command, and every window write of the host, keeps them
(10_state.md R30 to R41). -/

namespace Sys2Proof.Proofs

open Sys2Proof.Machine Sys2Proof.Safety
open Relation (ReflTransGen)

/-! ### Appending a bit keeps the byte view -/

theorem getLsbD_setBit {i j : Nat} (hi : i < 8) (hj : j < 8) (v : Byte) (b : Bool) :
    (setBit v i b).getLsbD j = if j = i then b else v.getLsbD j := by
  have hmask : ((1 <<< i : Nat) : Byte).getLsbD j = decide (j = i) :=
    (by decide : ∀ i < 8, ∀ j < 8, ((1 <<< i : Nat) : Byte).getLsbD j = decide (j = i)) i hi j hj
  cases b
  · simp only [setBit, Bool.false_eq_true, if_false, BitVec.getLsbD_and, BitVec.getLsbD_not, hmask, hj]
    by_cases hij : j = i <;> simp [hij]
  · simp only [setBit, if_true, BitVec.getLsbD_or, hmask]
    by_cases hij : j = i <;> simp [hij]

theorem streamBit_write (m : Memory) (q : Nat) (v : Byte) (p : Nat) :
    streamBit (m.write (bbAddr q) v) p = if p / 8 = q then some (v.getLsbD (7 - p % 8)) else streamBit m p := by
  have haddr : bbAddr q = bbAddr (p / 8) ↔ p / 8 = q := by unfold bbAddr; omega
  unfold streamBit
  rw [Laws.read_write]
  split_ifs <;> simp_all

/-- Past the end of the stream the byte an append works on is 0 (43_bitbuf.md R200, 10_state.md R33). -/
theorem appendTarget_zero_past {r : Results} {v : Byte} (hview : viewSound r) (hv : appendTarget r = .ok v) {p : Nat}
    (hp : p / 8 = r.bbLen / 8) (hle : r.bbLen ≤ p) : v.getLsbD (7 - p % 8) = false := by
  obtain ⟨-, rfl⟩ | ⟨hmod, hread⟩ := Laws.appendTarget_ok r v hv
  · exact BitVec.getLsbD_zero
  · have hbit := hview.2 p hle (by unfold viewBytes; omega)
    rw [streamBit, hp, hread] at hbit
    exact Option.some.inj hbit

theorem viewSound_appendBit {b : Bool} {r t : Results} (hview : viewSound r) (h : appendBit b r = .ok t) :
    viewSound t := by
  obtain ⟨v, hv, rfl⟩ := Laws.appendBit_ok b r t h
  refine ⟨fun p hp => ?_, fun p hp hp' => ?_⟩
  · rw [streamBit_write]
    split_ifs with hbyte
    · rfl
    · exact hview.1 p (by simp only at hp; omega)
  · simp only [viewBytes] at hp hp'
    have hbyte : p / 8 = r.bbLen / 8 := by omega
    rw [streamBit_write, if_pos hbyte, getLsbD_setBit (by omega) (by omega), if_neg (by omega),
      appendTarget_zero_past hview hv hbyte (by omega)]

theorem resultsSound_appendBit {r t : Results} (hr : ResultsSound r) (h : AppendsBit r t) : ResultsSound t := by
  obtain ⟨hroom, b, hb⟩ := h
  have hview := viewSound_appendBit hr.view hb
  obtain ⟨v, -, rfl⟩ := Laws.appendBit_ok b r t hb
  have hcell := Laws.isCellAddr_bb (r.bbLen / 8) (by omega)
  exact { hr with
    canonical := Laws.write_wf _ _ _ hr.canonical
    cells := Laws.cellsSound_write _ _ _ hr.cells hcell (.inl (by unfold bbAddr; omega))
    bbLen := hroom
    view := hview }

/-! ### Writing the other windows -/

/-- A new memory that is canonical, holds only cells, and has the same BBUF, keeps the invariants. -/
theorem resultsSound_withMem {r : Results} (hr : ResultsSound r) {m : Memory} (hwf : m.wf)
    (hcells : cellsSound m = true)
    (hbb : ∀ a, inWindow bbAddr 4096 a → m.read a = r.mem.read a) : ResultsSound { r with mem := m } := by
  have hlen : r.bbLen ≤ 32768 := hr.bbLen
  have hbit : ∀ p, p < 32768 → streamBit m p = streamBit r.mem p := fun p hp => by
    rw [streamBit, hbb _ ⟨p / 8, by omega, rfl⟩, streamBit]
  refine { hr with canonical := hwf, cells := hcells, view := ⟨fun p hp => ?_, fun p hp hp' => ?_⟩ }
  · rw [hbit p (hp.trans_le hlen)]
    exact hr.view.1 p hp
  · rw [hbit p (by simp only [viewBytes] at hp'; omega)]
    exact hr.view.2 p hp hp'

/-- Writing a list of cells below BBUF keeps the invariants. -/
theorem resultsSound_writeCells {r : Results} (hr : ResultsSound r) {a : Nat} {p : List Byte}
    (ha : ∀ i < p.length, isCellAddr (a + 4 * i) = true ∧ a + 4 * i < 0x4000) :
    ResultsSound { r with mem := writeCells r.mem a p } := by
  refine resultsSound_withMem hr (Laws.writeCells_wf _ _ _ hr.canonical)
    (Laws.cellsSound_writeCells _ _ _ hr.cells fun i hi => ⟨(ha i hi).1, by have := (ha i hi).2; omega⟩) ?_
  rintro _ ⟨j, -, rfl⟩
  refine Laws.read_writeCells_other _ _ _ _ fun i hi e => ?_
  have := (ha i hi).2
  unfold bbAddr at e
  omega

theorem cellsSound_fillCells {m : Memory} {addrs : List Nat} {v : Byte} (hm : cellsSound m = true)
    (ha : ∀ a ∈ addrs, isCellAddr a = true) (hv : v.toNat ≤ 1) : cellsSound (fillCells m addrs v) = true := by
  induction addrs with
  | nil => exact hm
  | cons a rest ih =>
    have hrest := ih fun b hb => ha b (List.mem_cons_of_mem a hb)
    exact Laws.cellsSound_write _ a v hrest (ha a List.mem_cons_self) (.inr hv)

theorem resultsSound_fillModules {r : Results} (hr : ResultsSound r) {v : Byte} (hv : v.toNat ≤ 1) :
    ResultsSound { r with mem := fillCells r.mem matAddrs v } := by
  have hcell : ∀ a ∈ matAddrs, isCellAddr a = true := fun a ha => by
    obtain ⟨i, c, hi, hc, rfl⟩ := (Laws.mem_matAddrs a).1 ha
    exact Laws.isCellAddr_mat i c hi hc
  refine resultsSound_withMem hr (Laws.fillCells_wf _ _ _ hr.canonical) (cellsSound_fillCells hr.cells hcell hv) ?_
  intro a ha
  have hnot : a ∉ matAddrs := fun hm => by
    obtain ⟨j, hj, rfl⟩ := ha
    obtain ⟨i, c, -, -, e⟩ := (Laws.mem_matAddrs _).1 hm
    unfold bbAddr matAddr at e
    omega
  rw [Laws.read_fillCells, if_neg hnot]

/-! ### Every effect of a command -/

theorem resultsSound_effect {s : State} {i : Instr} {r : Results} (hs : ResultsSound s.toResults)
    (h : CommandEffect s i r) : ResultsSound r := by
  cases h with
  | nop => exact hs
  | result hi v => exact { hs with }
  | pa hp =>
    exact { resultsSound_writeCells hs fun i hi =>
      ⟨Laws.isCellAddr_pa i (hi.trans_le hp), by omega⟩ with paLen := hp }
  | pb hi hp =>
    exact { resultsSound_writeCells hs fun i hi =>
      ⟨Laws.isCellAddr_pb i (hi.trans_le hp), by omega⟩ with pbLen := hp }
  | pr hi hp =>
    exact { resultsSound_writeCells hs fun i hi =>
      ⟨Laws.isCellAddr_pr i (hi.trans_le hp), by omega⟩ with prLen := hp }
  | clear =>
    exact { hs with
      bbLen := Nat.zero_le _
      view := ⟨fun p hp => absurd hp (Nat.not_lt_zero p), fun p _ hp => absurd hp (by simp [viewBytes])⟩ }
  | bits hi hr =>
    clear hi
    induction hr with
    | refl => exact hs
    | tail _ hstep ih => exact resultsSound_appendBit ih hstep
  | fill b => exact resultsSound_fillModules hs (by cases b <;> decide)
  | penalty p => exact { hs with }
  | selReset => exact { hs with best := fun _ => ⟨rfl, rfl⟩ }
  | selScore p m =>
    unfold keepBest
    split_ifs
    · exact { hs with best := fun h => Bool.noConfusion h }
    · exact { hs with }

/-! ### A window write of the host -/

/-- The host writes a coefficient of PA or PB, or a module by its bit (20_memory.md R63, R64). -/
theorem resultsSound_writeWindow {s : State} (hs : ResultsSound s.toResults) {a : Addr} (ha : a.toNat % 4 = 0)
    {bits : Nat} (hl : locate a.toNat = some (.cell bits true)) (v : Word) :
    ResultsSound (writeWindow bits a v s).toResults := by
  have hcell : isCellAddr a.toNat = true := by simp [isCellAddr, ha, hl]
  have hvalue : a.toNat < 0x10000 ∨ (cellBits bits (v.setWidth 8)).toNat ≤ 1 := by
    obtain ⟨r, -, e⟩ | ⟨hw, -⟩ | ⟨-, e⟩ | ⟨-, e⟩ | ⟨-, e⟩ := locate_cases ha
    · rw [hl] at e; cases e
    · left
      rw [inWindow_paAddr_iff ha, inWindow_pbAddr_iff ha] at hw
      omega
    · rw [hl] at e; cases e
    · right
      rw [hl] at e
      cases e
      exact Nat.and_le_right
    · rw [hl] at e; cases e
  refine resultsSound_withMem hs (Laws.write_wf _ _ _ hs.canonical)
    (Laws.cellsSound_write _ _ _ hs.cells hcell hvalue) ?_
  intro b hb
  refine Laws.read_write_other _ _ _ _ fun e => ?_
  rw [e, locate_bbAddr hb] at hl
  cases hl

end Sys2Proof.Proofs
end

section
/-! Every step keeps the invariants of the whole state (10_state.md R24 to R41). -/

namespace Sys2Proof.Proofs

open Sys2Proof.Machine Sys2Proof.Safety

/-! ### Faults and acceptance -/

theorem sound_recordFault {s : State} (hs : Sound s) {cause : Cause} (hc : cause ≠ .none) (info : Word) :
    Sound (recordFault cause info s) := by
  unfold recordFault
  split_ifs
  · exact hs
  · exact { hs with noRecord := fun h => Bool.noConfusion h, record := fun _ => hc }

theorem sound_clearFault {s : State} (hs : Sound s) : Sound (clearFault s) :=
  { hs with noRecord := fun _ => ⟨rfl, rfl⟩, record := fun h => Bool.noConfusion h }

theorem sound_launch {s : State} (hs : Sound s) {o : CommandOutcome} (ho : outcomeSound o) (w : Word) :
    Sound (launch w o s) :=
  { hs with
    busy := rfl
    notDone := fun _ => rfl
    outcome := fun f hf => by
      cases Option.some.inj hf
      exact ho }

theorem outcomeSound_fault_ne_none {cause : Cause} (h : outcomeSound (.fault cause)) : cause ≠ .none := by
  rintro rfl
  exact absurd h.1 (by decide)

theorem sound_complete {s : State} (hs : Sound s) : Sound (complete s) := by
  obtain ⟨-, e⟩ | ⟨⟨w, o⟩, hf, e⟩ := Laws.complete_cases s <;> rw [e]
  · exact hs
  have ho := hs.outcome _ hf
  cases o with
  | ok r =>
    exact { hs with
      results := ho
      busy := rfl
      notDone := fun h => Bool.noConfusion h
      outcome := fun _ h => by cases h }
  | fault cause =>
    have hidle : Sound { flagsFaulted s with inflight := none } :=
      { hs with busy := rfl, notDone := fun _ => rfl, outcome := fun _ h => by cases h }
    exact sound_recordFault hidle (outcomeSound_fault_ne_none ho) w

/-- The outcome of a command accepted with no fault recorded is sound. -/
theorem outcomeSound_exec {i : Instr} {s t : State} (hs : Sound s) (hf : s.faultFlag = false) (h : exec i s = .next t) :
    outcomeSound (outcomeOf t) := by
  obtain ⟨r, hr, rfl⟩ | ⟨cause, hc, rfl⟩ := exec_next_effect hs.results.paLen h
  · exact resultsSound_effect hs.results hr
  · simpa [outcomeOf, hf] using hc

theorem sound_issue {s t : State} (hs : Sound s) {w : Word} (h : issue w s = .next t) : Sound t := by
  obtain ⟨-, e⟩ | ⟨-, -, e⟩ | ⟨hf, i, -, ⟨u, hu, e⟩ | ⟨r, -, e⟩ | ⟨r, -, e⟩⟩ := Laws.issue_cases w s <;>
    rw [e] at h <;> cases h
  · exact hs
  · exact sound_launch (o := .fault .illegalCommand) hs ⟨by decide, by decide⟩ w
  · exact sound_launch hs (outcomeSound_exec hs hf hu) w

/-! ### Host accesses -/

theorem sound_hostRead {s : State} (hs : Sound s) (a : Addr) (width : Nat) : Sound (hostRead a width s) := by
  have hrefuse : ∀ cause, cause ≠ .none → Sound (refuseRead cause a s) := fun cause hc =>
    { sound_recordFault hs hc (addrWord a) with }
  obtain ⟨e, -⟩ | ⟨loc, -, -, ⟨-, -, e⟩ | ⟨-, e⟩⟩ := Laws.hostRead_cases a width s <;> rw [e]
  · exact hrefuse _ (by decide)
  · exact hrefuse _ (by decide)
  · exact { hs with }

theorem sound_writeReg {s t : State} (hs : Sound s) {r : Reg} {a : Addr} {v : Word} (h : writeReg r a v s = .next t) :
    Sound t := by
  have hrefuse : Sound (refuseWrite .regValue a s) := sound_recordFault hs (by decide) _
  cases r with
  | cmd => exact sound_issue hs h
  | status =>
    cases h
    split_ifs
    · exact sound_clearFault hs
    · exact hs
  | arg0 | arg1 | arg2 => cases h; exact { hs with }
  | paLen =>
    cases h
    split_ifs with hv
    · exact { hs with results := { hs.results with paLen := of_decide_eq_true hv } }
    · exact hrefuse
  | pbLen =>
    cases h
    split_ifs with hv
    · exact { hs with results := { hs.results with pbLen := of_decide_eq_true hv } }
    · exact hrefuse
  | matN =>
    cases h
    split_ifs with hv
    · exact { hs with matN := of_decide_eq_true hv }
    · exact hrefuse
  | id | faultCause | faultInfo | result | prLen | bbLen | penalty | bestPenalty | bestMask => cases h; exact hs

theorem sound_hostWrite {s t : State} (hs : Sound s) {a : Addr} {width : Nat} {v : Word}
    (h : hostWrite a width v s = .next t) : Sound t := by
  obtain ⟨e, -⟩ | ⟨loc, hform, hl, ⟨-, e⟩ | ⟨-, -, e⟩ | ⟨-, hw, ⟨r, -, e⟩ | ⟨bits, w, rfl, e⟩⟩⟩ :=
    Laws.hostWrite_cases a width v s <;> rw [e] at h
  · cases h; exact sound_recordFault hs (by decide) _
  · cases h; exact sound_recordFault hs (by decide) _
  · cases h; exact sound_recordFault hs (by decide) _
  · exact sound_writeReg hs h
  · cases h
    obtain rfl : w = true := hw
    have ha : a.toNat % 4 = 0 := by simpa [accessFormed] using (Bool.and_eq_true_iff.1 hform).2
    exact { hs with results := resultsSound_writeWindow hs.results ha hl v }

/-! ### Events -/

theorem sound_releaseReset {s : State} (hs : Sound s) : Sound (releaseReset s) := by
  unfold releaseReset
  split_ifs
  · exact sound_resetWith ..
  · exact hs

theorem sound_busEvent {s t : State} (hs : Sound s) {e : BusEvent} (h : busEvent e s = .next t) : Sound t := by
  cases e with
  | read a width =>
    cases h
    split_ifs
    · exact { hs with }
    · exact sound_hostRead hs a width
  | write a width v =>
    unfold busEvent at h
    split_ifs at h
    · cases h; exact hs
    · exact sound_hostWrite hs h
  | complete => cases h; exact sound_complete hs
  | assertReset => cases h; exact sound_resetWith ..
  | releaseReset => cases h; exact sound_releaseReset hs

/-- Settles O3: a step is a completion or an event, and each keeps `Sound`. -/
theorem everyStepKeepsTheStateSound : Obligations.EveryStepKeepsTheStateSound := by
  intro s t hs h
  obtain ⟨-, e⟩ | ⟨ev, rest, -, e⟩ := Laws.step_cases s <;> rw [e] at h
  · cases h; exact sound_complete hs
  · exact sound_busEvent (s := { s with bus := rest }) { hs with } h

end Sys2Proof.Proofs
end

section
/-! The greatest penalty of a square (45_mask_penalty.md R242 to R246). -/

namespace Sys2Proof.Proofs

open Sys2Proof.Machine Sys2Proof.Safety

/-! ### Sums over lists of one length -/

theorem sum_map_le {α : Type} (l : List α) (f : α → Nat) {bound : Nat} (h : ∀ x ∈ l, f x ≤ bound) :
    (l.map f).sum ≤ l.length * bound := by
  have hsum := List.sum_le_card_nsmul (l.map f) bound fun y hy => by
    obtain ⟨x, hx, rfl⟩ := List.mem_map.1 hy
    exact h x hx
  simpa using hsum

/-! ### The four rules -/

/-- The runs of a line score at most two less than the modules they cover. -/
theorem sum_runScore_runsFrom_le (colour : Bool) (len : Nat) (line : List Bool) :
    ((runsFrom colour len line).map runScore).sum ≤ len + line.length - 2 := by
  have hrun : ∀ n, runScore n ≤ n - 2 := fun n => by unfold runScore; split <;> omega
  induction line generalizing colour len with
  | nil => simpa [runsFrom] using hrun len
  | cons b rest ih =>
    unfold runsFrom
    split
    · have := ih colour (len + 1)
      rw [List.length_cons]
      omega
    · have := ih b 1
      have := hrun len
      rw [List.map_cons, List.sum_cons, List.length_cons]
      omega

theorem lineRunScore_le (line : List Bool) : lineRunScore line ≤ line.length - 2 := by
  cases line with
  | nil => exact Nat.le_refl 0
  | cons b rest =>
    have h := sum_runScore_runsFrom_le b 1 rest
    rwa [Nat.add_comm 1] at h

/-- The finder-like pattern needs seven modules, so the last six positions of a line hold none. -/
theorem finderCount_le (line : List Bool) : finderCount line ≤ line.length - 6 := by
  induction line with
  | nil => exact Nat.le_refl 0
  | cons b rest ih =>
    unfold finderCount
    split_ifs with h
    · have hpattern : finderPattern <+: b :: rest := by simpa using h
      have hlen := hpattern.length_le
      simp only [finderPattern, List.length_cons, List.length_nil] at hlen ⊢
      omega
    · rw [List.length_cons]
      omega

/-- A square has two lines for each of its `n` rows and columns, of `n` modules each. -/
theorem sum_linesOf_le (m : Nat → Nat → Bool) (n : Nat) {score : List Bool → Nat} {bound : Nat}
    (h : ∀ line, line.length = n → score line ≤ bound) : ((linesOf m n).map score).sum ≤ 2 * n * bound := by
  have hlen : (linesOf m n).length = 2 * n := by simp [linesOf]; omega
  rw [← hlen]
  refine sum_map_le _ _ fun line hline => h line ?_
  simp only [linesOf, List.mem_append, List.mem_map, List.mem_range] at hline
  obtain ⟨r, -, rfl⟩ | ⟨c, -, rfl⟩ := hline <;> simp

theorem penA_le (m : Nat → Nat → Bool) (n : Nat) : penA m n ≤ 2 * n * (n - 2) :=
  sum_linesOf_le m n fun line h => h ▸ lineRunScore_le line

theorem penC_le (m : Nat → Nat → Bool) (n : Nat) : penC m n ≤ 40 * (2 * n * (n - 6)) :=
  Nat.mul_le_mul_left 40 (sum_linesOf_le m n fun line h => h ▸ finderCount_le line)

theorem sum_countP_range_le (n k : Nat) (p : Nat → Nat → Bool) :
    ((List.range n).map fun r => (List.range k).countP (p r)).sum ≤ n * k := by
  have h := sum_map_le (List.range n) (fun r => (List.range k).countP (p r)) (bound := k) fun r _ =>
    List.countP_le_length.trans_eq (List.length_range)
  rwa [List.length_range] at h

theorem penB_le (m : Nat → Nat → Bool) (n : Nat) : penB m n ≤ 3 * ((n - 1) * (n - 1)) :=
  Nat.mul_le_mul_left 3 (sum_countP_range_le (n - 1) (n - 1) (uniformBlock m))

theorem darkCount_le (m : Nat → Nat → Bool) (n : Nat) : darkCount m n ≤ n * n := sum_countP_range_le n n m

theorem penD_le (m : Nat → Nat → Bool) (n : Nat) : penD m n ≤ 100 := by
  have hdark := darkCount_le m n
  have hdiff : (((20 * darkCount m n : Nat) : Int) - ((10 * n ^ 2 : Nat) : Int)).natAbs ≤ 10 * n ^ 2 := by
    rw [pow_two]
    omega
  exact Nat.mul_le_mul_left 10 (Nat.div_le_of_le_mul (hdiff.trans_eq (Nat.mul_comm _ _)))

theorem penaltyOf_le (m : Nat → Nat → Bool) {n : Nat} (h : n ≤ 177) : penaltyOf m n ≤ 2576338 := by
  have hA : 2 * n * (n - 2) ≤ 2 * 177 * 175 := Nat.mul_le_mul (by omega) (by omega)
  have hB : (n - 1) * (n - 1) ≤ 176 * 176 := Nat.mul_le_mul (by omega) (by omega)
  have hC : 2 * n * (n - 6) ≤ 2 * 177 * 171 := Nat.mul_le_mul (by omega) (by omega)
  have := penA_le m n
  have := penB_le m n
  have := penC_le m n
  have := penD_le m n
  unfold penaltyOf
  omega

/-- Settles O55: each rule is bounded on its own, and the bounds grow with the side. -/
theorem penaltyFitsItsRegister : Obligations.PenaltyFitsItsRegister := fun m n h =>
  have hle := penaltyOf_le m h
  ⟨hle, Nat.mod_eq_of_lt (hle.trans_lt (by decide))⟩

end Sys2Proof.Proofs
end

section
/-! The windows: what a cell keeps of the word written to it, and permitted reads (20_memory.md R63 to R65, R71). -/

namespace Sys2Proof.Proofs

open Sys2Proof.Machine Sys2Proof.Safety

/-! ### What a cell returns -/

theorem toNat_zext32_cellBits_eight (v : Byte) : (zext32 (cellBits 8 v)).toNat = v.toNat :=
  BitVec.toNat_setWidth_of_le (by decide)

theorem toNat_zext32_cellBits_one (v : Byte) : (zext32 (cellBits 1 v)).toNat = v.toNat % 2 := by
  have hmod : (v &&& 1).toNat = v.toNat % 2 := Nat.and_two_pow_sub_one_eq_mod v.toNat 1
  rw [← hmod]
  exact BitVec.toNat_setWidth_of_le (by decide)

/-- A coefficient reads back as the low 8 bits of the word written. -/
theorem zext32_cellBits_eight_setWidth (v : Word) : zext32 (cellBits 8 (v.setWidth 8)) = v &&& 0xFF := by
  refine BitVec.eq_of_toNat_eq ((toNat_zext32_cellBits_eight _).trans ?_)
  rw [BitVec.toNat_setWidth]
  exact (Nat.and_two_pow_sub_one_eq_mod v.toNat 8).symm

/-- A module reads back as bit 0 of the word written. -/
theorem zext32_cellBits_one_setWidth (v : Word) : zext32 (cellBits 1 (v.setWidth 8)) = v &&& 1 := by
  refine BitVec.eq_of_toNat_eq ((toNat_zext32_cellBits_one _).trans ?_)
  rw [BitVec.toNat_setWidth, Nat.mod_mod_of_dvd _ (by decide)]
  exact (Nat.and_two_pow_sub_one_eq_mod v.toNat 1).symm

@[simp] theorem cellBits_cellBits (bits : Nat) (v : Byte) : cellBits bits (cellBits bits v) = cellBits bits v := by
  unfold cellBits
  split_ifs
  · rw [BitVec.and_assoc, BitVec.and_self]
  · rfl

/-- The byte kept is the low byte of the word that reads back. -/
@[simp] theorem setWidth_zext32 (v : Byte) : (zext32 v).setWidth 8 = v := BitVec.setWidth_setWidth_of_le v (by decide)

theorem readWindow_of_read {bits a : Nat} {s : State} {v : Byte} (h : s.mem.read a = some v) :
    readWindow bits a s = zext32 (cellBits bits v) := by
  rw [readWindow, h]

/-- Written or not, a cell returns a value of its width. -/
theorem exists_readWindow (bits a : Nat) (s : State) : ∃ v, readWindow bits a s = zext32 (cellBits bits v) := by
  unfold readWindow
  cases s.mem.read a with
  | some v => exact ⟨v, rfl⟩
  | none => exact ⟨_, rfl⟩

/-! ### Permitted reads -/

/-- The step of a permitted read returns `readLoc`, busy or not. -/
theorem step_readLoc {s : State} {a : Addr} {loc : Loc} {rest : List BusEvent} (hr : s.inReset = false)
    (ha : a.toNat % 4 = 0) (hl : locate a.toNat = some loc) (hp : s.busy = false ∨ busyExempt loc = true)
    (h : s.bus = .read a 4 :: rest) : step s = .next { s with bus := rest, readData := readLoc loc a.toNat s } := by
  have hread : hostRead a 4 { s with bus := rest } =
      { s with bus := rest, readData := readLoc loc a.toNat { s with bus := rest } } := by
    rcases hp with hp | hp <;> simp [hostRead, accessFormed, ha, hl, hp]
  rw [step_read hr h, hread]
  cases loc <;> rfl

/-- Settles O17: two reads by `step_readLoc`, of a value that depends on neither the events nor the last word read. -/
theorem permittedReadsHaveNoSideEffect : Obligations.PermittedReadsHaveNoSideEffect := by
  intro s a loc rest hr hl ha hp h
  have hfirst := step_readLoc hr ha hl hp h
  have hsecond : step { s with bus := .read a 4 :: rest, readData := readLoc loc a.toNat s } =
      .next { s with bus := rest, readData := readLoc loc a.toNat s } := by
    rw [step_readLoc (s := { s with bus := .read a 4 :: rest, readData := _ }) hr ha hl hp rfl]
    cases loc <;> rfl
  refine ⟨_, hfirst, (run_succ_of_step hfirst).trans (run_succ_of_step hsecond), ?_, ?_, ?_, ?_⟩
  · rintro r rfl
    rfl
  · rintro w v rfl hv
    rw [readLoc, readWindow_of_read hv, toNat_zext32_cellBits_eight]
  · rintro w v rfl hv
    rw [readLoc, readWindow_of_read hv, toNat_zext32_cellBits_one]
  · refine fun w => ⟨?_, ?_⟩ <;> rintro rfl
    · obtain ⟨v, hv⟩ := exists_readWindow 8 a.toNat s
      rw [readLoc, hv, toNat_zext32_cellBits_eight]
      exact v.isLt
    · obtain ⟨v, hv⟩ := exists_readWindow 1 a.toNat s
      rw [readLoc, hv, toNat_zext32_cellBits_one]
      exact Nat.mod_lt _ (by decide)

/-! ### A cell written and read back -/

/-- A cell of a writable window keeps the low bits of the word written, and they read back. -/
theorem run_write_read_cell {s : State} {bits : Nat} {a : Addr} {v : Word} {rest : List BusEvent}
    (hb : s.busy = false) (hr : s.inReset = false) (ha : a.toNat % 4 = 0)
    (hl : locate a.toNat = some (.cell bits true)) (h : s.bus = .write a 4 v :: .read a 4 :: rest) :
    run 2 s = .next { s with
      bus := rest
      mem := s.mem.write a.toNat (cellBits bits (v.setWidth 8))
      readData := zext32 (cellBits bits (v.setWidth 8)) } := by
  have hread : readWindow bits a.toNat (writeWindow bits a v { s with bus := .read a 4 :: rest }) =
      zext32 (cellBits bits (v.setWidth 8)) := by
    rw [readWindow_of_read (Laws.read_write_same s.mem _ _), cellBits_cellBits]
  have hsecond := step_readLoc (s := writeWindow bits a v { s with bus := .read a 4 :: rest }) hr ha hl (.inl hb) rfl
  rw [readLoc, hread] at hsecond
  exact (run_succ_of_step (step_writeWindow hb hr ha hl h)).trans (run_succ_of_step hsecond)

theorem aligned_of_inMat {a : Nat} (h : inMat a) : a % 4 = 0 := by
  obtain ⟨r, c, -, -, rfl⟩ := h
  unfold matAddr
  omega

theorem aligned_of_inPolynomialWindow {a : Nat} (h : inWindow paAddr 256 a ∨ inWindow pbAddr 256 a) : a % 4 = 0 := by
  obtain ⟨i, -, rfl⟩ | ⟨i, -, rfl⟩ := h <;> simp only [paAddr, pbAddr] <;> omega

/-- Nothing is mapped past the 20 address bits. -/
theorem lt_of_locate_eq_some {a : Nat} {loc : Loc} (h : locate a = some loc) : a < 2 ^ 20 := by
  by_contra hge
  rw [locate, if_neg (by omega), if_neg (by omega), if_neg (by omega), if_neg (by omega), if_neg (by omega),
    if_neg (by omega)] at h
  cases h

/-- Settles O16: `run_write_read_cell` at the width of the window. -/
theorem windowWriteThenReadReturnsTheLowBits : Obligations.WindowWriteThenReadReturnsTheLowBits := by
  intro s a v rest hb hr h low hw
  obtain ⟨bits, ha, hl, rfl⟩ : ∃ bits, a % 4 = 0 ∧ locate a = some (.cell bits true) ∧
      low = zext32 (cellBits bits (v.setWidth 8)) := by
    obtain ⟨hw, rfl⟩ | ⟨hw, rfl⟩ := hw
    · exact ⟨8, aligned_of_inPolynomialWindow hw, hw.elim locate_paAddr locate_pbAddr,
        (zext32_cellBits_eight_setWidth v).symm⟩
    · exact ⟨1, aligned_of_inMat hw, locate_inMat hw, (zext32_cellBits_one_setWidth v).symm⟩
  have haddr : (BitVec.ofNat 20 a).toNat = a := Nat.mod_eq_of_lt (lt_of_locate_eq_some hl)
  have hrun := run_write_read_cell (bits := bits) hb hr (haddr.symm ▸ ha) (haddr.symm ▸ hl) h
  rw [haddr] at hrun
  refine ⟨_, hrun, ?_, fun b hne => Laws.read_write_other _ _ _ _ hne.symm⟩
  rw [Laws.read_write_same, setWidth_zext32]

end Sys2Proof.Proofs
end

section
/-! A command in flight: no host access disturbs it (20_memory.md R74, R77, 70_reset_and_hazards.md R330). -/

namespace Sys2Proof.Proofs

open Sys2Proof.Machine Sys2Proof.Safety

/-! ### Accesses while BUSY = 1 -/

theorem refuseRead_eq_recorded (cause : Cause) (a : Addr) (s : State) :
    refuseRead cause a s = { recorded cause a s with readData := 0 } := by
  rw [← refuseWrite_eq_recorded]
  rfl

/-- What host accesses can make of a busy unit, the events `rest` still to come: only the word last read differs, or
also one fault is recorded. -/
inductive AfterAccesses (s : State) (rest : List BusEvent) : State → Prop
  | allowed (data : Word) : AfterAccesses s rest { s with bus := rest, readData := data }
  | refused (cause : Cause) (a : Addr) (data : Word) :
    AfterAccesses s rest { recorded cause a s with bus := rest, readData := data }

/-- A fault recorded over a standing one leaves the first (60_exceptions.md R290). -/
theorem AfterAccesses.trans {s t u : State} {rest rest' : List BusEvent} (hst : AfterAccesses s rest t)
    (htu : AfterAccesses t rest' u) : AfterAccesses s rest' u := by
  cases hst with
  | allowed data =>
    cases htu with
    | allowed data' => exact .allowed data'
    | refused cause a data' => exact .refused cause a data'
  | refused cause a data =>
    cases htu <;> exact .refused cause a _

/-- One access while BUSY = 1, outside reset. -/
theorem step_busy_access {s : State} {e : BusEvent} {rest : List BusEvent} (hb : s.busy = true)
    (hr : s.inReset = false) (h : s.bus = e :: rest) (he : isAccess e = true) :
    ∃ t, step s = .next t ∧ AfterAccesses s rest t := by
  cases e with
  | read a width =>
    refine ⟨_, step_read hr h, ?_⟩
    obtain ⟨e, -⟩ | ⟨loc, -, -, ⟨-, -, e⟩ | ⟨-, e⟩⟩ := Laws.hostRead_cases a width { s with bus := rest } <;> rw [e]
    · rw [refuseRead_eq_recorded]
      exact .refused .address a 0
    · rw [refuseRead_eq_recorded]
      exact .refused .busyAccess a 0
    · exact .allowed _
  | write a width v =>
    rw [step_write hr h]
    obtain ⟨e, -⟩ | ⟨loc, -, -, ⟨-, e⟩ | ⟨hidle, -⟩ | ⟨hidle, -⟩⟩ :=
      Laws.hostWrite_cases a width v { s with bus := rest }
    · exact ⟨_, e, refuseWrite_eq_recorded _ _ _ ▸ .refused .address a s.readData⟩
    · exact ⟨_, e, refuseWrite_eq_recorded _ _ _ ▸ .refused .busyAccess a s.readData⟩
    · exact absurd hidle (by simp [hb])
    · exact absurd hidle (by simp [hb])
  | complete | assertReset | releaseReset => cases he

/-- In reset an access changes only the model's own fields (70_reset_and_hazards.md R320). -/
theorem step_inReset_access {s : State} {e : BusEvent} {rest : List BusEvent} (hr : s.inReset = true)
    (h : s.bus = e :: rest) (he : isAccess e = true) :
    ∃ d n, step s = .next { s with bus := rest, readData := d, freeCount := n } := by
  rw [step_of_bus h]
  cases e with
  | read a width => exact ⟨_, _, congrArg Host.Outcome.next (if_pos hr)⟩
  | write a width v => exact ⟨s.readData, s.freeCount, if_pos hr⟩
  | complete | assertReset | releaseReset => cases he

/-- Settles O11: in reset an access is ignored, and outside it `AfterAccesses` holds. -/
theorem nothingIsVisibleBeforeCompletion : Obligations.NothingIsVisibleBeforeCompletion := by
  intro s t e rest hb h he hstep
  cases hr : s.inReset with
  | true =>
    obtain ⟨d, n, hu⟩ := step_inReset_access hr h he
    cases hstep.symm.trans hu
    exact ⟨rfl, rfl, hb, rfl, rfl, rfl, rfl, rfl⟩
  | false =>
    obtain ⟨u, hu, hafter⟩ := step_busy_access hb hr h he
    cases hstep.symm.trans hu
    cases hafter <;> exact ⟨rfl, rfl, hb, rfl, rfl, rfl, rfl, rfl⟩

/-- Any accesses while BUSY = 1, outside reset. -/
theorem run_busy_accesses {s : State} {es rest : List BusEvent} (hb : s.busy = true) (hr : s.inReset = false)
    (h : s.bus = es ++ rest) (hes : es.all isAccess = true) :
    ∃ t, AfterAccesses s rest t ∧ ∀ n, run (es.length + n) s = run n t := by
  induction es generalizing s with
  | nil =>
    obtain rfl : s.bus = rest := h
    exact ⟨s, .allowed s.readData, fun n => by rw [List.length_nil, Nat.zero_add]⟩
  | cons e es ih =>
    rw [List.all_cons, Bool.and_eq_true] at hes
    obtain ⟨u, hu, hafter⟩ := step_busy_access hb hr h hes.1
    obtain ⟨hub, hur, hubus⟩ : u.busy = true ∧ u.inReset = false ∧ u.bus = es ++ rest := by
      cases hafter <;> exact ⟨hb, hr, rfl⟩
    obtain ⟨t, ht, hrun⟩ := ih hub hur hubus hes.2
    refine ⟨t, hafter.trans ht, fun n => ?_⟩
    rw [List.length_cons, Nat.add_right_comm, run_succ_of_step hu, hrun]

/-! ### Acceptance -/

theorem decode_encode (i : Instr) : decode (encode i) = .ok i := by cases i <;> rfl

/-- A command reads nothing of the events to come: the same attempt is concluded. -/
theorem exec_conclude_withBus (i : Instr) (s : State) (b : List BusEvent) :
    ∃ x, exec i s = conclude i s x ∧ exec i { s with bus := b } = conclude i { s with bus := b } x := by
  cases i with
  | nop => exact ⟨.ok s.toResults, rfl, rfl⟩
  | gfExp => exact ⟨.ok (withResult s (zext32 (gexp (sint32 s.arg0)))), rfl, rfl⟩
  | bbClear => exact ⟨.ok { s.toResults with bbLen := 0 }, rfl, rfl⟩
  | selReset => exact ⟨.ok { s.toResults with bestValid := false, bestMask := 0, bestPenalty := 0 }, rfl, rfl⟩
  | _ => exact ⟨_, rfl, rfl⟩

theorem exec_withBus {i : Instr} {s t : State} (h : exec i s = .next t) (b : List BusEvent) :
    exec i { s with bus := b } = .next { t with bus := b } := by
  obtain ⟨x, hx, hx'⟩ := exec_conclude_withBus i s b
  rw [hx] at h
  rw [hx']
  obtain ⟨r, rfl, rfl⟩ | ⟨cause, rfl, rfl⟩ := Laws.conclude_next i s t x h
  · rfl
  · exact Laws.conclude_raise ..

/-- A command that answers a next state is accepted by a ready unit, with the outcome it shows. -/
theorem step_cmdWrite {s t : State} {i : Instr} {rest : List BusEvent} (hs : Ready s) (hexec : exec i s = .next t)
    (h : s.bus = cmdWrite (encode i) :: rest) :
    step s = .next (launch (encode i) (outcomeOf t) { s with bus := rest }) := by
  obtain ⟨hb, -, hf, hr⟩ := hs
  rw [step_writeReg (r := .cmd) hb hr rfl rfl h, writeReg, issue, if_neg (by simp [hf]), accept, decode_encode]
  simp only [exec_withBus hexec rest]
  rfl

/-! ### Completion -/

theorem outcomeOf_completed (s : State) (r : Results) : outcomeOf (completed s r) = .ok r := rfl

theorem outcomeOf_faulted {s : State} (hs : s.faultFlag = false) (i : Instr) (cause : Cause) :
    outcomeOf (faulted i cause s) = .fault cause := by
  simp [outcomeOf, faulted, hs]

theorem run_one_of_complete {s : State} {f : Flight} (h : s.bus = [.complete]) (hf : s.inflight = some f) :
    run 1 s = .next (finish f.word f.outcome { s with bus := [] }) := by
  have hstep : step s = .next (complete { s with bus := [] }) := step_of_bus h
  rw [run_succ_of_step hstep, complete]
  simp only [hf]
  rfl

/-- Settles O10: accepted by `step_cmdWrite`, kept by `run_busy_accesses`, and completed with the outcome. -/
theorem hostAccessesDoNotDisturbACommandInFlight : Obligations.HostAccessesDoNotDisturbACommandInFlight := by
  intro s i t es hs hexec hes h
  have ⟨_, _, hf, hr⟩ := hs
  obtain ⟨v, hv, haccesses⟩ := run_busy_accesses
    (s := launch (encode i) (outcomeOf t) { s with bus := es ++ [.complete] }) rfl hr rfl hes
  obtain ⟨hvbus, hvflight⟩ : v.bus = [.complete] ∧ v.inflight = some ⟨encode i, outcomeOf t⟩ := by
    cases hv <;> exact ⟨rfl, rfl⟩
  have hrun : run (es.length + 2) s = .next (finish (encode i) (outcomeOf t) { v with bus := [] }) :=
    (run_succ_of_step (step_cmdWrite hs hexec h)).trans ((haccesses 1).trans (run_one_of_complete hvbus hvflight))
  refine ⟨_, hrun, ?_⟩
  obtain ⟨r, rfl⟩ | ⟨cause, rfl⟩ := Laws.exec_next i s t hexec
  · rw [outcomeOf_completed, Laws.finish_ok]
    cases hv with
    | allowed data => exact ⟨rfl, rfl, rfl, rfl, rfl, rfl, rfl, rfl, rfl, fun _ => rfl⟩
    | refused cause a data => exact ⟨rfl, rfl, rfl, rfl, rfl, rfl, rfl, rfl, rfl, fun hn => Bool.noConfusion hn⟩
  · rw [outcomeOf_faulted hf, Laws.finish_fault]
    cases hv <;> exact ⟨rfl, rfl, rfl, rfl, rfl, rfl, rfl, rfl, rfl, fun hn => Bool.noConfusion hn⟩

end Sys2Proof.Proofs
end

section
/-! PROOFS of the encoding (30_encoding.md R101 to R103): the words that decode are the command words. -/

namespace Sys2Proof.Proofs

/-- R101, R102: `decode` accepts a word exactly where its reserved field is 0 and its opcode has a row in the map. -/
theorem decode_eq_ok_iff {w : Word} {i : Instr} :
    decode w = .ok i ↔ (rawCommand w).rsv = 0 ∧ opcodeMap.lookup (rawCommand w).opc = some i := by
  rw [decode]
  by_cases hrsv : (rawCommand w).rsv = 0
  · rw [if_neg (not_not_intro hrsv)]
    cases opcodeMap.lookup (rawCommand w).opc <;> simp [hrsv]
  · rw [if_pos hrsv]
    exact iff_of_false nofun fun h => hrsv h.1

/-- The map and `opcode` are the same table, read in the two directions. -/
theorem opcode_of_mem_opcodeMap : ∀ row ∈ opcodeMap, opcode row.2 = row.1 := by decide

theorem opcode_of_lookup_opcodeMap {b : BitVec 8} {i : Instr} (h : opcodeMap.lookup b = some i) : opcode i = b := by
  obtain ⟨front, back, hmap, -⟩ := List.lookup_eq_some_iff.mp h
  exact opcode_of_mem_opcodeMap (b, i) (hmap ▸ List.mem_append_right front List.mem_cons_self)

/-- R100: a word whose reserved field is 0 is its opcode, zero-extended. -/
theorem setWidth_opc_of_rsv_eq_zero {w : Word} (h : (rawCommand w).rsv = 0) : (rawCommand w).opc.setWidth 32 = w := by
  simp only [rawCommand] at h ⊢
  bv_omega

theorem encode_of_decode {w : Word} {i : Instr} (h : decode w = .ok i) : encode i = w := by
  obtain ⟨hrsv, hopc⟩ := decode_eq_ok_iff.mp h
  calc encode i = (rawCommand w).opc.setWidth 32 := by rw [encode, opcode_of_lookup_opcodeMap hopc]
    _ = w := setWidth_opc_of_rsv_eq_zero hrsv

/-- Settles O5: a word that decodes is its command's word (`encode_of_decode`), and that word decodes to the command. -/
theorem decodingAcceptsExactlyTheCommandWords : Obligations.DecodingAcceptsExactlyTheCommandWords := by
  intro w i
  constructor
  · exact fun h => (encode_of_decode h).symm
  · rintro rfl
    exact decode_encode i

/-- Settles O4, by the round trip of each command. -/
theorem everyCommandDecodesFromItsWord : Obligations.EveryCommandDecodesFromItsWord := decode_encode

/-- Settles O6: each of the twenty words unfolds from `encode` of its command; the two refused words are evaluated. -/
theorem specWordsDecodeToTheirCommands : Obligations.SpecWordsDecodeToTheirCommands :=
  ⟨⟨decode_encode .nop, decode_encode .gfExp, decode_encode .gfLog, decode_encode .gfMul⟩,
    ⟨decode_encode .pNorm, decode_encode .pMul, decode_encode .pMod, decode_encode .pGen, decode_encode .rsRem⟩,
    ⟨decode_encode .bbClear, decode_encode .bbPut, decode_encode .bbPutBit, decode_encode .bbPad⟩,
    ⟨decode_encode .bchFmt, decode_encode .bchVer⟩,
    ⟨decode_encode .maskEval, decode_encode .matFill, decode_encode .penalty, decode_encode .selReset,
      decode_encode .selScore⟩, rfl, rfl⟩

end Sys2Proof.Proofs
end

section
/-! The life of a command: acceptance, completion, and the end of the events at the bus (40_control.md R130 to R134). -/

namespace Sys2Proof.Proofs

open Sys2Proof.Machine Sys2Proof.Safety

/-! ### Acceptance and completion -/

/-- Settles O28: the arm of NOP concludes the attempt that changes no result. -/
theorem nopOnlyCompletes : Obligations.NopOnlyCompletes := fun _ => rfl

/-- At a ready unit the CMD write of any word is accepted (40_control.md R130). -/
theorem step_cmdWrite_eq_accept {s : State} {w : Word} {rest : List BusEvent} (hs : Ready s)
    (h : s.bus = cmdWrite w :: rest) : step s = accept w { s with bus := rest } := by
  obtain ⟨hb, -, hf, hr⟩ := hs
  rw [step_writeReg (r := .cmd) hb hr rfl rfl h, writeReg, issue, if_neg (by simp [hf])]

/-- Settles O8: the write is accepted, and `accept` answers by what `exec` answers. -/
theorem stepRunsTheDecodedCommand : Obligations.StepRunsTheDecodedCommand := by
  intro s w i rest hs h hw
  rw [step_cmdWrite_eq_accept hs h, accept]
  simp only [hw]
  cases exec i { s with bus := rest } <;> rfl

theorem step_of_bus_nil {s : State} (h : s.bus = []) : step s = .next (complete s) := by
  rw [step, h]
  rfl

theorem complete_of_inflight {s : State} {f : Flight} (hf : s.inflight = some f) :
    complete s = finish f.word f.outcome s := by
  rw [complete, hf]

/-- With no event left, a step completes the command in flight (log entry 2). -/
theorem step_of_bus_nil_inflight {s : State} {f : Flight} (hf : s.inflight = some f) (h : s.bus = []) :
    step s = .next (finish f.word f.outcome s) := by
  rw [step_of_bus_nil h, complete_of_inflight hf]

theorem step_complete {s : State} {f : Flight} {rest : List BusEvent} (hf : s.inflight = some f)
    (h : s.bus = .complete :: rest) : step s = .next (finish f.word f.outcome { s with bus := rest }) := by
  rw [step_of_bus h, busEvent, complete_of_inflight (s := { s with bus := rest }) hf]

/-- 60_exceptions.md R290, both cases in one record. -/
theorem recordFault_eq (cause : Cause) (info : Word) (s : State) :
    recordFault cause info s = { s with
      faultFlag := true
      faultCause := if s.faultFlag then s.faultCause else cause
      faultInfo := if s.faultFlag then s.faultInfo else info } := by
  cases s
  unfold recordFault
  simp only
  split <;> simp_all

/-- The completion of a command whose outcome is a fault (40_control.md R132, 60_exceptions.md R290 to R292). -/
theorem finish_fault_eq (w : Word) (cause : Cause) (s : State) :
    finish w (.fault cause) s = { s with
      busy := false
      done := false
      inflight := none
      faultFlag := true
      faultCause := if s.faultFlag then s.faultCause else cause
      faultInfo := if s.faultFlag then s.faultInfo else w } :=
  recordFault_eq ..

/-- The completion of a command launched with the outcome that `exec` shows gives the state of `exec`: what acceptance
wrote is overwritten. -/
theorem finish_launch_exec {s t : State} {i : Instr} (hf : s.faultFlag = false) (hexec : exec i s = .next t)
    (b : List BusEvent) :
    finish (encode i) (outcomeOf t) { launch (encode i) (outcomeOf t) s with bus := b } = { t with bus := b } := by
  obtain ⟨r, rfl⟩ | ⟨cause, rfl⟩ := Laws.exec_next i s t hexec
  · rw [outcomeOf_completed, Laws.finish_ok]
    rfl
  · rw [outcomeOf_faulted hf, Laws.finish_fault]
    rfl

/-- Settles O9: the CMD write launches the command, and the completion event finishes it. -/
theorem acceptThenCompleteGivesWhatExecGives : Obligations.AcceptThenCompleteGivesWhatExecGives := by
  intro s i rest t hs h hexec
  have ⟨_, _, hf, _⟩ := hs
  have hcomplete := step_complete (rest := rest)
    (s := launch (encode i) (outcomeOf t) { s with bus := .complete :: rest }) rfl rfl
  calc run 2 s
      = run 1 (launch (encode i) (outcomeOf t) { s with bus := .complete :: rest }) :=
        run_succ_of_step (step_cmdWrite hs hexec h)
    _ = .next (finish (encode i) (outcomeOf t) { launch (encode i) (outcomeOf t) s with bus := rest }) :=
        run_succ_of_step hcomplete
    _ = .next { t with bus := rest } := by rw [finish_launch_exec hf hexec]

/-! ### A step takes one event and adds none -/

theorem finish_bus (w : Word) (o : CommandOutcome) (s : State) : (finish w o s).bus = s.bus := by
  cases o with
  | ok r => rfl
  | fault cause => exact Laws.recordFault_bus ..

theorem finish_inflight (w : Word) (o : CommandOutcome) (s : State) : (finish w o s).inflight = none := by
  cases o with
  | ok r => rfl
  | fault cause => exact Laws.recordFault_inflight ..

theorem complete_bus (s : State) : (complete s).bus = s.bus := by
  obtain ⟨-, e⟩ | ⟨f, -, e⟩ := Laws.complete_cases s <;> rw [e]
  exact finish_bus ..

theorem complete_inflight (s : State) : (complete s).inflight = none := by
  obtain ⟨hnone, e⟩ | ⟨f, -, e⟩ := Laws.complete_cases s <;> rw [e]
  · exact hnone
  · exact finish_inflight ..

theorem refuseWrite_bus (cause : Cause) (a : Addr) (s : State) : (refuseWrite cause a s).bus = s.bus :=
  Laws.recordFault_bus ..

theorem issue_bus {s t : State} {w : Word} (h : issue w s = .next t) : t.bus = s.bus := by
  obtain ⟨-, e⟩ | ⟨-, -, e⟩ | ⟨-, i, -, ⟨u, -, e⟩ | ⟨r, -, e⟩ | ⟨r, -, e⟩⟩ := Laws.issue_cases w s <;>
    rw [e] at h <;> cases h <;> rfl

theorem writeReg_bus {s t : State} {r : Reg} {a : Addr} {v : Word} (h : writeReg r a v s = .next t) :
    t.bus = s.bus := by
  cases r with
  | cmd => exact issue_bus h
  | paLen | pbLen | matN =>
    cases h
    split_ifs
    · rfl
    · exact refuseWrite_bus ..
  | status => cases h; split_ifs <;> rfl
  | _ => cases h; rfl

theorem hostWrite_bus {s t : State} {a : Addr} {width : Nat} {v : Word} (h : hostWrite a width v s = .next t) :
    t.bus = s.bus := by
  obtain ⟨e, -⟩ | ⟨loc, -, -, ⟨-, e⟩ | ⟨-, -, e⟩ | ⟨-, -, ⟨r, -, e⟩ | ⟨bits, w, -, e⟩⟩⟩ :=
    Laws.hostWrite_cases a width v s <;> rw [e] at h
  · cases h; exact refuseWrite_bus ..
  · cases h; exact refuseWrite_bus ..
  · cases h; exact refuseWrite_bus ..
  · exact writeReg_bus h
  · cases h; rfl

/-- No event adds to the events to come. -/
theorem busEvent_bus {s t : State} {e : BusEvent} (h : busEvent e s = .next t) : t.bus = s.bus := by
  cases e with
  | read a width =>
    cases h
    split_ifs
    · rfl
    · obtain ⟨c, i, f, d, e⟩ := Laws.hostRead_frame a width s
      rw [e]
  | write a width v =>
    unfold busEvent at h
    split_ifs at h
    · cases h; rfl
    · exact hostWrite_bus h
  | complete => cases h; exact complete_bus s
  | assertReset => cases h; rfl
  | releaseReset =>
    cases h
    unfold releaseReset
    split_ifs <;> rfl

/-! ### The end of the events -/

/-- The first step of a run that does not stop. -/
theorem exists_step_of_run_succ {n : Nat} {s t : State} (h : run (n + 1) s = .next t) :
    ∃ u, step s = .next u ∧ run n u = .next t := by
  simp only [run, Host.Core.run] at h
  split at h
  case h_1 u hu => exact ⟨u, hu, h⟩
  all_goals cases h

/-- One step for each event, and one more for the command still in flight. -/
theorem run_leaves_none_in_flight {s t : State} {bus : List BusEvent} (hs : Sound s) (hbus : s.bus = bus)
    (h : run (bus.length + 1) s = .next t) : t.bus = [] ∧ t.inflight = none ∧ Sound t := by
  induction bus generalizing s with
  | nil =>
    obtain ⟨u, hstep, hrun⟩ := exists_step_of_run_succ h
    cases hrun
    cases (step_of_bus_nil hbus).symm.trans hstep
    exact ⟨(complete_bus s).trans hbus, complete_inflight s, sound_complete hs⟩
  | cons e rest ih =>
    obtain ⟨u, hstep, hrun⟩ := exists_step_of_run_succ h
    have hu : Sound u := everyStepKeepsTheStateSound s u hs hstep
    have hubus : u.bus = rest := busEvent_bus ((step_of_bus hbus).symm.trans hstep)
    exact ih hu hubus hrun

/-- Settles O12: completion is `finish`, at its event and with none left, and a run of all events ends with it. -/
theorem everyCommandInFlightCompletes : Obligations.EveryCommandInFlightCompletes := by
  refine ⟨fun s w r hf => ⟨step_of_bus_nil_inflight hf, fun _ => step_complete hf⟩, ?_, ?_⟩
  · intro s w cause hf t
    exact ⟨fun h => (step_of_bus_nil_inflight hf h).trans (congrArg _ (finish_fault_eq w cause s)), fun rest h =>
      (step_complete hf h).trans (congrArg _ (finish_fault_eq w cause { s with bus := rest }))⟩
  · intro s t hs h
    obtain ⟨hbus, hnone, ht⟩ := run_leaves_none_in_flight hs rfl h
    exact ⟨hbus, by rw [ht.busy, hnone, Option.isSome_none], hnone⟩

end Sys2Proof.Proofs
end

section
/-! The field: exponents modulo 255, the laws of the product, and the three field commands (41_gf.md R150 to R158). -/

namespace Sys2Proof.Proofs

open Sys2Proof.Machine Sys2Proof.Safety

/-! ### Exponents -/

theorem gexp_congr {m n : Int} (h : m % 255 = n % 255) : gexp m = gexp n := by
  rw [gexp_eq_timesPower, gexp_eq_timesPower, h]

/-- `exp` has period 255 (41_gf.md R158). -/
theorem gexp_add_period (n : Int) : gexp (n + 255) = gexp n := gexp_congr (Int.add_emod_right n 255)

theorem gexp_ne_zero (n : Int) : gexp n ≠ 0 := by
  rw [gexp_eq_timesPower]
  exact timesPower_one_ne_zero _

/-- A step of the exponent is a step times ALPHA, also where the exponent goes round (41_gf.md R156). -/
theorem gexp_add_one (n : Int) : gexp (n + 1) = timesAlpha (gexp n) := by
  have hround : ((n + 1) % 255).toNat = ((n % 255).toNat + 1) % 255 := by omega
  rw [gexp_eq_timesPower, hround, timesPower_one_mod, timesPower, ← gexp_eq_timesPower]

/-- The step of R156 on numbers: double, and take FIELD_POLY away where bit 8 came up. -/
theorem timesAlpha_toNat : ∀ a : Byte,
    (timesAlpha a).toNat = if 128 ≤ a.toNat then 2 * a.toNat ^^^ 0x11D else 2 * a.toNat := by decide +kernel

theorem gexp_logOf {x : Byte} (h : x ≠ 0) : gexp (logOf x) = x := by rw [gexp_natCast, timesPower_logOf h]

/-- The power of ALPHA fixes its exponent modulo 255. -/
theorem logOf_gexp (n : Int) : logOf (gexp n) = (n % 255).toNat := by
  have hmod : (n % 255).toNat < 255 := by omega
  refine timesPower_one_injOn (logOf_lt (gexp_ne_zero n)) hmod ?_
  rw [timesPower_logOf (gexp_ne_zero n), gexp_eq_timesPower]

/-- Settles O30: one step of the exponent, and `log` as the inverse of `exp`. -/
theorem expAndLogAreInverse : Obligations.ExpAndLogAreInverse :=
  ⟨rfl, gexp_add_one, fun n => gexp_add_one n ▸ timesAlpha_toNat _, logOf_gexp,
    fun _ hx => ⟨gexp_logOf hx, logOf_lt hx⟩⟩

/-! ### The product -/

theorem gmul_comm (a b : Byte) : gmul a b = gmul b a := by
  simp only [gmul, or_comm, Int.add_comm]

theorem gmul_xor_right (a b c : Byte) : gmul a (b ^^^ c) = gmul a b ^^^ gmul a c := by
  by_cases ha : a = 0
  · simp only [ha, Laws.gmul_zero_left]
    exact BitVec.xor_self.symm
  · simp only [gmul_eq_timesPower ha, timesPower_xor]

/-- Both sides are `c` taken `log a + log b` steps times ALPHA. -/
theorem gmul_assoc (a b c : Byte) : gmul (gmul a b) c = gmul a (gmul b c) := by
  by_cases ha : a = 0
  · simp only [ha, Laws.gmul_zero_left]
  by_cases hc : c = 0
  · simp only [hc, Laws.gmul_zero_right]
  calc gmul (gmul a b) c
    _ = timesPower (timesPower b (logOf a)) (logOf c) := by
      rw [gmul_comm, gmul_eq_timesPower hc, gmul_eq_timesPower ha]
    _ = timesPower (timesPower b (logOf c)) (logOf a) := timesPower_swap b (Nat.add_comm _ _)
    _ = gmul a (gmul b c) := by rw [gmul_comm b, gmul_eq_timesPower hc, gmul_eq_timesPower ha]

theorem gmul_ne_zero {a b : Byte} (ha : a ≠ 0) (hb : b ≠ 0) : gmul a b ≠ 0 := by
  rw [gmul_eq_timesPower ha]
  exact timesPower_ne_zero hb _

/-- The product of two powers of ALPHA adds their exponents (41_gf.md R152). -/
theorem gmul_gexp_gexp (m n : Int) : gmul (gexp m) (gexp n) = gexp (m + n) := by
  rw [gmul, if_neg (not_or.2 ⟨gexp_ne_zero m, gexp_ne_zero n⟩), logOf_gexp, logOf_gexp]
  exact gexp_congr (by omega)

/-- Settles O31: each law is one of the steps times ALPHA, which are linear and never lead to 0. -/
theorem fieldProductLaws : Obligations.FieldProductLaws :=
  ⟨gmul_comm, gmul_assoc, gmul_one, Laws.gmul_zero_right, gmul_xor_right, gexp_add_period,
    fun _ _ => gmul_ne_zero⟩

/-! ### The commands -/

theorem toNat_zext32_le (v : Byte) : (zext32 v).toNat ≤ 255 := by
  rw [zext32, BitVec.toNat_setWidth_of_le (by decide)]
  exact Nat.le_of_lt_succ v.isLt

/-- A register that holds an element is a legal operand with that value (30_encoding.md R105). -/
theorem operandElem_zext32 (v : Byte) : operandElem (zext32 v) = .ok v := by
  obtain ⟨-, e⟩ | ⟨hlt, -⟩ := Laws.operandElem_cases (zext32 v)
  · rw [e, setWidth_zext32]
  · exact absurd (toNat_zext32_le v) hlt.not_ge

theorem exec_gfLog {s : State} {x : Byte} (h : s.arg0 = zext32 x) :
    exec .gfLog s = conclude .gfLog s (glog x >>= fun k => .ok (withResult s (BitVec.ofNat 32 k))) := by
  simp only [exec, execGfLog, h, operandElem_zext32]
  rfl

theorem exec_gfMul {s : State} {a b : Byte} (ha : s.arg0 = zext32 a) (hb : s.arg1 = zext32 b) :
    exec .gfMul s = .next (completed s (withResult s (zext32 (gmul a b)))) := by
  simp only [exec, execGfMul, ha, hb, operandElem_zext32]
  rfl

/-- Settles O29: the operands are legal, and only the logarithm of 0 raises a fault. -/
theorem fieldCommandsGiveTheirResults : Obligations.FieldCommandsGiveTheirResults := by
  refine ⟨fun _ => rfl, fun s x h hx => ?_, fun s h => ?_, fun s a b => exec_gfMul⟩
  · rw [exec_gfLog h, glog_eq hx]
    rfl
  · rw [exec_gfLog (x := 0) h]
    exact Laws.conclude_raise _ _ _

end Sys2Proof.Proofs
end

section
/-! The remainder: the division is the multiplication by rows, run on the dividend in place of zeros
(42_poly_rs.md R171, R172, R180). -/

namespace Sys2Proof.Proofs

open Sys2Proof.Machine Sys2Proof.Safety

/-! ### Sums of lists of one length -/

theorem zipWith_xor_zipWith_xor {u z : List Byte} (h : z.length = u.length) :
    List.zipWith (· ^^^ ·) z (List.zipWith (· ^^^ ·) u z) = u := by
  refine List.ext_getElem (by simp [h]) fun i _ _ => ?_
  simp only [List.getElem_zipWith]
  rw [BitVec.xor_comm u[i], ← BitVec.xor_assoc, BitVec.xor_self, BitVec.zero_xor]

theorem zipWith_xor_replicate_zero (u : List Byte) :
    List.zipWith (· ^^^ ·) u (List.replicate u.length 0) = u := by
  refine List.ext_getElem (by simp) fun i _ _ => ?_
  simp only [List.getElem_zipWith, List.getElem_replicate]
  exact BitVec.xor_zero

/-! ### Stripping and alignment -/

theorem replicate_append_strip (p : List Byte) :
    List.replicate (p.length - (strip p).length) 0 ++ strip p = p := by
  induction p with
  | nil => rfl
  | cons c p ih =>
    by_cases hc : c = 0
    · have hlen := Laws.strip_length p
      rw [hc, strip_zero_cons, List.length_cons, Nat.succ_sub hlen, List.replicate_succ, List.cons_append, ih]
    · simp [strip_cons hc]

theorem strip_replicate_append (n : Nat) (p : List Byte) : strip (List.replicate n 0 ++ p) = strip p := by
  induction n with
  | zero => rfl
  | succ n ih => rwa [List.replicate_succ, List.cons_append, strip_zero_cons]

/-- Aligning what stripping left gives the list back, but for leading zeros. -/
theorem replicate_append_rightAlign_strip {m : Nat} {p : List Byte} (hm : (strip p).length ≤ m)
    (hp : m ≤ p.length) : List.replicate (p.length - m) 0 ++ rightAlign m (strip p) = p := by
  rw [rightAlign_of_length_le hm, ← List.append_assoc, List.replicate_append_replicate,
    Nat.sub_add_sub_cancel hp hm, replicate_append_strip]

/-- The sum of two stripped lists of one length is the stripped sum (41_gf.md R157). -/
theorem strip_polyAdd_strip {u v : List Byte} (h : v.length = u.length) :
    strip (polyAdd (strip u) (strip v)) = strip (List.zipWith (· ^^^ ·) u v) := by
  have hm : max (strip u).length (strip v).length ≤ u.length :=
    max_le (Laws.strip_length u) (h ▸ Laws.strip_length v)
  have hu := replicate_append_rightAlign_strip (le_max_left _ _) hm
  have hv := replicate_append_rightAlign_strip (le_max_right _ _) (hm.trans_eq h.symm)
  rw [h] at hv
  have hsum : List.zipWith (· ^^^ ·) u v =
      List.replicate (u.length - max (strip u).length (strip v).length) 0 ++ polyAdd (strip u) (strip v) := by
    calc List.zipWith (· ^^^ ·) u v
      _ = List.zipWith (· ^^^ ·) (List.replicate _ 0 ++ rightAlign _ (strip u))
          (List.replicate _ 0 ++ rightAlign _ (strip v)) := by rw [hu, hv]
      _ = _ := by rw [List.zipWith_append rfl, List.zipWith_replicate, Nat.min_self]; rfl
  rw [hsum, strip_replicate_append]

/-! ### The rows of a product, added to any list -/

@[simp] theorem mulRow_nil (c : Byte) (r : List Byte) : mulRow c [] r = r := by rw [mulRow]

theorem mulRow_zero (b r : List Byte) : mulRow 0 b r = r := by
  induction b generalizing r with
  | nil => exact mulRow_nil 0 r
  | cons y bs ih =>
    cases r with
    | nil => rfl
    | cons x r => simp only [mulRow, Laws.gmul_zero_left, ih]; exact congrArg (· :: r) BitVec.xor_zero

theorem mulRow_zipWith_xor (c : Byte) (b : List Byte) {u r : List Byte} (h : u.length = r.length) :
    mulRow c b (List.zipWith (· ^^^ ·) u r) = List.zipWith (· ^^^ ·) u (mulRow c b r) := by
  induction b generalizing u r with
  | nil => simp only [mulRow_nil]
  | cons y bs ih =>
    match u, r with
    | [], [] => rfl
    | z :: u, x :: r =>
      simp only [List.zipWith_cons_cons, mulRow, ih (Nat.succ.inj h), BitVec.xor_assoc]

/-- After the first row the first place stands (42_poly_rs.md R171). -/
theorem mulRows_cons_cons (c : Byte) (q : List Byte) (y : Byte) (bs : List Byte) (x : Byte) (r : List Byte) :
    mulRows (c :: q) (y :: bs) (x :: r) = (x ^^^ gmul c y) :: mulRows q (y :: bs) (mulRow c bs r) := rfl

theorem mulRows_zero_cons (q : List Byte) (y : Byte) (bs : List Byte) (x : Byte) (r : List Byte) :
    mulRows (0 :: q) (y :: bs) (x :: r) = x :: mulRows q (y :: bs) r := by
  rw [mulRows_cons_cons, mulRow_zero, Laws.gmul_zero_left]
  exact congrArg (· :: _) BitVec.xor_zero

/-- The rows of a product do not depend on what they are added to. -/
theorem mulRows_zipWith_xor (q : List Byte) (y : Byte) (bs : List Byte) {u r : List Byte} (h : u.length = r.length) :
    mulRows q (y :: bs) (List.zipWith (· ^^^ ·) u r) = List.zipWith (· ^^^ ·) u (mulRows q (y :: bs) r) := by
  induction q generalizing u r with
  | nil => rfl
  | cons c q ih =>
    match u, r with
    | [], [] => rfl
    | z :: u, x :: r =>
      have hlen : u.length = (mulRow c bs r).length := (Nat.succ.inj h).trans (Laws.mulRow_length c bs r).symm
      simp only [List.zipWith_cons_cons, mulRows_cons_cons, mulRow_zipWith_xor c bs (Nat.succ.inj h), ih hlen,
        BitVec.xor_assoc]

/-- Leading zeros of the left factor change the product's rows only by leading zeros. -/
theorem strip_mulRows_replicate_zero (q : List Byte) {y : Byte} (hy : y ≠ 0) (bs : List Byte) {n : Nat}
    (hn : q.length = n - bs.length) :
    strip (mulRows q (y :: bs) (List.replicate n 0)) = pmul q (y :: bs) := by
  induction q generalizing n with
  | nil => exact (strip_replicate_zero n).trans (by simp [pmul, strip])
  | cons c q ih =>
    by_cases hc : c = 0
    · obtain ⟨n, rfl⟩ : ∃ m, n = m + 1 := ⟨n - 1, by rw [List.length_cons] at hn; omega⟩
      rw [hc, List.replicate_succ, mulRows_zero_cons, strip_zero_cons,
        ih (by rw [List.length_cons] at hn; omega), ← pmul_strip, ← pmul_strip (0 :: q), strip_zero_cons]
    · have hsum : n = (c :: q).length + (y :: bs).length - 1 := by
        simp only [List.length_cons] at hn ⊢
        omega
      simp [pmul, strip_cons hc, strip_cons hy, hsum]

/-! ### The division as rows -/

/-- A pass of the division adds the divisor times a constant (42_poly_rs.md R172). -/
theorem divRow_eq_mulRow {ratio : Int} {b a r : List Byte} (h : divRow ratio b a = .ok r) :
    r = mulRow (gexp ratio) b a := by
  induction b generalizing a r with
  | nil =>
    rw [divRow] at h
    cases h
    exact (mulRow_nil _ _).symm
  | cons y bs ih =>
    cases a with
    | nil =>
      rw [divRow] at h
      cases h
      rfl
    | cons x as =>
      obtain ⟨-, e⟩ | ⟨hy, e⟩ := Laws.glog_cases y <;> rw [divRow, e] at h
      · cases h
      cases hd : divRow ratio bs as with
      | error e => rw [hd] at h; cases h
      | ok rest =>
        rw [hd] at h
        cases h
        rw [mulRow, ← ih hd, Int.add_comm, ← gmul_gexp_gexp, gexp_logOf hy]

/-- The constant of a pass makes the leading coefficients equal. -/
theorem gmul_gexp_sub_logOf {x y : Byte} (hx : x ≠ 0) (hy : y ≠ 0) :
    gmul (gexp ((logOf x : Int) - (logOf y : Int))) y = x := by
  calc gmul (gexp ((logOf x : Int) - (logOf y : Int))) y
    _ = gmul (gexp ((logOf x : Int) - (logOf y : Int))) (gexp (logOf y)) := by rw [gexp_logOf hy]
    _ = x := by rw [gmul_gexp_gexp, sub_add_cancel, gexp_logOf hx]

/-- The division carries out the rows of a product on its dividend: there is a quotient whose rows, added to the
dividend, leave the remainder below leading zeros. A leading zero of the dividend is a zero of the quotient. -/
theorem exists_quotient_of_divLoop {y : Byte} (hy : y ≠ 0) (bs : List Byte) {fuel : Nat} {a r : List Byte}
    (hfuel : (strip a).length < fuel) (h : divLoop fuel (strip a) (y :: bs) = .ok r) :
    ∃ q, q.length = a.length - bs.length ∧ strip (mulRows q (y :: bs) a) = r := by
  by_cases hlt : a.length < (y :: bs).length
  · rw [divLoop_of_length_lt _ ((Laws.strip_length a).trans_lt hlt)] at h
    cases h
    exact ⟨[], (Nat.sub_eq_zero_of_le (Nat.le_of_lt_succ hlt)).symm, rfl⟩
  match a with
  | [] => exact absurd (Nat.succ_pos _) hlt
  | x :: as =>
    have hle : bs.length ≤ as.length := by simpa using hlt
    by_cases hx : x = 0
    · rw [hx, strip_zero_cons] at hfuel h
      obtain ⟨q, hq, hr⟩ := exists_quotient_of_divLoop hy bs hfuel h
      refine ⟨0 :: q, ?_, ?_⟩
      · rw [List.length_cons, List.length_cons, hq, Nat.succ_sub hle]
      · rw [mulRows_zero_cons, hx, strip_zero_cons, hr]
    · rw [strip_cons hx] at hfuel h
      obtain ⟨fuel, rfl⟩ := Nat.exists_eq_succ_of_ne_zero (Nat.ne_zero_of_lt hfuel)
      rw [divLoop_succ_cons fuel hx hy hle] at h
      cases hd : divRow ((logOf x : Int) - (logOf y : Int)) bs as with
      | error e => rw [hd] at h; cases h
      | ok rest =>
        rw [hd] at h
        obtain rfl := divRow_eq_mulRow hd
        have hlen := Laws.mulRow_length (gexp ((logOf x : Int) - (logOf y : Int))) bs as
        have hshort := ((Laws.strip_length _).trans_eq hlen).trans_lt (Nat.succ_lt_succ_iff.1 hfuel)
        obtain ⟨q, hq, hr⟩ := exists_quotient_of_divLoop hy bs hshort h
        refine ⟨gexp ((logOf x : Int) - (logOf y : Int)) :: q, ?_, ?_⟩
        · rw [List.length_cons, List.length_cons, hq, hlen, Nat.succ_sub hle]
        · rw [mulRows_cons_cons, gmul_gexp_sub_logOf hx hy, BitVec.xor_self]
          exact (strip_zero_cons _).trans hr
termination_by a.length

/-- What the rows of a product leave of a list, added to the product, gives the list back. -/
theorem strip_polyAdd_pmul_mulRows {q u : List Byte} {y : Byte} (hy : y ≠ 0) {bs : List Byte}
    (hq : q.length = u.length - bs.length) :
    strip (polyAdd (pmul q (y :: bs)) (strip (mulRows q (y :: bs) u))) = strip u := by
  have hrows : mulRows q (y :: bs) u =
      List.zipWith (· ^^^ ·) u (mulRows q (y :: bs) (List.replicate u.length 0)) := by
    rw [← mulRows_zipWith_xor _ _ _ List.length_replicate.symm, zipWith_xor_replicate_zero]
  have hlen : (mulRows q (y :: bs) (List.replicate u.length 0)).length = u.length := by
    rw [Laws.mulRows_length, List.length_replicate]
  rw [← strip_mulRows_replicate_zero q hy bs hq, strip_polyAdd_strip ((Laws.mulRows_length ..).trans hlen.symm),
    hrows, zipWith_xor_zipWith_xor hlen]

/-- Settles O37: with the quotient that the division's own passes give. -/
theorem polynomialRemainderIsTheRemainder : Obligations.PolynomialRemainderIsTheRemainder := by
  intro a b r h
  refine ⟨pmod_length_lt h, ?_⟩
  rw [pmod_eq] at h
  split_ifs at h with hne
  · cases h
  obtain ⟨y, bs, hb, hy⟩ := exists_cons_of_strip_eq (strip_strip b) hne
  rw [hb, ← strip_strip a] at h
  obtain ⟨q, hq, rfl⟩ := exists_quotient_of_divLoop hy bs (by rw [strip_strip]; exact Nat.lt_succ_self _) h
  refine ⟨strip_strip _, q, ?_⟩
  rw [← pmul_strip, ← strip_strip b, pmul_strip, hb, strip_polyAdd_pmul_mulRows hy hq, strip_strip]

end Sys2Proof.Proofs
end

section
/-! Normalised polynomials, and the product as a convolution (42_poly_rs.md R170, R171). -/

namespace Sys2Proof.Proofs

open Sys2Proof.Machine Sys2Proof.Safety

theorem strip_head?_ne_zero (p : List Byte) : (strip p).head? ≠ some 0 := fun h => by
  obtain ⟨q, hq⟩ := List.head?_eq_some_iff.1 h
  exact Laws.strip_head p 0 q hq rfl

/-- Settles O33: stripping is the decomposition. -/
theorem normStripsLeadingZerosAndShifts : Obligations.NormStripsLeadingZerosAndShifts := fun p _ =>
  ⟨p.length - (strip p).length, strip p, (replicate_append_strip p).symm, strip_head?_ne_zero p, rfl⟩

/-! ### The convolution -/

@[simp] theorem convCoeff_nil (b : List Byte) (k : Nat) : convCoeff [] b k = 0 := by
  simp only [convCoeff, List.getD_nil, Laws.gmul_zero_left, List.foldl_map]
  exact List.foldl_fixed' (fun _ => BitVec.xor_zero) _

theorem convCoeff_zero (c : Byte) (a b : List Byte) : convCoeff (c :: a) b 0 = gmul c (b.getD 0 0) :=
  BitVec.zero_xor

/-- The summand of the first coefficient taken out. -/
theorem convCoeff_cons_succ (c : Byte) (a b : List Byte) (k : Nat) :
    convCoeff (c :: a) b (k + 1) = gmul c (b.getD (k + 1) 0) ^^^ convCoeff a b k := by
  have hshift : (fun i => gmul ((c :: a).getD i 0) (b.getD (k + 1 - i) 0)) ∘ Nat.succ =
      fun i => gmul (a.getD i 0) (b.getD (k - i) 0) := by
    funext i
    simp [Nat.succ_sub_succ]
  rw [convCoeff, List.range_succ_eq_map, List.map_cons, List.map_map, hshift, List.foldl_cons, BitVec.xor_comm,
    List.foldl_assoc]
  rfl

/-! ### Coefficients of the rows -/

theorem mulRow_getD (c : Byte) (b : List Byte) {r : List Byte} {k : Nat} (h : k < r.length) :
    (mulRow c b r).getD k 0 = r.getD k 0 ^^^ gmul c (b.getD k 0) := by
  induction b generalizing r k with
  | nil => rw [mulRow_nil, List.getD_nil, Laws.gmul_zero_right]; exact BitVec.xor_zero.symm
  | cons y bs ih =>
    match r, k with
    | x :: r, 0 => rfl
    | x :: r, k + 1 => exact ih (Nat.lt_of_succ_lt_succ h)

/-- The rows add the convolution to what stands there (42_poly_rs.md R171). -/
theorem mulRows_getD (a : List Byte) (y : Byte) (bs : List Byte) {r : List Byte} {k : Nat} (h : k < r.length) :
    (mulRows a (y :: bs) r).getD k 0 = r.getD k 0 ^^^ convCoeff a (y :: bs) k := by
  induction a generalizing r k with
  | nil => rw [convCoeff_nil]; exact BitVec.xor_zero.symm
  | cons c a ih =>
    match r, k with
    | x :: r, 0 => rw [mulRows_cons_cons, convCoeff_zero]; rfl
    | x :: r, k + 1 =>
      have hk : k < r.length := Nat.lt_of_succ_lt_succ h
      calc (mulRows (c :: a) (y :: bs) (x :: r)).getD (k + 1) 0
        _ = (mulRow c bs r).getD k 0 ^^^ convCoeff a (y :: bs) k := by
          rw [mulRows_cons_cons]
          exact ih ((Laws.mulRow_length c bs r).symm ▸ hk)
        _ = r.getD k 0 ^^^ (gmul c (bs.getD k 0) ^^^ convCoeff a (y :: bs) k) := by
          rw [mulRow_getD c bs hk, BitVec.xor_assoc]
        _ = _ := by rw [convCoeff_cons_succ]; rfl

theorem mulRows_replicate_zero (a : List Byte) (y : Byte) (bs : List Byte) (n : Nat) :
    mulRows a (y :: bs) (List.replicate n 0) = (List.range n).map (convCoeff a (y :: bs)) := by
  refine List.ext_getElem (by simp [Laws.mulRows_length]) fun k hk _ => ?_
  rw [Laws.mulRows_length] at hk
  have hn : k < n := by simpa using hk
  rw [List.getElem_eq_getD 0, mulRows_getD a y bs hk, List.getD_replicate _ hn, List.getElem_map, List.getElem_range]
  exact BitVec.zero_xor

/-- The first coefficient of the product is that of the operands' first ones, which is not 0 (42_poly_rs.md R171). -/
theorem pmul_cons_cons {c y : Byte} (hc : c ≠ 0) (hy : y ≠ 0) (a bs : List Byte) :
    pmul (c :: a) (y :: bs) =
      (List.range ((c :: a).length + (y :: bs).length - 1)).map (convCoeff (c :: a) (y :: bs)) := by
  have hlen : (c :: a).length + (y :: bs).length - 1 = a.length + bs.length + 1 := by simp; omega
  have hlead : convCoeff (c :: a) (y :: bs) 0 ≠ 0 := by rw [convCoeff_zero]; exact gmul_ne_zero hc hy
  simp only [pmul, normPoly_zero, strip_cons hc, strip_cons hy, mulRows_replicate_zero, hlen]
  rw [if_neg (by simp), List.range_succ_eq_map, List.map_cons, strip_cons hlead]

/-- Settles O35: the rows give the convolution, and its first coefficient is not 0. -/
theorem polynomialProductIsTheConvolution : Obligations.PolynomialProductIsTheConvolution := by
  refine ⟨fun a b h => by simp [pmul, h], fun a b ha hb => ?_⟩
  obtain ⟨c, a', hca, hc⟩ := exists_cons_of_strip_eq (strip_strip a) ha
  obtain ⟨y, b', hyb, hy⟩ := exists_cons_of_strip_eq (strip_strip b) hb
  rw [← pmul_strip, hca, hyb, pmul_cons_cons hc hy]

end Sys2Proof.Proofs
end

section
/-! The generator: the generator of 255 codewords, and its roots (42_poly_rs.md R173, R181). -/

namespace Sys2Proof.Proofs

open Sys2Proof.Machine Sys2Proof.Safety

/-! ### The generator of 255 codewords -/

/-- The last coefficient is the product of the roots. -/
theorem genCoeff_self (n : Nat) : genCoeff n n = timesPower 1 (∑ i ∈ Finset.range n, i) := by
  induction n with
  | zero => rfl
  | succ n ih =>
    rw [genCoeff_succ_succ, genCoeff_of_lt (Nat.lt_succ_self n), ih, ← timesPower_add,
      Finset.sum_range_succ, Nat.add_comm]
    exact BitVec.zero_xor

/-- Each inner coefficient is fixed by a power of ALPHA below the 255th, the first since ALPHA^255 = 1, the others since
the coefficient before is 0 (42_poly_rs.md R181). -/
theorem genCoeff_255_eq_zero {k : Nat} (hk : k < 254) : genCoeff 255 (k + 1) = 0 := by
  have hright : timesPower (genCoeff 255 k) 255 ^^^ timesPower (genCoeff 255 k) k = 0 := by
    cases k with
    | zero =>
      rw [genCoeff_zero, ← timesPower_one_mod]
      exact BitVec.xor_self
    | succ k =>
      rw [genCoeff_255_eq_zero (Nat.lt_of_succ_lt hk), timesPower_of_zero, timesPower_of_zero]
      exact BitVec.xor_self
  have hfix := BitVec.xor_eq_zero_iff.1 ((genCoeff_ratio 255 k).trans hright)
  by_contra hne
  exact timesPower_ne_self hne (Nat.succ_pos k) (by omega) hfix

theorem genCoeff_255_self : genCoeff 255 255 = 1 := by
  rw [genCoeff_self, Finset.sum_range_id, ← timesPower_one_mod]
  rfl

theorem gen_255 : gen 255 = 1 :: (List.replicate 254 0 ++ [1]) := by
  have hlen : (List.replicate 254 (0 : Byte)).length = 254 := List.length_replicate
  refine List.ext_getElem (by rw [gen_length, List.length_cons, List.length_append, hlen]; rfl) fun k hk _ => ?_
  rw [gen_length] at hk
  rw [List.getElem_eq_getD 0]
  change genCoeff 255 k = _
  obtain _ | j := k
  · exact genCoeff_zero 255
  obtain hj | rfl := Nat.lt_succ_iff_lt_or_eq.1 (Nat.lt_of_succ_lt_succ hk)
  · rw [genCoeff_255_eq_zero hj, List.getElem_cons_succ, List.getElem_append_left (hj.trans_eq hlen.symm),
      List.getElem_replicate]
  · exact genCoeff_255_self

/-- Settles O39: with the coefficients found from the ratio of neighbouring ones. -/
theorem generatorIsMonicAndItsCoefficientsAreNonzero : Obligations.GeneratorIsMonicAndItsCoefficientsAreNonzero := by
  refine ⟨fun n => ⟨gen_length n, ?_⟩, fun n => zero_notMem_gen, gen_255⟩
  obtain ⟨q, hq, -⟩ := gen_eq_cons n
  rw [hq, List.head?_cons]

/-! ### Evaluation -/

theorem polyEval_append_singleton (p : List Byte) (c x : Byte) :
    polyEval (p ++ [c]) x = gmul (polyEval p x) x ^^^ c := List.foldl_concat ..

theorem polyEval_zero_cons (p : List Byte) (x : Byte) : polyEval (0 :: p) x = polyEval p x := by
  rw [polyEval, List.foldl_cons, Laws.gmul_zero_left]
  rfl

theorem gmul_xor_left (a b c : Byte) : gmul (a ^^^ b) c = gmul a c ^^^ gmul b c := by
  simp only [gmul_comm _ c, gmul_xor_right]

theorem polyEval_map_timesPower (p : List Byte) (n : Nat) (x : Byte) :
    polyEval (p.map (timesPower · n)) x = gmul (polyEval p x) (gexp n) := by
  induction p using List.reverseRecOn with
  | nil => exact (Laws.gmul_zero_left _).symm
  | append_singleton p c ih =>
    rw [List.map_append, List.map_singleton, polyEval_append_singleton, polyEval_append_singleton, ih, gmul_xor_left,
      gmul_gexp c, gmul_assoc, gmul_assoc, gmul_comm x]

/-- The value is linear in the coefficients. -/
theorem polyEval_zipWith_xor {p q : List Byte} (h : p.length = q.length) (x : Byte) :
    polyEval (List.zipWith (· ^^^ ·) p q) x = polyEval p x ^^^ polyEval q x := by
  induction p using List.reverseRecOn generalizing q with
  | nil =>
    obtain rfl := List.length_eq_zero_iff.1 h.symm
    exact BitVec.xor_self.symm
  | append_singleton p c ih =>
    obtain ⟨q, d, rfl⟩ : ∃ q' d, q = q' ++ [d] := by
      obtain rfl | hq := List.eq_nil_or_concat q
      · simp at h
      · simpa using hq
    have hlen : p.length = q.length := by simpa using h
    rw [List.zipWith_append hlen, List.zipWith_cons_cons, List.zipWith_nil_left]
    rw [polyEval_append_singleton, polyEval_append_singleton, polyEval_append_singleton, ih hlen, gmul_xor_left]
    ac_rfl

/-- The factor `x - ALPHA^n` multiplies the value (42_poly_rs.md R173). -/
theorem polyEval_timesRoot (p : List Byte) (n : Nat) (x : Byte) :
    polyEval (timesRoot p n) x = gmul (polyEval p x) (x ^^^ gexp n) := by
  rw [timesRoot, polyEval_zipWith_xor (by simp), polyEval_append_singleton, polyEval_zero_cons,
    polyEval_map_timesPower, gmul_xor_right]
  exact congrArg (· ^^^ _) BitVec.xor_zero

/-- Settles O40: by induction on the factors; the last one vanishes at the new root. -/
theorem generatorVanishesAtItsRoots : Obligations.GeneratorVanishesAtItsRoots := by
  intro n i hi
  induction n with
  | zero => exact absurd hi (Nat.not_lt_zero i)
  | succ n ih =>
    rw [gen_succ, polyEval_timesRoot]
    obtain hlt | rfl := Nat.lt_succ_iff_lt_or_eq.1 hi
    · rw [ih hlt, Laws.gmul_zero_left]
    · rw [BitVec.xor_self]
      exact Laws.gmul_zero_right _

end Sys2Proof.Proofs
end

section
/-! Data with its codewords: the remainder is unique, and adding it to the dividend gives a multiple of the divisor
(42_poly_rs.md R180, R182). -/

namespace Sys2Proof.Proofs

open Sys2Proof.Machine Sys2Proof.Safety

theorem gmul_right_cancel {c d y : Byte} (hy : y ≠ 0) (h : gmul c y = gmul d y) : c = d := by
  by_contra hne
  refine gmul_ne_zero (mt BitVec.xor_eq_zero_iff.1 hne) hy ?_
  rw [gmul_comm, gmul_xor_right, gmul_comm y, gmul_comm y, h]
  exact BitVec.xor_self

/-- A list whose leading zeros reach below the first place begins with 0. -/
theorem eq_zero_of_strip_cons_length_le {x : Byte} {p : List Byte}
    (h : (strip (x :: p)).length ≤ p.length) : x = 0 := by
  by_contra hx
  rw [strip_cons hx] at h
  exact Nat.not_succ_le_self _ h

/-- The quotient is fixed by leaving a remainder shorter than the divisor: its first coefficient has to cancel the first
coefficient of the dividend (42_poly_rs.md R180). -/
theorem mulRows_quotient_unique {y : Byte} (hy : y ≠ 0) (bs : List Byte) {q q' u : List Byte}
    (hq : q.length = u.length - bs.length) (hq' : q'.length = u.length - bs.length)
    (h : (strip (mulRows q (y :: bs) u)).length ≤ bs.length)
    (h' : (strip (mulRows q' (y :: bs) u)).length ≤ bs.length) : q = q' := by
  induction q generalizing q' u with
  | nil => exact (List.length_eq_zero_iff.1 (hq'.trans hq.symm)).symm
  | cons c q ih =>
    match q', u with
    | [], _ => exact absurd (hq.trans hq'.symm) (Nat.succ_ne_zero _)
    | _, [] => simp at hq
    | c' :: q', x :: u =>
      simp only [List.length_cons] at hq hq'
      have hle : bs.length ≤ u.length := by omega
      rw [mulRows_cons_cons] at h h'
      have hx : x ^^^ gmul c y = 0 := eq_zero_of_strip_cons_length_le
        (by rw [Laws.mulRows_length, Laws.mulRow_length]; exact h.trans hle)
      have hx' : x ^^^ gmul c' y = 0 := eq_zero_of_strip_cons_length_le
        (by rw [Laws.mulRows_length, Laws.mulRow_length]; exact h'.trans hle)
      obtain rfl : c = c' := gmul_right_cancel hy
        ((BitVec.xor_eq_zero_iff.1 hx).symm.trans (BitVec.xor_eq_zero_iff.1 hx'))
      rw [hx, strip_zero_cons] at h h'
      exact congrArg _ (ih (by rw [Laws.mulRow_length]; omega) (by rw [Laws.mulRow_length]; omega) h h')

/-- The division finds a quotient: its rows leave the remainder of the dividend (42_poly_rs.md R172). -/
theorem exists_quotient_of_pmod {y : Byte} (hy : y ≠ 0) {bs u r : List Byte} (h : pmod u (y :: bs) = .ok r) :
    ∃ q, q.length = u.length - bs.length ∧ strip (mulRows q (y :: bs) u) = r := by
  rw [pmod_eq, strip_cons hy, if_neg (List.cons_ne_nil _ _)] at h
  exact exists_quotient_of_divLoop hy bs (Nat.lt_succ_self _) h

/-- Whatever rows leave less than the divisor leave the remainder (42_poly_rs.md R180). -/
theorem pmod_eq_strip_mulRows {y : Byte} (hy : y ≠ 0) {bs q u r : List Byte} (h : pmod u (y :: bs) = .ok r)
    (hq : q.length = u.length - bs.length) (hlen : (strip (mulRows q (y :: bs) u)).length ≤ bs.length) :
    r = strip (mulRows q (y :: bs) u) := by
  obtain ⟨q', hq', rfl⟩ := exists_quotient_of_pmod hy h
  have hshort := pmod_length_lt h
  rw [strip_cons hy] at hshort
  rw [mulRows_quotient_unique hy bs hq' hq (Nat.le_of_lt_succ hshort) hlen]

theorem pmod_strip_left (a b : List Byte) : pmod (strip a) b = pmod a b := by rw [pmod_eq, strip_strip, ← pmod_eq]

theorem strip_append (p w : List Byte) : strip (p ++ w) = if strip p = [] then strip w else strip p ++ w := by
  induction p with
  | nil => rfl
  | cons c p ih =>
    by_cases hc : c = 0
    · rw [hc, List.cons_append, strip_zero_cons, strip_zero_cons, ih]
    · rw [List.cons_append, strip_cons hc, strip_cons hc, if_neg (List.cons_ne_nil _ _), List.cons_append]

theorem zipWith_xor_self (u : List Byte) : List.zipWith (· ^^^ ·) u u = List.replicate u.length 0 := by
  rw [List.zipWith_self, ← List.map_const']
  exact List.map_congr_left fun _ _ => BitVec.xor_self

theorem replicate_zero_zipWith_xor (u : List Byte) :
    List.zipWith (· ^^^ ·) (List.replicate u.length 0) u = u := by
  rw [List.zipWith_comm_of_comm BitVec.xor_comm, zipWith_xor_replicate_zero]

/-- The dividend plus its remainder is a multiple of the divisor: added to what its rows leave of the dividend, the
dividend's own quotient leaves zeros (42_poly_rs.md R180). -/
theorem pmod_xor_remainder {y : Byte} (hy : y ≠ 0) {bs u r r' : List Byte} (hle : bs.length ≤ u.length)
    (h : pmod u (y :: bs) = .ok r)
    (h' : pmod (List.zipWith (· ^^^ ·) (List.replicate (u.length - bs.length) 0 ++ rightAlign bs.length r) u)
      (y :: bs) = .ok r') : r' = [] := by
  have hshort := pmod_length_lt h
  rw [strip_cons hy] at hshort
  obtain ⟨q, hq, rfl⟩ := exists_quotient_of_pmod hy h
  have hlen : (mulRows q (y :: bs) u).length = u.length := Laws.mulRows_length ..
  have hrows := replicate_append_rightAlign_strip (Nat.le_of_lt_succ hshort) (hlen.symm ▸ hle)
  rw [hlen] at hrows
  rw [hrows] at h'
  have hzero : strip (mulRows q (y :: bs) (List.zipWith (· ^^^ ·) (mulRows q (y :: bs) u) u)) = [] := by
    rw [mulRows_zipWith_xor _ _ _ hlen, zipWith_xor_self, strip_replicate_zero]
  rw [pmod_eq_strip_mulRows hy h' (by rw [hq, List.length_zipWith, hlen, Nat.min_self])
    (by rw [hzero]; exact Nat.zero_le _), hzero]

/-- The codewords take the place of the zeros below the data. -/
theorem zipWith_xor_append_replicate (d : List Byte) {w : List Byte} {n : Nat} (hw : w.length = n) :
    List.zipWith (· ^^^ ·) (List.replicate d.length 0 ++ w) (d ++ List.replicate n 0) = d ++ w := by
  rw [List.zipWith_append List.length_replicate, replicate_zero_zipWith_xor, ← hw, zipWith_xor_replicate_zero]

/-- Dividing the shifted data is dividing the data with `n` zeros below it. -/
theorem pmod_normPoly (d b : List Byte) (n : Nat) : pmod (normPoly d n) b = pmod (d ++ List.replicate n 0) b := by
  rw [← pmod_strip_left, normPoly, strip_append, strip_strip, ← strip_append, pmod_strip_left]

/-- Where the shifted data divides without a fault, so does the data with any `n` coefficients below it: nonzero data is
longer than the generator in both (42_poly_rs.md R179). -/
theorem exists_pmod_gen_append {d w r : List Byte} {n : Nat} (hw : w.length = n)
    (h : pmod (normPoly d n) (gen n) = .ok r) : ∃ r', pmod (d ++ w) (gen n) = .ok r' := by
  obtain ⟨hnil, -⟩ | ⟨hne, h0, hlen, -⟩ | ⟨-, -, hok⟩ := pmod_cases (d ++ w) (gen n)
  · exact absurd hnil (strip_gen_ne_nil n)
  · rw [strip_append] at hlen
    split_ifs at hlen with hd
    · have hwlen := Laws.strip_length w
      rw [strip_gen, gen_length] at hlen
      omega
    · have hfault := pmod_of_zero_mem (a := normPoly d n) hne h0
        (by rwa [strip_normPoly hd, normPoly_length, ← hw, ← List.length_append, hw])
      cases hfault.symm.trans h
  · exact hok

/-- Settles O43: the data with its codewords is the shifted data plus its remainder. -/
theorem dataWithItsCodewordsIsAMultipleOfTheGenerator : Obligations.DataWithItsCodewordsIsAMultipleOfTheGenerator := by
  intro d n r h
  have hw : (rightAlign n r).length = n := Laws.rightAlign_length n r
  obtain ⟨r', hr'⟩ := exists_pmod_gen_append hw h
  obtain ⟨bs, hgen, rfl⟩ := gen_eq_cons n
  rw [pmod_normPoly, hgen] at h
  suffices hnil : r' = [] by rw [hr', hnil]
  refine pmod_xor_remainder (by decide) (by simp) h ?_
  rw [List.length_append, List.length_replicate, Nat.add_sub_cancel, zipWith_xor_append_replicate d hw, ← hgen, hr']

end Sys2Proof.Proofs
end

section
/-! The packer: the appends of a stream whose byte view is sound succeed and hold the bits they were given
(43_bitbuf.md R200 to R207). -/

namespace Sys2Proof.Proofs

open Sys2Proof.Machine Sys2Proof.Safety

/-! ### Appending -/

/-- `t` holds `n` bits: those of `r`, then at each further position `p` the bit `f p` (43_bitbuf.md R207). -/
structure Appended (f : Nat → Bool) (r : Results) (n : Nat) (t : Results) : Prop where
  bbLen : t.bbLen = n
  view : viewSound t
  old : ∀ p, p < r.bbLen → streamBit t.mem p = streamBit r.mem p
  new : ∀ p, r.bbLen ≤ p → p < n → streamBit t.mem p = some (f p)

theorem Appended.refl (f : Nat → Bool) {r : Results} (h : viewSound r) : Appended f r r.bbLen r :=
  ⟨rfl, h, fun _ _ => rfl, fun _ hle hlt => absurd hlt hle.not_gt⟩

theorem Appended.trans {f : Nat → Bool} {r t u : Results} {k n : Nat} (h : Appended f r k t) (h' : Appended f t n u)
    (hle : r.bbLen ≤ k) : Appended f r n u where
  bbLen := h'.bbLen
  view := h'.view
  old p hp := (h'.old p (h.bbLen ▸ hp.trans_le hle)).trans (h.old p hp)
  new p hp hn := by
    obtain hk | hk := Nat.lt_or_ge p k
    · rw [h'.old p (h.bbLen.symm ▸ hk), h.new p hp hk]
    · exact h'.new p (h.bbLen.symm ▸ hk) hn

/-- The byte an append works on is in the byte view, so it is written (10_state.md R33). -/
theorem exists_appendTarget {r : Results} (h : viewSound r) : ∃ v, appendTarget r = .ok v := by
  unfold appendTarget
  split_ifs with hmod
  · exact ⟨0, rfl⟩
  · obtain ⟨v, -, e⟩ | ⟨hnone, -⟩ := Laws.readCell_cases r.mem (bbAddr (r.bbLen / 8))
    · exact ⟨v, e⟩
    · have hbit := h.2 r.bbLen le_rfl (by unfold viewBytes; omega)
      rw [streamBit, hnone] at hbit
      cases hbit

theorem streamBit_appendBit_self {b : Bool} {r t : Results} (h : appendBit b r = .ok t) :
    streamBit t.mem r.bbLen = some b := by
  obtain ⟨v, -, rfl⟩ := Laws.appendBit_ok b r t h
  rw [streamBit_write, if_pos rfl, getLsbD_setBit (by omega) (by omega), if_pos rfl]

/-- The bits before the end of the stream keep their value; those in its last byte since the append works on it. -/
theorem streamBit_appendBit_of_lt {b : Bool} {r t : Results} (h : appendBit b r = .ok t) {p : Nat}
    (hp : p < r.bbLen) : streamBit t.mem p = streamBit r.mem p := by
  obtain ⟨v, hv, rfl⟩ := Laws.appendBit_ok b r t h
  rw [streamBit_write]
  split_ifs with hbyte
  · obtain ⟨hmod, -⟩ | ⟨-, hread⟩ := Laws.appendTarget_ok r v hv
    · omega
    · rw [getLsbD_setBit (by omega) (by omega), if_neg (by omega), streamBit, hbyte, hread]
      rfl
  · rfl

theorem exists_appendBit (f : Nat → Bool) {r : Results} (h : viewSound r) :
    ∃ t, appendBit (f r.bbLen) r = .ok t ∧ Appended f r (r.bbLen + 1) t := by
  obtain ⟨v, hv⟩ := exists_appendTarget h
  obtain ⟨t, ht⟩ : ∃ t, appendBit (f r.bbLen) r = .ok t := ⟨_, by rw [appendBit, hv]⟩
  refine ⟨t, ht, ?_, viewSound_appendBit h ht, fun p => streamBit_appendBit_of_lt ht, fun p hp hp' => ?_⟩
  · obtain ⟨-, -, rfl⟩ := Laws.appendBit_ok _ r t ht
    rfl
  · obtain rfl : p = r.bbLen := by omega
    exact streamBit_appendBit_self ht

/-- Most significant first (43_bitbuf.md R201). -/
theorem exists_appendBits {f : Nat → Bool} {v k : Nat} {r : Results} (h : viewSound r)
    (hf : ∀ j, j < k → f (r.bbLen + j) = v.testBit (k - 1 - j)) :
    ∃ t, appendBits v k r = .ok t ∧ Appended f r (r.bbLen + k) t := by
  induction k generalizing r with
  | zero => exact ⟨r, rfl, .refl f h⟩
  | succ k ih =>
    have hfirst : f r.bbLen = v.testBit k := hf 0 (Nat.succ_pos k)
    obtain ⟨t, ht, happ⟩ := exists_appendBit f h
    obtain ⟨u, hu, happ'⟩ := ih (r := t) happ.view fun j hj => by
      rw [happ.bbLen, Nat.add_assoc, hf (1 + j) (by omega)]
      congr 1
      omega
    refine ⟨u, by rw [appendBits, ← hfirst, ht]; exact hu, ?_⟩
    rw [happ.bbLen, Nat.add_assoc, Nat.add_comm 1] at happ'
    exact happ.trans happ' (Nat.le_succ _)

theorem exists_appendBits_zero {f : Nat → Bool} {k : Nat} {r : Results} (h : viewSound r)
    (hf : ∀ p, r.bbLen ≤ p → p < r.bbLen + k → f p = false) :
    ∃ t, appendBits 0 k r = .ok t ∧ Appended f r (r.bbLen + k) t :=
  exists_appendBits h fun j hj => by rw [hf _ (by omega) (by omega), Nat.zero_testBit]

/-! ### Padding -/

/-- The length after the terminator of `padTo` (43_bitbuf.md R202). -/
def terminatedLen (len c : Nat) : Nat := if len + 4 ≤ 8 * c then len + 4 else len

/-- The number of bytes after the alignment of `padTo` (43_bitbuf.md R202). -/
def alignedBytes (len c : Nat) : Nat := (terminatedLen len c + 7) / 8

theorem le_terminatedLen (len c : Nat) : len ≤ terminatedLen len c := by
  unfold terminatedLen
  split_ifs <;> omega

theorem terminatedLen_le {len c : Nat} (h : len ≤ 8 * c) : terminatedLen len c ≤ 8 * c := by
  unfold terminatedLen
  split_ifs <;> omega

theorem paddedBit_of_lt {len c p : Nat} (h : p < 8 * alignedBytes len c) : paddedBit len c p = false := if_pos h

theorem paddedBit_of_le {len c p : Nat} (h : 8 * alignedBytes len c ≤ p) :
    paddedBit len c p = (padByte (p / 8 - alignedBytes len c)).testBit (7 - p % 8) := if_neg h.not_gt

/-- Pad byte `t₀ + i` fills byte `i` after the stream (43_bitbuf.md R202). -/
theorem exists_padBytes {f : Nat → Bool} {t₀ n q : Nat} {r : Results} (h : viewSound r) (hq : r.bbLen = 8 * q)
    (hf : ∀ p, 8 * q ≤ p → p < 8 * (q + n) → f p = (padByte (t₀ + (p / 8 - q))).testBit (7 - p % 8)) :
    ∃ t, padBytes t₀ n r = .ok t ∧ Appended f r (8 * (q + n)) t := by
  induction n generalizing t₀ q r with
  | zero => exact ⟨r, rfl, hq ▸ .refl f h⟩
  | succ n ih =>
    have hbyte : ∀ j, j < 8 → f (r.bbLen + j) = (padByte t₀).testBit (8 - 1 - j) := fun j hj => by
      rw [hf _ (by omega) (by omega), show (r.bbLen + j) / 8 - q = 0 by omega, show (r.bbLen + j) % 8 = j by omega]
      rfl
    obtain ⟨t, ht, happ⟩ := exists_appendBits h hbyte
    obtain ⟨u, hu, happ'⟩ := ih (t₀ := t₀ + 1) (q := q + 1) happ.view (by rw [happ.bbLen]; omega) fun p hp hp' => by
      rw [hf p (by omega) (by omega), show t₀ + (p / 8 - q) = t₀ + 1 + (p / 8 - (q + 1)) by omega]
    refine ⟨u, by rw [padBytes, ht]; exact hu, ?_⟩
    rw [Nat.add_right_comm] at happ'
    exact happ.trans happ' (Nat.le_add_right _ _)

theorem exists_terminator {c : Nat} {r : Results} (h : viewSound r) :
    ∃ t, terminator c r = .ok t ∧ Appended (paddedBit r.bbLen c) r (terminatedLen r.bbLen c) t := by
  by_cases hroom : r.bbLen + 4 ≤ 8 * c
  · have hlen : terminatedLen r.bbLen c = r.bbLen + 4 := if_pos hroom
    rw [terminator, if_pos hroom, hlen]
    exact exists_appendBits_zero h fun p _ hp => paddedBit_of_lt (by unfold alignedBytes; omega)
  · rw [terminator, if_neg hroom, terminatedLen, if_neg hroom]
    exact ⟨r, rfl, .refl _ h⟩

/-- Terminator, alignment and pad bytes, each on its own stretch of `paddedBit` (43_bitbuf.md R202). -/
theorem exists_padTo {c : Nat} {r : Results} (h : viewSound r) (hc : r.bbLen ≤ 8 * c) :
    ∃ t, padTo c r = .ok t ∧ Appended (paddedBit r.bbLen c) r (8 * c) t := by
  have hle := le_terminatedLen r.bbLen c
  have hle' := terminatedLen_le hc
  have haligned : alignedBytes r.bbLen c = (terminatedLen r.bbLen c + 7) / 8 := rfl
  obtain ⟨r₁, h₁, happ₁⟩ := exists_terminator (c := c) h
  have hlen₁ := happ₁.bbLen
  obtain ⟨r₂, h₂, happ₂⟩ := exists_appendBits_zero (f := paddedBit r.bbLen c) (k := (8 - r₁.bbLen % 8) % 8)
    happ₁.view fun p _ hp => paddedBit_of_lt (by omega)
  have hlen₂ : r₂.bbLen = 8 * alignedBytes r.bbLen c := by rw [happ₂.bbLen]; omega
  obtain ⟨t, ht, happ⟩ := exists_padBytes (f := paddedBit r.bbLen c) (t₀ := 0) (n := c - r₂.bbLen / 8) happ₂.view
    hlen₂ fun p hp _ => by rw [paddedBit_of_le hp, Nat.zero_add]
  refine ⟨t, by rw [padTo, h₁]; simp only [alignByte, h₂, ht], ?_⟩
  rw [show alignedBytes r.bbLen c + (c - r₂.bbLen / 8) = c by omega] at happ
  exact (happ₁.trans happ₂ hle).trans happ (by omega)

/-! ### The commands -/

/-- Settles O44: the arm of BB_CLEAR concludes the attempt that writes BB_LEN. -/
theorem bbClearEmptiesTheStream : Obligations.BbClearEmptiesTheStream := ⟨rfl, fun _ => rfl⟩

theorem fitBits_of_le {len limit : Nat} (h : len ≤ limit) : fitBits len limit = .ok () := if_neg h.not_gt

theorem fitBits_of_lt {len limit : Nat} (h : limit < len) : fitBits len limit = .error (.fault .capacity) := if_pos h

theorem conclude_fitBits_of_lt {i : Instr} {s : State} {len limit : Nat} (h : limit < len)
    (x : Unit → Attempt Results) : conclude i s (fitBits len limit >>= x) = .next (faulted i .capacity s) := by
  rw [fitBits_of_lt h]
  exact Laws.conclude_raise ..

theorem conclude_fitBits_of_le {i : Instr} {s : State} {len limit : Nat} (h : len ≤ limit) {x : Attempt Results}
    {r : Results} (hx : x = .ok r) : conclude i s (fitBits len limit >>= fun _ => x) = .next (completed s r) := by
  rw [fitBits_of_le h, hx]
  exact Laws.conclude_ok ..

theorem operandBit_bitWord (b : Bool) : operandBit (bitWord b) = .ok b := by cases b <;> rfl

theorem exec_bbPut {s : State} (hk : s.arg1.toNat ≤ 32) :
    exec .bbPut s = conclude .bbPut s (fitBits (s.bbLen + s.arg1.toNat) 32768 >>= fun _ =>
      appendBits s.arg0.toNat s.arg1.toNat s.toResults) := by
  simp only [exec, execBbPut, operandCount_of_le hk]
  rfl

theorem exec_bbPutBit {s : State} {b : Bool} (hb : s.arg0 = bitWord b) :
    exec .bbPutBit s = conclude .bbPutBit s (fitBits (s.bbLen + 1) 32768 >>= fun _ => appendBit b s.toResults) := by
  simp only [exec, execBbPutBit, hb, operandBit_bitWord]
  rfl

theorem exec_bbPad {s : State} (hc : s.arg0.toNat ≤ 4096) :
    exec .bbPad s = conclude .bbPad s (fitBits s.bbLen (8 * s.arg0.toNat) >>= fun _ =>
      padTo s.arg0.toNat s.toResults) := by
  simp only [exec, execBbPad, operandCount_of_le hc]
  rfl

/-- Settles O45: the bits are those of `appendBits`, the last appended is bit 0. -/
theorem bbPutAppendsTheLowBits : Obligations.BbPutAppendsTheLowBits := by
  intro s hs hk
  rw [exec_bbPut hk]
  refine ⟨fun hlong => conclude_fitBits_of_lt hlong _, fun hfit => ?_⟩
  obtain ⟨t, ht, happ⟩ := exists_appendBits hs.view
    (f := fun p => s.arg0.getLsbD (s.arg1.toNat - 1 - (p - s.bbLen))) (v := s.arg0.toNat) (k := s.arg1.toNat)
    fun j _ => by rw [Nat.add_sub_cancel_left, BitVec.testBit_toNat]
  obtain ⟨m, rfl, -, hframe⟩ := Laws.appendBits_ok _ _ _ _ ht
  refine ⟨m, conclude_fitBits_of_le hfit ht, happ.old, fun j hj => ?_, hframe⟩
  rw [happ.new _ (Nat.le_add_right _ _) (Nat.add_lt_add_left hj _), Nat.add_sub_cancel_left]

/-- Settles O46: the bit is that of one append, which works on one byte. -/
theorem bbPutBitAppendsOneBit : Obligations.BbPutBitAppendsOneBit := by
  intro s b hs hb
  rw [exec_bbPutBit hb]
  refine ⟨fun hfull => conclude_fitBits_of_lt (by omega) _, fun hroom => ?_⟩
  obtain ⟨t, ht, happ⟩ := exists_appendBit (fun _ => b) hs.view
  obtain ⟨v, -, rfl⟩ := Laws.appendBit_ok _ _ _ ht
  exact ⟨_, conclude_fitBits_of_le hroom ht, streamBit_appendBit_self ht, happ.old,
    fun a ha => Laws.read_write_other _ _ _ _ ha.symm⟩

/-- Settles O47: the bits are those of `padTo`. -/
theorem bbPadFillsUpToTheCapacity : Obligations.BbPadFillsUpToTheCapacity := by
  intro s hs hc
  rw [exec_bbPad hc]
  refine ⟨fun hlong => conclude_fitBits_of_lt hlong _, fun hfit => ?_⟩
  obtain ⟨t, ht, happ⟩ := exists_padTo hs.view hfit
  obtain ⟨m, rfl, -, hframe⟩ := Laws.padTo_ok _ _ _ hfit ht
  exact ⟨m, conclude_fitBits_of_le hfit ht, happ.old, happ.new, hframe⟩

/-- A state for the completing clause of O47: after reset, BB_PAD gives a zero byte and 0xEC (43_bitbuf.md R202). -/
theorem witness_bbPad_completes :
    let s : State := { State.reset with arg0 := 2 }
    ∃ m', exec .bbPad s = .next (completed s { s.toResults with mem := m', bbLen := 16 }) ∧
      streamBit m' 7 = some false ∧ streamBit m' 8 = some true := by
  intro s
  obtain ⟨-, hfill⟩ := bbPadFillsUpToTheCapacity s resetStateIsSoundAndUnwritten.1.results (by decide)
  obtain ⟨m', hexec, -, hnew, -⟩ := hfill (by decide)
  exact ⟨m', hexec, (hnew 7 (by decide) (by decide)).trans (by decide),
    (hnew 8 (by decide) (by decide)).trans (by decide)⟩

end Sys2Proof.Proofs
end

section
/-! The BCH codewords: division over GF(2), the remainder of a word with its remainder added, and the two commands
(44_bch.md R220 to R228). -/

namespace Sys2Proof.Proofs

open Sys2Proof.Machine Sys2Proof.Safety

/-! ### Binary digits -/

/-- `digits` is the library's `Nat.size`. -/
theorem digits_eq_size (v : Nat) : digits v = v.size := by
  unfold digits
  split
  case isTrue h => rw [h, Nat.size_zero]
  case isFalse h => exact Nat.le_antisymm (Nat.lt_size.2 (Nat.log2_self_le h)) (Nat.size_le.2 Nat.lt_log2_self)

theorem digits_le_iff {v n : Nat} : digits v ≤ n ↔ v >>> n = 0 := by
  rw [digits_eq_size, Nat.size_le, Nat.shiftRight_eq_div_pow, Nat.div_eq_zero_iff_lt (Nat.two_pow_pos n)]

theorem digits_eq_succ_iff {v n : Nat} : digits v = n + 1 ↔ v >>> n = 1 := by
  have hsucc : v >>> (n + 1) = v >>> n / 2 := Nat.shiftRight_succ v n
  have hle : digits v ≤ n + 1 ↔ v >>> n / 2 = 0 := by rw [digits_le_iff, hsucc]
  have hle' : digits v ≤ n ↔ v >>> n = 0 := digits_le_iff
  omega

theorem digits_pos_iff {v : Nat} : 0 < digits v ↔ v ≠ 0 := by rw [digits_eq_size, Nat.size_pos, Nat.pos_iff_ne_zero]

theorem digits_shiftLeft {v : Nat} (h : v ≠ 0) (k : Nat) : digits (v <<< k) = digits v + k := by
  rw [digits_eq_size, digits_eq_size, Nat.size_shiftLeft h]

theorem digits_xor_le {v w n : Nat} (hv : digits v ≤ n) (hw : digits w ≤ n) : digits (v ^^^ w) ≤ n := by
  rw [digits_le_iff, Nat.shiftRight_xor_distrib, digits_le_iff.1 hv, digits_le_iff.1 hw, Nat.xor_self]

theorem digits_xor_lt_of_lt {v w n : Nat} (hv : digits v < n) (hw : digits w < n) : digits (v ^^^ w) < n :=
  (digits_xor_le (le_max_left _ _) (le_max_right _ _)).trans_lt (max_lt hv hw)

/-- The leading digits of two numbers of one length cancel. -/
theorem digits_xor_lt {v w : Nat} (hpos : 0 < digits v) (h : digits w = digits v) : digits (v ^^^ w) < digits v := by
  obtain ⟨n, hn⟩ := Nat.exists_eq_succ_of_ne_zero hpos.ne'
  rw [hn] at h
  rw [hn, Nat.lt_succ_iff, digits_le_iff, Nat.shiftRight_xor_distrib, digits_eq_succ_iff.1 hn, digits_eq_succ_iff.1 h,
    Nat.xor_self]

/-- A shorter number leaves the leading digit. -/
theorem digits_xor_of_lt {v w : Nat} (h : digits w < digits v) : digits (v ^^^ w) = digits v := by
  obtain ⟨n, hn⟩ := Nat.exists_eq_succ_of_ne_zero (Nat.ne_zero_of_lt h)
  rw [hn, Nat.lt_succ_iff, digits_le_iff] at h
  rw [hn, digits_eq_succ_iff, Nat.shiftRight_xor_distrib, digits_eq_succ_iff.1 hn, h, Nat.xor_zero]

/-! ### The remainder -/

theorem bchLoop_of_lt {v g : Nat} (h : digits v < digits g) (fuel : Nat) : bchLoop g fuel v = v := by
  cases fuel with
  | zero => rfl
  | succ fuel => exact if_pos h

theorem bchLoop_succ_of_le {v g : Nat} (h : digits g ≤ digits v) (fuel : Nat) :
    bchLoop g (fuel + 1) v = bchLoop g fuel (v ^^^ g <<< (digits v - digits g)) := if_neg h.not_gt

/-- A pass of the division shortens the number. -/
theorem digits_xor_shiftLeft_lt {v g : Nat} (hg : g ≠ 0) (h : digits g ≤ digits v) :
    digits (v ^^^ g <<< (digits v - digits g)) < digits v := by
  have hlen : digits (g <<< (digits v - digits g)) = digits v := by rw [digits_shiftLeft hg, Nat.add_sub_cancel' h]
  exact digits_xor_lt ((digits_pos_iff.2 hg).trans_le h) hlen

theorem digits_bchLoop_lt {g : Nat} (hg : g ≠ 0) {fuel v : Nat} (hfuel : digits v ≤ fuel) :
    digits (bchLoop g fuel v) < digits g := by
  induction fuel generalizing v with
  | zero => exact hfuel.trans_lt (digits_pos_iff.2 hg)
  | succ fuel ih =>
    rcases Nat.lt_or_ge (digits v) (digits g) with hlt | hge
    · rwa [bchLoop_of_lt hlt]
    · rw [bchLoop_succ_of_le hge]
      exact ih (Nat.le_of_lt_succ ((digits_xor_shiftLeft_lt hg hge).trans_le hfuel))

/-- The shifts are those of the passes, whatever the fuel. -/
theorem exists_shifts_of_bchLoop (g fuel v : Nat) :
    ∃ shifts : List Nat, bchLoop g fuel v = (shifts.map (g <<< ·)).foldl (· ^^^ ·) v := by
  induction fuel generalizing v with
  | zero => exact ⟨[], rfl⟩
  | succ fuel ih =>
    rcases Nat.lt_or_ge (digits v) (digits g) with hlt | hge
    · exact ⟨[], bchLoop_of_lt hlt _⟩
    · obtain ⟨shifts, h⟩ := ih (v ^^^ g <<< (digits v - digits g))
      exact ⟨(digits v - digits g) :: shifts, (bchLoop_succ_of_le hge fuel).trans h⟩

theorem digits_bchRem_lt {g : Nat} (hg : g ≠ 0) (v : Nat) : digits (bchRem v g) < digits g :=
  digits_bchLoop_lt hg le_rfl

/-- Settles O49: each pass cancels the leading digit by a shift of G. -/
theorem bchRemainderIsTheRemainder : Obligations.BchRemainderIsTheRemainder := fun v g hg =>
  ⟨digits_bchRem_lt hg v, exists_shifts_of_bchLoop g _ v⟩

/-! ### A word with its remainder added -/

/-- Digits below those of G do not steer the passes. -/
theorem bchLoop_xor_of_lt {r g : Nat} (hr : digits r < digits g) (fuel v : Nat) :
    bchLoop g fuel (v ^^^ r) = bchLoop g fuel v ^^^ r := by
  induction fuel generalizing v with
  | zero => rfl
  | succ fuel ih =>
    rcases Nat.lt_or_ge (digits v) (digits g) with hlt | hge
    · rw [bchLoop_of_lt hlt, bchLoop_of_lt (digits_xor_lt_of_lt hlt hr)]
    · have hsame : digits (v ^^^ r) = digits v := digits_xor_of_lt (hr.trans_le hge)
      rw [bchLoop_succ_of_le hge, bchLoop_succ_of_le (hsame ▸ hge), hsame, Nat.xor_right_comm, ih]

theorem bchRem_xor_of_lt {r g : Nat} (hr : digits r < digits g) (v : Nat) : bchRem (v ^^^ r) g = bchRem v g ^^^ r := by
  unfold bchRem
  rcases Nat.lt_or_ge (digits v) (digits g) with hlt | hge
  · rw [bchLoop_of_lt hlt, bchLoop_of_lt (digits_xor_lt_of_lt hlt hr)]
  · rw [digits_xor_of_lt (hr.trans_le hge), bchLoop_xor_of_lt hr]

theorem bchRem_xor_bchRem {g : Nat} (hg : g ≠ 0) (v : Nat) : bchRem (v ^^^ bchRem v g) g = 0 := by
  rw [bchRem_xor_of_lt (digits_bchRem_lt hg v), Nat.xor_self]

/-! ### Codewords -/

theorem shiftLeft_or_eq_xor {r k : Nat} (hr : digits r ≤ k) (d : Nat) : d <<< k ||| r = d <<< k ^^^ r := by
  refine Nat.eq_of_testBit_eq fun i => ?_
  rw [Nat.testBit_or, Nat.testBit_xor]
  rcases Nat.lt_or_ge i k with hlow | hhigh
  · have hd : (d <<< k).testBit i = false := by simp [hlow]
    rw [hd, Bool.false_or, Bool.false_xor]
  · have hri : r.testBit i = false := by
      rw [← Nat.add_sub_cancel' hhigh, ← Nat.testBit_shiftRight, digits_le_iff.1 hr, Nat.zero_testBit]
    rw [hri, Bool.or_false, Bool.xor_false]

/-- Data above its remainder: a generator with `k + 1` digits leaves a remainder that fits in the `k` low bits. -/
theorem bchCodeword_roundTrip {g k : Nat} (hg : digits g = k + 1) (d : Nat) :
    (d <<< k ||| bchRem (d <<< k) g) >>> k = d ∧ bchRem (d <<< k ||| bchRem (d <<< k) g) g = 0 := by
  have hne : g ≠ 0 := digits_pos_iff.1 (hg ▸ Nat.succ_pos k)
  have hr : digits (bchRem (d <<< k) g) ≤ k := Nat.le_of_lt_succ ((digits_bchRem_lt hne _).trans_eq hg)
  constructor
  · rw [Nat.shiftRight_or_distrib, Nat.shiftLeft_shiftRight, digits_le_iff.1 hr, Nat.or_zero]
  · rw [shiftLeft_or_eq_xor hr, bchRem_xor_bchRem hne]

/-- Settles O50: both codewords are data above the remainder of the shifted data. -/
theorem bchCodewordsRoundTrip : Obligations.BchCodewordsRoundTrip := by
  have hfmt (d : Nat) : fmtEncode d ^^^ g15Mask = d <<< 10 ||| bchRem (d <<< 10) g15 :=
    Nat.xor_xor_cancel_right _ _
  refine ⟨rfl, rfl, rfl, by decide, by decide, by decide, by decide, by decide, fun d _ => ?_, fun d _ => ?_⟩
  · rw [hfmt]
    exact bchCodeword_roundTrip (by decide) d
  · exact bchCodeword_roundTrip (by decide) d

/-! ### The commands -/

/-- Settles O48: the operand is legal. -/
theorem bchCommandsGiveTheCodewords : Obligations.BchCommandsGiveTheCodewords := by
  refine ⟨fun s h => ?_, fun s h => ?_⟩
  · simp only [exec, execBchFmt, operandCount_of_le h]
    rfl
  · simp only [exec, execBchVer, operandCount_of_le h]
    rfl

end Sys2Proof.Proofs
end

section
/-! The mask value, the fill of MAT and the start of a selection (45_mask_penalty.md R240, R247, R248, R250). -/

namespace Sys2Proof.Proofs

open Sys2Proof.Machine Sys2Proof.Safety

theorem exec_maskEval {s : State} (h₀ : s.arg0.toNat ≤ 7) (h₁ : s.arg1.toNat ≤ 255) (h₂ : s.arg2.toNat ≤ 255) :
    exec .maskEval s = .next (completed s (withResult s
      (bitWord (maskFn s.arg0.toNat s.arg1.toNat s.arg2.toNat)))) := by
  simp only [exec, execMaskEval, operandCount_of_le h₀, operandCount_of_le h₁, operandCount_of_le h₂]
  rfl

/-- Settles O51: the operands are legal, and each row of the table is an arm of `maskFn`. -/
theorem maskEvalGivesTheMaskValue : Obligations.MaskEvalGivesTheMaskValue :=
  ⟨fun _ h₀ h₁ h₂ => exec_maskEval h₀ h₁ h₂, fun _ _ =>
    ⟨beq_iff_eq, beq_iff_eq, beq_iff_eq, beq_iff_eq, beq_iff_eq, beq_iff_eq, beq_iff_eq, beq_iff_eq⟩⟩

theorem exec_matFill {s : State} {b : Bool} (h : s.arg0 = bitWord b) :
    exec .matFill s = .next (completed s { s.toResults with
      mem := fillCells s.mem matAddrs (if b then 1 else 0) }) := by
  simp only [exec, execMatFill, h, operandBit_bitWord]
  rfl

/-- Settles O52: the addresses filled are exactly those of the modules. -/
theorem matFillWritesEveryModule : Obligations.MatFillWritesEveryModule := by
  refine fun s b h => ⟨_, exec_matFill h, fun r c hr hc => ?_, fun a ha => ?_⟩
  · rw [Laws.read_fillCells, if_pos ((Laws.mem_matAddrs _).2 ⟨r, c, hr, hc, rfl⟩)]
  · rw [Laws.read_fillCells, if_neg fun hm => ha ((Laws.mem_matAddrs a).1 hm)]

/-- Settles O58: the arm of SEL_RESET concludes the attempt that clears the three. -/
theorem selResetStartsANewSelection : Obligations.SelResetStartsANewSelection := ⟨rfl, fun _ => rfl⟩

end Sys2Proof.Proofs
end

section
/-! Runs counted by windows of five (45_mask_penalty.md R242). -/

namespace Sys2Proof.Proofs

open Sys2Proof.Machine Sys2Proof.Safety

/-! ### The windows of a line, read from left to right -/

/-- How many modules of a colour a line begins with. -/
def leading (colour : Bool) (line : List Bool) : Nat := (line.takeWhile (· == colour)).length

@[simp] theorem leading_nil (colour : Bool) : leading colour [] = 0 := rfl

@[simp] theorem leading_cons_self (b : Bool) (line : List Bool) : leading b (b :: line) = leading b line + 1 := by
  simp [leading]

@[simp] theorem leading_cons_of_ne {b colour : Bool} (h : b ≠ colour) (line : List Bool) :
    leading colour (b :: line) = 0 := by
  simp [leading, h]

theorem replicate_prefix_iff {colour : Bool} {line : List Bool} {n : Nat} :
    List.replicate n colour <+: line ↔ n ≤ leading colour line := by
  induction line generalizing n with
  | nil => cases n <;> simp [List.replicate_succ]
  | cons b rest ih =>
    cases n with
    | zero => simp
    | succ n =>
      rw [List.replicate_succ, List.cons_prefix_cons, ih]
      by_cases h : colour = b
      · subst h; simp
      · simp [h, Ne.symm h]

/-- The score of the windows of a line that stands after a module of colour `prev`, or after none. -/
def windowScoreAfter (prev : Option Bool) : List Bool → Nat
  | [] => 0
  | b :: rest => (if 4 ≤ leading b rest then (if prev = some b then 1 else 3) else 0) + windowScoreAfter (some b) rest

theorem fiveAt_iff {line : List Bool} {i : Nat} :
    fiveAt line i = true ↔ ∃ colour, List.replicate 5 colour <+: line.drop i := by
  have hprefix (colour : Bool) : List.replicate 5 colour <+: line.drop i ↔
      (line.drop i).take 5 = List.replicate 5 colour := by
    rw [List.prefix_iff_eq_take, List.length_replicate, eq_comm]
  have hlen (colour : Bool) (h : (line.drop i).take 5 = List.replicate 5 colour) : i + 5 ≤ line.length := by
    have := congrArg List.length h
    simp only [List.length_take, List.length_drop, List.length_replicate] at this
    omega
  simp only [hprefix, fiveAt, Bool.and_eq_true, decide_eq_true_eq, Bool.or_eq_true, beq_iff_eq, Bool.exists_bool,
    or_comm, and_iff_right_iff_imp]
  exact fun h => h.elim (hlen _) (hlen _)

theorem fiveAt_append_cons (pre : List Bool) (b : Bool) (rest : List Bool) :
    fiveAt (pre ++ b :: rest) pre.length = true ↔ 4 ≤ leading b rest := by
  rw [fiveAt_iff, List.drop_left, ← replicate_prefix_iff]
  simp only [List.replicate_succ (n := 4), List.cons_prefix_cons, exists_eq_left]

theorem runStartsAt_append_cons (pre : List Bool) (b : Bool) (rest : List Bool) :
    runStartsAt (pre ++ b :: rest) pre.length = true ↔ pre.getLast? ≠ some b := by
  induction pre using List.reverseRecOn with
  | nil => simp [runStartsAt]
  | append_singleton pre a => simp [runStartsAt]

/-- What the window at position `i` adds to the score. -/
def windowScoreAt (line : List Bool) (i : Nat) : Nat :=
  if fiveAt line i then (if runStartsAt line i then 3 else 1) else 0

theorem windowRunScore_eq_sum (line : List Bool) :
    windowRunScore line = ∑ i ∈ Finset.range line.length, windowScoreAt line i := rfl

theorem windowScoreAt_append_cons (pre : List Bool) (b : Bool) (rest : List Bool) :
    windowScoreAt (pre ++ b :: rest) pre.length =
      if 4 ≤ leading b rest then (if pre.getLast? = some b then 1 else 3) else 0 := by
  simp only [windowScoreAt, fiveAt_append_cons, runStartsAt_append_cons, ne_eq, ite_not]

/-- The windows that begin after the first modules `pre` of a line. -/
theorem sum_windowScoreAt_append (pre line : List Bool) :
    ∑ i ∈ Finset.range line.length, windowScoreAt (pre ++ line) (pre.length + i) =
      windowScoreAfter pre.getLast? line := by
  induction line generalizing pre with
  | nil => rfl
  | cons b rest ih =>
    have htail := ih (pre ++ [b])
    rw [List.length_append, List.append_assoc, List.singleton_append, List.getLast?_concat] at htail
    rw [List.length_cons, Finset.sum_range_succ', Nat.add_zero, windowScoreAt_append_cons, windowScoreAfter, ← htail,
      Nat.add_comm]
    exact congrArg _ (Finset.sum_congr rfl fun i _ => congrArg _ (by rw [List.length_singleton]; omega))

theorem windowRunScore_eq_windowScoreAfter (line : List Bool) : windowRunScore line = windowScoreAfter none line := by
  simpa [windowRunScore_eq_sum] using sum_windowScoreAt_append [] line

/-! ### The runs -/

theorem runScore_eq (len : Nat) : runScore len = if 5 ≤ len then len - 2 else 0 := by
  unfold runScore
  split <;> omega

/-- A run of `len` modules before the line: the windows that begin in it score with the run, those of the line that
lie in the same run score with the line. -/
theorem sum_runScore_runsFrom (colour : Bool) (len : Nat) (line : List Bool) :
    ((runsFrom colour len line).map runScore).sum + (leading colour line - 4) =
      runScore (len + leading colour line) + windowScoreAfter (some colour) line := by
  induction line generalizing colour len with
  | nil => rfl
  | cons b rest ih =>
    rw [runsFrom, windowScoreAfter]
    by_cases h : b = colour
    · subst h
      have hrest := ih b (len + 1)
      rw [Nat.add_assoc len, Nat.add_comm 1] at hrest
      rw [if_pos rfl, if_pos rfl, leading_cons_self]
      split <;> omega
    · have hrest := ih b 1
      have hrun := runScore_eq (1 + leading b rest)
      have hnew : ¬some colour = some b := by simpa using Ne.symm h
      rw [if_neg h, if_neg hnew, leading_cons_of_ne h, List.map_cons, List.sum_cons, Nat.add_zero len]
      split_ifs at hrun ⊢ <;> omega

/-- Settles O54: both scores are read from left to right; the first run is one that ends no run of the other colour. -/
theorem runScoreIsTheWindowCount : Obligations.RunScoreIsTheWindowCount := by
  intro line
  rw [windowRunScore_eq_windowScoreAfter]
  cases line with
  | nil => rfl
  | cons b rest =>
    have h := sum_runScore_runsFrom (!b) 0 (b :: rest)
    have hzero : runScore 0 = 0 := rfl
    simpa [lineRunScore, runs, runsFrom, windowScoreAfter, hzero] using h

end Sys2Proof.Proofs
end

section
/-! The four rules of the penalty counted over the square, and PENALTY on a written square (45_mask_penalty.md R242 to
R246, R249). -/

namespace Sys2Proof.Proofs

open Sys2Proof.Machine Sys2Proof.Safety

/-! ### Sums over the lines and the windows -/

theorem sum_linesOf (m : Nat → Nat → Bool) (n : Nat) (score : List Bool → Nat) :
    ((linesOf m n).map score).sum = ∑ l ∈ Finset.range n,
      (score ((List.range n).map fun c => m l c) + score ((List.range n).map fun r => m r l)) := by
  rw [linesOf, List.map_append, List.sum_append, List.map_map, List.map_map, Finset.sum_add_distrib]
  rfl

theorem countP_range_eq_sum (n : Nat) (p : Nat → Bool) :
    (List.range n).countP p = ∑ c ∈ Finset.range n, if p c = true then 1 else 0 := by
  induction n with
  | zero => rfl
  | succ n ih => rw [List.range_succ, List.countP_append, List.countP_singleton, ih, Finset.sum_range_succ]

theorem sum_countP_range (k n : Nat) (p : Nat → Nat → Bool) :
    ((List.range k).map fun r => (List.range n).countP (p r)).sum =
      ∑ r ∈ Finset.range k, ∑ c ∈ Finset.range n, if p r c = true then 1 else 0 := by
  simp only [← countP_range_eq_sum]
  rfl

theorem sum_countP_range_congr {k n : Nat} {p q : Nat → Nat → Bool} (h : ∀ r c, r < k → c < n → p r c = q r c) :
    ((List.range k).map fun r => (List.range n).countP (p r)).sum =
      ((List.range k).map fun r => (List.range n).countP (q r)).sum := by
  rw [sum_countP_range, sum_countP_range]
  refine Finset.sum_congr rfl fun r hr => Finset.sum_congr rfl fun c hc => ?_
  rw [h r c (Finset.mem_range.1 hr) (Finset.mem_range.1 hc)]

theorem card_filter_range_product (k n : Nat) (p : Nat → Nat → Bool) :
    ((Finset.range k ×ˢ Finset.range n).filter fun x => p x.1 x.2 = true).card =
      ∑ r ∈ Finset.range k, ∑ c ∈ Finset.range n, if p r c = true then 1 else 0 := by
  rw [Finset.card_filter, Finset.sum_product]

/-! ### The four rules -/

theorem penA_eq_sum (m : Nat → Nat → Bool) (n : Nat) :
    penA m n = ∑ l ∈ Finset.range n,
      (windowRunScore ((List.range n).map fun c => m l c) + windowRunScore ((List.range n).map fun r => m r l)) := by
  simp only [← runScoreIsTheWindowCount _]
  exact sum_linesOf m n lineRunScore

theorem uniformBlock_iff {m : Nat → Nat → Bool} {r c : Nat} :
    uniformBlock m r c = true ↔ m r c = m (r + 1) c ∧ m r c = m r (c + 1) ∧ m r c = m (r + 1) (c + 1) := by
  simp only [uniformBlock, Bool.and_eq_true, beq_iff_eq, and_assoc]

theorem penB_eq_blockCount (m : Nat → Nat → Bool) (n : Nat) : penB m n = 3 * blockCount m n := by
  simp only [penB, blockCount, sum_countP_range, ← uniformBlock_iff, card_filter_range_product]

theorem darkCount_eq_darkModules (m : Nat → Nat → Bool) (n : Nat) : darkCount m n = darkModules m n := by
  rw [darkCount, darkModules, sum_countP_range, card_filter_range_product]

/-- The modules from column `c` on begin with the finder-like pattern. -/
def finderAt (line : Nat → Bool) (c : Nat) : Bool :=
  line c && !line (c + 1) && line (c + 2) && line (c + 3) && line (c + 4) && !line (c + 5) && line (c + 6)

theorem finderAt_iff {line : Nat → Bool} {c : Nat} :
    finderAt line c = true ↔ line c = true ∧ line (c + 1) = false ∧ line (c + 2) = true ∧ line (c + 3) = true ∧
      line (c + 4) = true ∧ line (c + 5) = false ∧ line (c + 6) = true := by
  simp only [finderAt, Bool.and_eq_true, Bool.not_eq_true', and_assoc]

theorem finderCount_of_length_lt {line : List Bool} (h : line.length < 7) : finderCount line = 0 := by
  have := finderCount_le line
  omega

theorem isPrefixOf_map_range (line : Nat → Bool) (k : Nat) :
    finderPattern.isPrefixOf ((List.range (k + 7)).map line) = finderAt line 0 := by
  simp [List.range_succ_eq_map, finderPattern, List.isPrefixOf, finderAt, Bool.and_assoc]

/-- A line given by its modules holds the pattern where they spell it, up to the seventh module from its end. -/
theorem finderCount_map_range (line : Nat → Bool) (n : Nat) :
    finderCount ((List.range n).map line) = (List.range (n - 6)).countP (finderAt line) := by
  induction n generalizing line with
  | zero => rfl
  | succ n ih =>
    rcases Nat.lt_or_ge n 6 with hshort | hlong
    · rw [finderCount_of_length_lt (by rw [List.length_map, List.length_range]; omega), Nat.sub_eq_zero_of_le hshort]
      rfl
    · obtain ⟨k, rfl⟩ := Nat.exists_eq_add_of_le' hlong
      have hcons : (List.range (k + 7)).map line = line 0 :: (List.range (k + 6)).map (line ∘ Nat.succ) := by
        rw [List.range_succ_eq_map, List.map_cons, List.map_map]
      have hfirst := isPrefixOf_map_range line k
      rw [hcons] at hfirst
      rw [hcons, finderCount, hfirst, ih, Nat.add_sub_cancel, show k + 6 + 1 - 6 = k + 1 from rfl,
        List.range_succ_eq_map, List.countP_cons, List.countP_map, Nat.add_comm]
      rfl

theorem sum_finderCount_rows (m : Nat → Nat → Bool) (n : Nat) :
    ∑ l ∈ Finset.range n, finderCount ((List.range n).map fun c => m l c) = finderPositions m n := by
  simp only [finderCount_map_range, countP_range_eq_sum, finderPositions, ← finderAt_iff (line := m _)]
  exact (card_filter_range_product n (n - 6) fun r c => finderAt (m r) c).symm

theorem penC_eq_finderPositions (m : Nat → Nat → Bool) (n : Nat) :
    penC m n = 40 * (finderPositions m n + finderPositions (fun r c => m c r) n) := by
  rw [penC, sum_linesOf, Finset.sum_add_distrib, sum_finderCount_rows, sum_finderCount_rows fun r c => m c r]

/-- The rule's form over the integers: the natural division is that of the absolute value. -/
theorem penD_eq_ratio (m : Nat → Nat → Bool) (n : Nat) :
    (penD m n : ℤ) = 10 * (|20 * (darkModules m n : ℤ) - 10 * (n : ℤ) ^ 2| / (n : ℤ) ^ 2) := by
  rw [penD, ratioScore, darkCount_eq_darkModules]
  push_cast
  rfl

/-! ### The square in MAT -/

/-- The penalty of a square depends only on the modules in it. -/
theorem penaltyOf_congr {m m' : Nat → Nat → Bool} {n : Nat} (h : ∀ r c, r < n → c < n → m r c = m' r c) :
    penaltyOf m n = penaltyOf m' n := by
  have hlines : linesOf m n = linesOf m' n := by
    unfold linesOf
    congr 1 <;> refine List.map_congr_left fun a ha => List.map_congr_left fun b hb => ?_
    · exact h a b (List.mem_range.1 ha) (List.mem_range.1 hb)
    · exact h b a (List.mem_range.1 hb) (List.mem_range.1 ha)
  have hblocks : penB m n = penB m' n := congrArg (3 * ·) <| sum_countP_range_congr fun r c hr hc => by
    rw [uniformBlock, uniformBlock, h r c (by omega) (by omega), h (r + 1) c (by omega) (by omega),
      h r (c + 1) (by omega) (by omega), h (r + 1) (c + 1) (by omega) (by omega)]
  have hdark : darkCount m n = darkCount m' n := sum_countP_range_congr h
  rw [penaltyOf, penaltyOf, penA, penA, hlines, hblocks, penC, penC, hlines, penD, penD, hdark]

theorem cellOf_map_range (m : Nat → Nat → Bool) {n r c : Nat} (hr : r < n) (hc : c < n) :
    cellOf ((List.range n).map fun i => (List.range n).map (m i)) r c = m r c := by
  simp [cellOf, hr, hc]

theorem matPenalty_of_squareWritten {s : State} (h : squareWritten s.mem s.matN) :
    matPenalty s = .ok (penaltyOf (moduleAt s.mem) s.matN) := by
  have hrows := Laws.readRows_written s.mem s.matN 0 s.matN fun i j _ hi hj => h i j (by omega) hj
  rw [← List.range_eq_range'] at hrows
  rw [matPenalty, hrows]
  exact congrArg _ (penaltyOf_congr fun r c hr hc => cellOf_map_range _ hr hc)

theorem exec_penalty {s : State} (h : squareWritten s.mem s.matN) :
    exec .penalty s = .next (completed s (withPenalty s (penaltyOf (moduleAt s.mem) s.matN))) := by
  simp only [exec, execPenalty, matPenalty_of_squareWritten h]
  rfl

/-- Settles O53: the unit reads the colours of the square, and each rule is a sum over its lines or windows. -/
theorem penaltyScoresTheSquare : Obligations.PenaltyScoresTheSquare :=
  ⟨fun _ h => exec_penalty h, fun m n =>
    ⟨rfl, penA_eq_sum m n, penB_eq_blockCount m n, penC_eq_finderPositions m n, penD_eq_ratio m n⟩⟩

end Sys2Proof.Proofs
end

section
/-! The laws of the penalty: transposition, colour swap and squares of one colour (45_mask_penalty.md R254). -/

namespace Sys2Proof.Proofs

open Sys2Proof.Machine Sys2Proof.Safety

/-! ### Transposition -/

theorem sum_linesOf_transpose (m : Nat → Nat → Bool) (n : Nat) (score : List Bool → Nat) :
    ((linesOf (fun r c => m c r) n).map score).sum = ((linesOf m n).map score).sum := by
  rw [sum_linesOf, sum_linesOf]
  exact Finset.sum_congr rfl fun l _ => Nat.add_comm _ _

theorem sum_countP_range_comm (n : Nat) (p : Nat → Nat → Bool) :
    ((List.range n).map fun r => (List.range n).countP fun c => p c r).sum =
      ((List.range n).map fun r => (List.range n).countP (p r)).sum := by
  rw [sum_countP_range, sum_countP_range, Finset.sum_comm]

theorem uniformBlock_transpose (m : Nat → Nat → Bool) (r c : Nat) :
    uniformBlock (fun r c => m c r) r c = uniformBlock m c r := by
  rw [Bool.eq_iff_iff, uniformBlock_iff, uniformBlock_iff, and_left_comm]

theorem penaltyOf_transpose (m : Nat → Nat → Bool) (n : Nat) : penaltyOf (fun r c => m c r) n = penaltyOf m n := by
  have hblocks : penB (fun r c => m c r) n = penB m n := by
    simp only [penB, uniformBlock_transpose]
    exact congrArg (3 * ·) (sum_countP_range_comm (n - 1) (uniformBlock m))
  have hdark : darkCount (fun r c => m c r) n = darkCount m n := sum_countP_range_comm n m
  rw [penaltyOf, penaltyOf, hblocks, penD, penD, hdark, penA, penA, penC, penC, sum_linesOf_transpose m,
    sum_linesOf_transpose m]

/-! ### Colour swap -/

theorem runsFrom_map_not (colour : Bool) (len : Nat) (line : List Bool) :
    runsFrom (!colour) len (line.map (!·)) = runsFrom colour len line := by
  induction line generalizing colour len with
  | nil => rfl
  | cons b rest ih => simp only [List.map_cons, runsFrom, ih, Bool.not_inj_iff]

theorem lineRunScore_map_not (line : List Bool) : lineRunScore (line.map (!·)) = lineRunScore line := by
  cases line with
  | nil => rfl
  | cons b rest => rw [lineRunScore, lineRunScore, List.map_cons, runs, runs, runsFrom_map_not]

theorem penA_not (m : Nat → Nat → Bool) (n : Nat) : penA (fun r c => !m r c) n = penA m n := by
  have hline (f : Nat → Bool) : (List.range n).map (fun i => !f i) = ((List.range n).map f).map (!·) := by
    rw [List.map_map]; rfl
  simp only [penA, sum_linesOf, hline, lineRunScore_map_not]

theorem penB_not (m : Nat → Nat → Bool) (n : Nat) : penB (fun r c => !m r c) n = penB m n := by
  simp only [penB_eq_blockCount, blockCount, Bool.not_inj_iff]

theorem darkCount_not (m : Nat → Nat → Bool) (n : Nat) : darkCount (fun r c => !m r c) n + darkCount m n = n ^ 2 := by
  have hcell (b : Bool) : ((if (!b) = true then 1 else 0) + if b = true then 1 else 0) = 1 := by cases b <;> rfl
  simp only [darkCount, sum_countP_range, ← Finset.sum_add_distrib, hcell]
  simp [pow_two]

/-- The dark ratio and the light ratio are equally far from one half. -/
theorem penD_not (m : Nat → Nat → Bool) (n : Nat) : penD (fun r c => !m r c) n = penD m n := by
  have hsum := darkCount_not m n
  have hdist : (((20 * darkCount (fun r c => !m r c) n : Nat) : Int) - ((10 * n ^ 2 : Nat) : Int)).natAbs =
      (((20 * darkCount m n : Nat) : Int) - ((10 * n ^ 2 : Nat) : Int)).natAbs := by omega
  rw [penD, penD, ratioScore, ratioScore, hdist]

/-! ### Squares of one colour -/

theorem runsFrom_replicate (b : Bool) (len k : Nat) : runsFrom b len (List.replicate k b) = [len + k] := by
  induction k generalizing len with
  | zero => rfl
  | succ k ih => rw [List.replicate_succ, runsFrom, if_pos rfl, ih, Nat.add_assoc, Nat.add_comm 1]

theorem lineRunScore_replicate (b : Bool) {n : Nat} (h : 5 ≤ n) : lineRunScore (List.replicate n b) = n - 2 := by
  obtain ⟨k, rfl⟩ := Nat.exists_eq_add_of_le' (Nat.le_trans (by decide : 1 ≤ 5) h)
  rw [lineRunScore, List.replicate_succ, runs, runsFrom_replicate, List.map_singleton, List.sum_singleton, Nat.add_comm,
    runScore_eq, if_pos h]

theorem penA_uniform (b : Bool) {n : Nat} (h : 5 ≤ n) : penA (fun _ _ => b) n = 2 * n * (n - 2) := by
  simp only [penA, sum_linesOf, List.map_const', List.length_range, lineRunScore_replicate b h, Finset.sum_const,
    Finset.card_range, smul_eq_mul]
  ring

theorem penB_uniform (b : Bool) (n : Nat) : penB (fun _ _ => b) n = 3 * (n - 1) ^ 2 := by
  simp [penB_eq_blockCount, blockCount, pow_two]

/-- The finder-like pattern has modules of both colours. -/
theorem penC_uniform (b : Bool) (n : Nat) : penC (fun _ _ => b) n = 0 := by
  cases b <;> simp [penC_eq_finderPositions, finderPositions]

theorem darkModules_uniform (b : Bool) (n : Nat) : darkModules (fun _ _ => b) n = if b then n ^ 2 else 0 := by
  cases b <;> simp [darkModules, pow_two]

theorem penD_uniform (b : Bool) {n : Nat} (h : 0 < n) : penD (fun _ _ => b) n = 100 := by
  have hdist : (((20 * if b then n ^ 2 else 0 : Nat) : Int) - ((10 * n ^ 2 : Nat) : Int)).natAbs = 10 * n ^ 2 := by
    split_ifs <;> omega
  rw [penD, ratioScore, darkCount_eq_darkModules, darkModules_uniform, hdist, Nat.mul_div_cancel _ (Nat.pow_pos h)]

theorem penaltyOf_uniform (b : Bool) {n : Nat} (h : 5 ≤ n) :
    penaltyOf (fun _ _ => b) n = 2 * n * (n - 2) + 3 * (n - 1) ^ 2 + 100 := by
  rw [penaltyOf, penA_uniform b h, penB_uniform, penC_uniform, penD_uniform b (by omega), Nat.add_zero]

/-- Settles O56: each law holds rule by rule. -/
theorem penaltyLawsOfTransposeColourAndUniformSquares :
    Obligations.PenaltyLawsOfTransposeColourAndUniformSquares :=
  ⟨penaltyOf_transpose, fun m n => ⟨penA_not m n, penB_not m n, penD_not m n⟩, fun b _ h => penaltyOf_uniform b h⟩

/-! ### The colour swap of the whole penalty -/

/-- A square whose first row is the finder-like pattern, light below it. -/
def finderRow (r c : Nat) : Bool := r == 0 && finderPattern.getD c false

/-- Refutes O57: at side 7 the first row of `finderRow` is counted by rule (c), and swapped the square has no such
line. -/
theorem not_colourSwapKeepsTheWholePenalty : ¬Obligations.ColourSwapKeepsTheWholePenalty := by
  intro h
  have hfound : penC finderRow 7 = 40 := by decide
  have hnone : penC (fun r c => !finderRow r c) 7 = 0 := by decide
  have hwhole := h finderRow 7
  simp only [penaltyOf, penA_not, penB_not, penD_not, hfound, hnone] at hwhole
  omega

end Sys2Proof.Proofs
end

section
/-! Mask selection: scoring one candidate, and the least pair of a list of candidates (45_mask_penalty.md R250 to
R252). -/

namespace Sys2Proof.Proofs

open Sys2Proof.Machine Sys2Proof.Safety

/-! ### One candidate -/

theorem penaltyOf_toNat (m : Nat → Nat → Bool) {n : Nat} (h : n ≤ 177) :
    (BitVec.ofNat 32 (penaltyOf m n)).toNat = penaltyOf m n := (penaltyFitsItsRegister m n h).2

theorem mask_toNat {a : Word} (h : a.toNat ≤ 7) : (a.setWidth 3).toNat = a.toNat := by
  rw [BitVec.toNat_setWidth]
  omega

/-- The comparison of the registers is that of the numbers (45_mask_penalty.md R251). -/
theorem beatsBest_iff {r : Results} {p : Word} {m : BitVec 3} :
    beatsBest r p m = true ↔ r.bestValid = false ∨ p.toNat < r.bestPenalty.toNat ∨
      (p.toNat = r.bestPenalty.toNat ∧ m.toNat < r.bestMask.toNat) := by
  simp only [beatsBest, Bool.or_eq_true, Bool.and_eq_true, Bool.not_eq_true', decide_eq_true_eq, BitVec.lt_def,
    BitVec.toNat_inj, or_assoc]

theorem keepBest_of_beats {r : Results} {p : Word} {m : BitVec 3} (h : beatsBest r p m = true) :
    keepBest p m r = { r with bestPenalty := p, bestMask := m, bestValid := true } := if_pos h

theorem keepBest_of_not_beats {r : Results} {p : Word} {m : BitVec 3} (h : ¬beatsBest r p m = true) :
    keepBest p m r = r := if_neg h

theorem exec_selScore {s : State} (hm : s.arg0.toNat ≤ 7) (hw : squareWritten s.mem s.matN) :
    exec .selScore s = .next (completed s (keepBest (BitVec.ofNat 32 (penaltyOf (moduleAt s.mem) s.matN))
      (s.arg0.setWidth 3) (withPenalty s (penaltyOf (moduleAt s.mem) s.matN)))) := by
  simp only [exec, execSelScore, operandCount_of_le hm, matPenalty_of_squareWritten hw]
  rfl

/-- Settles O59: the penalty fits its register, so the registers compare as the numbers do. -/
theorem selScoreKeepsTheBetterCandidate : Obligations.SelScoreKeepsTheBetterCandidate := by
  intro s hm hn hw p scored better
  have hbeats : beatsBest scored (BitVec.ofNat 32 p) (s.arg0.setWidth 3) = true ↔ better := by
    rw [beatsBest_iff, penaltyOf_toNat _ hn, mask_toNat hm]
  have hexec : exec .selScore s = .next (completed s (keepBest (BitVec.ofNat 32 p) (s.arg0.setWidth 3) scored)) :=
    exec_selScore hm hw
  exact ⟨fun h => by rw [hexec, keepBest_of_beats (hbeats.2 h)],
    fun h => by rw [hexec, keepBest_of_not_beats (hbeats.not.2 h)]⟩

/-! ### A list of candidates -/

theorem lexLe_iff {x y : Nat × Nat} : lexLe x y ↔ toLex x ≤ toLex y := (Prod.Lex.toLex_le_toLex).symm

/-- The pair (penalty, mask) of the best candidate so far. -/
def bestPair (s : State) : Nat × Nat := (s.bestPenalty.toNat, s.bestMask.toNat)

/-- The best candidate so far as a list: none while BEST_VALID = 0. -/
def bestSoFar (s : State) : List (Nat × Nat) := if s.bestValid then [bestPair s] else []

/-- The best candidate of `u` is the least of a list of pairs. -/
def HoldsLeast (u : State) (pairs : List (Nat × Nat)) : Prop :=
  u.bestValid = true ∧ bestPair u ∈ pairs ∧ ∀ x ∈ pairs, lexLe (bestPair u) x

theorem bestSoFar_of_valid {s : State} (h : s.bestValid = true) : bestSoFar s = [bestPair s] := if_pos h

theorem bestSoFar_of_not_valid {s : State} (h : s.bestValid = false) : bestSoFar s = [] := by
  rw [bestSoFar, h]
  exact if_neg Bool.false_ne_true

theorem HoldsLeast.append {t u : State} {xs ys : List (Nat × Nat)} (ht : HoldsLeast t xs)
    (hu : HoldsLeast u (bestSoFar t ++ ys)) : HoldsLeast u (xs ++ ys) := by
  obtain ⟨hvalid, hmem, hle⟩ := ht
  obtain ⟨hvalid', hmem', hle'⟩ := hu
  rw [bestSoFar_of_valid hvalid, List.singleton_append] at hmem' hle'
  refine ⟨hvalid', ?_, fun x hx => ?_⟩
  · obtain h | h := List.mem_cons.1 hmem'
    · exact List.mem_append_left _ (h ▸ hmem)
    · exact List.mem_append_right _ h
  · obtain h | h := List.mem_append.1 hx
    · exact lexLe_iff.2 ((lexLe_iff.1 (hle' _ List.mem_cons_self)).trans (lexLe_iff.1 (hle x h)))
    · exact hle' x (List.mem_cons_of_mem _ h)

/-- The new best is the candidate `x`, which no best before it undercuts. -/
theorem holdsLeast_of_replaced {s t : State} {x : Nat × Nat} (ht : t.bestValid = true) (hx : bestPair t = x)
    (hle : s.bestValid = true → lexLe x (bestPair s)) : HoldsLeast t (bestSoFar s ++ [x]) := by
  subst hx
  have hrefl : lexLe (bestPair t) (bestPair t) := .inr ⟨rfl, le_rfl⟩
  cases hs : s.bestValid with
  | false => simpa [HoldsLeast, bestSoFar_of_not_valid hs, ht] using hrefl
  | true => simpa [HoldsLeast, bestSoFar_of_valid hs, ht] using ⟨hle hs, hrefl⟩

/-- The best stays, and the candidate `x` does not undercut it. -/
theorem holdsLeast_of_kept {s t : State} {x : Nat × Nat} (hs : s.bestValid = true) (ht : t.bestValid = true)
    (hst : bestPair t = bestPair s) (hle : lexLe (bestPair s) x) : HoldsLeast t (bestSoFar s ++ [x]) := by
  have hrefl : lexLe (bestPair s) (bestPair s) := .inr ⟨rfl, le_rfl⟩
  simpa [HoldsLeast, bestSoFar_of_valid hs, ht, hst] using ⟨hrefl, hle⟩

/-- Scoring a candidate leaves the lesser of it and the best so far. -/
theorem exists_exec_selScore {s : State} {c : Nat × Memory} (hn : s.matN ≤ 177) (hm : c.1 ≤ 7)
    (hw : squareWritten c.2 s.matN) :
    ∃ t, exec .selScore { s with arg0 := BitVec.ofNat 32 c.1, mem := c.2 } = .next t ∧ t.matN = s.matN ∧
      HoldsLeast t (bestSoFar s ++ [(penaltyOf (moduleAt c.2) s.matN, c.1)]) := by
  have harg : (BitVec.ofNat 32 c.1).toNat = c.1 := Nat.mod_eq_of_lt (by omega)
  have hmask : ((BitVec.ofNat 32 c.1).setWidth 3).toNat = c.1 := by rw [mask_toNat (harg.trans_le hm), harg]
  obtain ⟨hreplaced, hkept⟩ := selScoreKeepsTheBetterCandidate { s with arg0 := BitVec.ofNat 32 c.1, mem := c.2 }
    (harg.trans_le hm) hn hw
  simp only [harg] at hreplaced hkept
  by_cases hbetter : s.bestValid = false ∨ penaltyOf (moduleAt c.2) s.matN < s.bestPenalty.toNat ∨
      (penaltyOf (moduleAt c.2) s.matN = s.bestPenalty.toNat ∧ c.1 < s.bestMask.toNat)
  · refine ⟨_, hreplaced hbetter, rfl, holdsLeast_of_replaced rfl ?_ fun hs => ?_⟩
    · exact Prod.ext (penaltyOf_toNat _ hn) hmask
    · rw [hs] at hbetter
      exact (hbetter.resolve_left Bool.noConfusion).imp_right fun ⟨hp, hlt⟩ => ⟨hp, hlt.le⟩
  · obtain ⟨hs, hp, hpm⟩ := by simpa only [not_or, Bool.not_eq_false, not_lt, not_and] using hbetter
    refine ⟨_, hkept hbetter, rfl, holdsLeast_of_kept hs hs rfl ?_⟩
    exact hp.lt_or_eq.imp_right fun he => ⟨he, hpm he.symm⟩

/-- Every candidate is scored, whatever the best before the list was. -/
theorem exists_scoreAll {cands : List (Nat × Memory)} {s : State} (hn : s.matN ≤ 177)
    (hne : bestSoFar s ++ candidatePairs s.matN cands ≠ [])
    (hc : ∀ c ∈ cands, c.1 ≤ 7 ∧ squareWritten c.2 s.matN) :
    ∃ u, scoreAll cands s = some u ∧ HoldsLeast u (bestSoFar s ++ candidatePairs s.matN cands) := by
  induction cands generalizing s with
  | nil =>
    have hvalid : s.bestValid = true := by
      by_contra h
      exact hne (by rw [bestSoFar_of_not_valid (Bool.eq_false_of_not_eq_true h)]; rfl)
    refine ⟨s, rfl, hvalid, ?_⟩
    simp [bestSoFar_of_valid hvalid, candidatePairs, lexLe]
  | cons c cands ih =>
    obtain ⟨hm, hw⟩ := hc c List.mem_cons_self
    obtain ⟨t, ht, hside, hleast⟩ := exists_exec_selScore hn hm hw
    obtain ⟨u, hu, hleast'⟩ := ih (hside.trans_le hn) (by rw [bestSoFar_of_valid hleast.1]; exact List.cons_ne_nil _ _)
      fun c' h => hside ▸ hc c' (List.mem_cons_of_mem _ h)
    have hall := hleast.append (hside ▸ hleast')
    exact ⟨u, by rw [scoreAll, ht]; exact hu, by rwa [List.append_assoc] at hall⟩

/-- Settles O60: an induction over the list, with any best candidate before it. -/
theorem selectionIsTheLexicographicMinimum : Obligations.SelectionIsTheLexicographicMinimum := by
  intro cands s hvalid hn hne hc
  have hbest := bestSoFar_of_not_valid hvalid
  have hpairs : candidatePairs s.matN cands ≠ [] := List.map_eq_nil_iff.not.2 hne
  obtain ⟨u, hu, hleast⟩ := exists_scoreAll hn (by rwa [hbest]) hc
  rw [hbest] at hleast
  exact ⟨u, hu, hleast⟩

end Sys2Proof.Proofs
end

section
/-! Commands that end in a fault: OPERAND_RANGE exactly where an ARG operand is out of range, and no effect beyond the
record (60_exceptions.md R285, R292). -/

namespace Sys2Proof.Proofs

open Sys2Proof.Machine Sys2Proof.Safety

/-! ### Attempts that check operands -/

/-- The attempt raises OPERAND_RANGE exactly where `legal` fails. -/
def RangeChecked {α : Type} (legal : Prop) (x : Attempt α) : Prop := x = .error (.fault .operandRange) ↔ ¬legal

section
variable {α β : Type} {x : Attempt α} {f : α → Attempt β} {legal : Prop}

theorem rangeChecked_of_ne (h : x ≠ .error (.fault .operandRange)) : RangeChecked True x :=
  iff_of_false h (not_not_intro trivial)

/-- An attempt that can only stop at unwritten cells raises nothing. -/
theorem rangeChecked_of_unwritten (h : ∀ e, x = .error e → ∃ a, e = .unwritten a) : RangeChecked True x :=
  rangeChecked_of_ne fun e => by
    obtain ⟨a, ha⟩ := h _ e
    cases ha

theorem rangeChecked_pure (a : α) : RangeChecked True (pure a : Attempt α) := rangeChecked_of_ne nofun

/-- An operand is checked, then the rest of the rule runs. -/
theorem rangeChecked_operand_bind {p : Prop} {a : α} (hx : p ∧ x = .ok a ∨ ¬p ∧ x = .error (.fault .operandRange))
    (hf : RangeChecked legal (f a)) : RangeChecked (p ∧ legal) (x >>= f) := by
  obtain ⟨hp, rfl⟩ | ⟨hp, rfl⟩ := hx
  · exact hf.trans (not_congr (and_iff_right hp).symm)
  · exact iff_of_true rfl fun h => hp h.1

/-- A step that never raises OPERAND_RANGE, then one that does not either. -/
theorem rangeChecked_bind (hx : RangeChecked True x) (hf : ∀ a, RangeChecked True (f a)) :
    RangeChecked True (x >>= f) := by
  match x with
  | .ok a => exact hf a
  | .error e => exact rangeChecked_of_ne fun h => hx.1 (congrArg _ (Except.error.inj h)) trivial

end

/-! ### Operands -/

section
variable {β : Type} {legal : Prop}

theorem rangeChecked_elem {a : Word} {f : Byte → Attempt β} (hf : RangeChecked legal (f (a.setWidth 8))) :
    RangeChecked (a.toNat ≤ 255 ∧ legal) (operandElem a >>= f) :=
  rangeChecked_operand_bind ((Laws.operandElem_cases a).imp_right fun h => ⟨h.1.not_ge, h.2⟩) hf

theorem rangeChecked_bit {a : Word} {f : Bool → Attempt β} (hf : RangeChecked legal (f (a == 1))) :
    RangeChecked (a.toNat ≤ 1 ∧ legal) (operandBit a >>= f) :=
  rangeChecked_operand_bind ((Laws.operandBit_cases a).imp_right fun h => ⟨h.1.not_ge, h.2⟩) hf

theorem rangeChecked_sel {a : Word} {f : Bool → Attempt β} (hf : RangeChecked legal (f (a == 1))) :
    RangeChecked (a.toNat ≤ 1 ∧ legal) (operandSel a >>= f) :=
  rangeChecked_operand_bind ((Laws.operandSel_cases a).imp_right fun h => ⟨h.1.not_ge, h.2⟩) hf

theorem rangeChecked_count {hi : Nat} {a : Word} {f : Nat → Attempt β} (hf : RangeChecked legal (f a.toNat)) :
    RangeChecked (a.toNat ≤ hi ∧ legal) (operandCount 0 hi a >>= f) :=
  rangeChecked_operand_bind ((Laws.operandCount_cases 0 hi a).imp (fun h => h.2)
    fun h => ⟨fun hle => h.1 ⟨Nat.zero_le _, hle⟩, h.2⟩) hf

end

/-! ### What never raises OPERAND_RANGE -/

theorem rangeChecked_glog (x : Byte) : RangeChecked True (glog x) := by
  refine rangeChecked_of_ne ?_
  obtain ⟨-, e⟩ | ⟨-, e⟩ := Laws.glog_cases x <;> rw [e] <;> nofun

theorem rangeChecked_readCells (m : Memory) (a n : Nat) : RangeChecked True (readCells m a n) :=
  rangeChecked_of_unwritten fun e he => by
    obtain ⟨i, -, -, h⟩ := Laws.readCells_error m a n e he
    exact ⟨_, h⟩

theorem rangeChecked_fitPoly (p : List Byte) : RangeChecked True (fitPoly p) := by
  unfold fitPoly raise
  split_ifs <;> exact rangeChecked_of_ne nofun

theorem rangeChecked_pmod (a b : List Byte) : RangeChecked True (pmod a b) := by
  refine rangeChecked_of_ne ?_
  obtain ⟨-, e⟩ | ⟨-, -, -, e⟩ | ⟨-, -, r, e⟩ := pmod_cases a b <;> rw [e] <;> nofun

theorem rangeChecked_matPenalty (s : State) : RangeChecked True (matPenalty s) := by
  refine rangeChecked_of_ne ?_
  obtain ⟨-, p, e⟩ | ⟨r, c, -, -, -, e⟩ := matPenalty_cases s <;> rw [e] <;> nofun

theorem rangeChecked_fitBits (len limit : Nat) : RangeChecked True (fitBits len limit) := by
  unfold fitBits raise
  split_ifs <;> exact rangeChecked_of_ne nofun

theorem appendBits_error {v k : Nat} {r : Results} {e : Stop} (h : appendBits v k r = .error e) :
    ∃ a, e = .unwritten a := by
  induction k generalizing r with
  | zero => cases h
  | succ k ih =>
    rw [appendBits] at h
    split at h
    next e' he => cases h; exact appendBit_error he
    next t ht => exact ih h

theorem padBytes_error {t n : Nat} {r : Results} {e : Stop} (h : padBytes t n r = .error e) :
    ∃ a, e = .unwritten a := by
  induction n generalizing t r with
  | zero => cases h
  | succ n ih =>
    rw [padBytes] at h
    split at h
    next e' he => cases h; exact appendBits_error he
    next u hu => exact ih h

theorem terminator_error {c : Nat} {r : Results} {e : Stop} (h : terminator c r = .error e) :
    ∃ a, e = .unwritten a := by
  unfold terminator at h
  split_ifs at h
  exact appendBits_error h

theorem padTo_error {c : Nat} {r : Results} {e : Stop} (h : padTo c r = .error e) : ∃ a, e = .unwritten a := by
  unfold padTo at h
  split at h
  next e' he => cases h; exact terminator_error he
  next r₁ h₁ =>
    split at h
    next e' he => cases h; exact appendBits_error he
    next r₂ h₂ => exact padBytes_error h

/-! ### The commands -/

/-- Every command checks the operands of its row of the table, and nothing after them raises OPERAND_RANGE. -/
theorem exec_rangeChecked (i : Instr) (s : State) :
    ∃ x p, exec i s = conclude i s x ∧ RangeChecked p x ∧ (argsLegal i s = true ↔ p) := by
  cases i with
  | nop | gfExp | bbClear | selReset => exact ⟨.ok _, True, rfl, rangeChecked_pure _, iff_of_true rfl trivial⟩
  | gfLog =>
    exact ⟨_, _, rfl, rangeChecked_elem (rangeChecked_bind (rangeChecked_glog _) fun _ => rangeChecked_pure _),
      by simp [argsLegal]⟩
  | gfMul =>
    exact ⟨_, _, rfl, rangeChecked_elem (rangeChecked_elem (rangeChecked_pure _)), by simp [argsLegal]⟩
  | pNorm =>
    refine ⟨_, _, rfl, rangeChecked_sel (rangeChecked_count (legal := True) ?_), by simp [argsLegal]⟩
    cases s.arg0 == 1 <;>
      exact rangeChecked_bind (rangeChecked_readCells ..) fun _ => rangeChecked_bind (rangeChecked_fitPoly _) fun _ =>
        rangeChecked_pure _
  | pMul =>
    refine ⟨_, True, rfl, rangeChecked_bind (rangeChecked_readCells ..) fun a =>
      rangeChecked_bind (rangeChecked_readCells ..) fun b => ?_, iff_of_true rfl trivial⟩
    dsimp only
    split_ifs
    · exact rangeChecked_of_ne nofun
    · exact rangeChecked_pure _
  | pMod =>
    exact ⟨_, True, rfl, rangeChecked_bind (rangeChecked_readCells ..) fun _ =>
      rangeChecked_bind (rangeChecked_readCells ..) fun _ => rangeChecked_bind (rangeChecked_pmod ..) fun _ =>
        rangeChecked_pure _, iff_of_true rfl trivial⟩
  | pGen => exact ⟨_, _, rfl, rangeChecked_count (rangeChecked_pure _), by simp [argsLegal]⟩
  | rsRem =>
    exact ⟨_, _, rfl, rangeChecked_count (rangeChecked_bind (rangeChecked_readCells ..) fun _ =>
      rangeChecked_bind (rangeChecked_fitPoly _) fun _ => rangeChecked_bind (rangeChecked_pmod ..) fun _ =>
        rangeChecked_pure _), by simp [argsLegal]⟩
  | bbPut =>
    exact ⟨_, _, rfl, rangeChecked_count (rangeChecked_bind (rangeChecked_fitBits ..) fun _ =>
      rangeChecked_of_unwritten fun _ => appendBits_error), by simp [argsLegal]⟩
  | bbPutBit =>
    exact ⟨_, _, rfl, rangeChecked_bit (rangeChecked_bind (rangeChecked_fitBits ..) fun _ =>
      rangeChecked_of_unwritten fun _ => appendBit_error), by simp [argsLegal]⟩
  | bbPad =>
    exact ⟨_, _, rfl, rangeChecked_count (rangeChecked_bind (rangeChecked_fitBits ..) fun _ =>
      rangeChecked_of_unwritten fun _ => padTo_error), by simp [argsLegal]⟩
  | bchFmt | bchVer => exact ⟨_, _, rfl, rangeChecked_count (rangeChecked_pure _), by simp [argsLegal]⟩
  | maskEval =>
    exact ⟨_, _, rfl, rangeChecked_count (rangeChecked_count (rangeChecked_count (rangeChecked_pure _))),
      by simp [argsLegal]⟩
  | matFill => exact ⟨_, _, rfl, rangeChecked_bit (rangeChecked_pure _), by simp [argsLegal]⟩
  | penalty =>
    exact ⟨_, True, rfl, rangeChecked_bind (rangeChecked_matPenalty s) fun _ => rangeChecked_pure _,
      iff_of_true rfl trivial⟩
  | selScore =>
    exact ⟨_, _, rfl, rangeChecked_count (rangeChecked_bind (rangeChecked_matPenalty s) fun _ =>
      rangeChecked_pure _), by simp [argsLegal]⟩

/-- Settles O24: an attempt that fails its check ends in OPERAND_RANGE, and one that passes raises another fault or
completes, which leaves FAULT_CAUSE none. -/
theorem operandsOutOfRangeRaiseOperandRange : Obligations.OperandsOutOfRangeRaiseOperandRange := by
  refine ⟨rfl, fun i s hargs => ?_, fun i s t hargs hflag hcause ht => ?_⟩ <;>
    obtain ⟨x, p, hx, hchecked, hp⟩ := exec_rangeChecked i s
  · rw [hx, hchecked.2 (mt hp.2 (by simp [hargs]))]
    exact Laws.conclude_raise ..
  · rw [hx] at ht
    obtain ⟨r, -, rfl⟩ | ⟨cause, rfl, rfl⟩ := Laws.conclude_next i s t x ht
    · rw [Laws.completed_faultCause, hcause]
      decide
    · rw [Laws.faulted_faultCause, hflag]
      rintro rfl
      exact hchecked.1 rfl (hp.1 hargs)

/-- Settles O25: a command that is not done has ended in `faulted`, which keeps all the rest. -/
theorem aFaultedCommandHasNoOtherEffect : Obligations.AFaultedCommandHasNoOtherEffect := by
  intro i s t hexec hdone
  obtain ⟨r, rfl⟩ | ⟨cause, rfl⟩ := Laws.exec_next i s t hexec
  · cases hdone
  · exact ⟨rfl, rfl, rfl, cause, rfl⟩

end Sys2Proof.Proofs
end

section
/-! The exceptions of host accesses and of reserved words: what is refused and recorded, and how long a record stands
(60_exceptions.md R284 to R294, 70_reset_and_hazards.md R330). -/

namespace Sys2Proof.Proofs

open Sys2Proof.Machine Sys2Proof.Safety

/-! ### Reserved words -/

/-- A word with a reserved field that is not 0, or with the opcode of no command, is no command word. -/
theorem exists_decode_eq_error {w : Word} (h : w >>> 8 ≠ 0 ∨ ∀ i, opcode i ≠ w.setWidth 8) :
    ∃ reject, decode w = .error reject := by
  cases hd : decode w with
  | error reject => exact ⟨reject, rfl⟩
  | ok i =>
    obtain rfl := encode_of_decode hd
    obtain hrsv | hopc := h
    · exact absurd (by cases i <;> decide) hrsv
    · exact absurd (by cases i <;> decide) (hopc i)

/-- The completion of a command launched at a ready unit with a fault as its outcome writes the record and DONE. -/
theorem finish_launch_fault {s : State} (hs : Ready s) (w : Word) (cause : Cause) (b : List BusEvent) :
    finish w (.fault cause) { launch w (.fault cause) s with bus := b } =
      { s with bus := b, done := false, faultFlag := true, faultCause := cause, faultInfo := w } := by
  obtain ⟨hb, hi, hf, -⟩ := hs
  rw [finish_fault_eq]
  simp [hb, hi, hf]

/-- Settles O7: the word is launched with ILLEGAL_COMMAND as its outcome, which completion records. -/
theorem reservedWordsRaiseIllegalCommand : Obligations.ReservedWordsRaiseIllegalCommand := by
  refine ⟨rfl, fun s w rest hs h hw => ?_⟩
  obtain ⟨reject, hd⟩ := exists_decode_eq_error hw
  have haccept : step s = .next (launch w (.fault .illegalCommand) { s with bus := .complete :: rest }) := by
    rw [step_cmdWrite_eq_accept hs h, accept, hd]
  have hcomplete := step_complete (rest := rest)
    (s := launch w (.fault .illegalCommand) { s with bus := .complete :: rest }) rfl rfl
  calc run 2 s
      = run 1 (launch w (.fault .illegalCommand) { s with bus := .complete :: rest }) := run_succ_of_step haccept
    _ = .next (finish w (.fault .illegalCommand) { launch w (.fault .illegalCommand) s with bus := rest }) :=
        run_succ_of_step hcomplete
    _ = _ := by rw [finish_launch_fault hs]

/-! ### Busy-hazard accesses -/

theorem busyExempt_iff {loc : Loc} :
    busyExempt loc = true ↔ ∃ r, (r = .id ∨ r = .status ∨ r = .faultCause ∨ r = .faultInfo) ∧ loc = .reg r := by
  obtain r | ⟨bits, w⟩ := loc
  · cases r <;> simp [busyExempt]
  · simp [busyExempt]

section
variable {s : State} {a : Addr} {loc : Loc} {rest : List BusEvent} (hr : s.inReset = false) (ha : a.toNat % 4 = 0)
  (hl : locate a.toNat = some loc)
include hr ha hl

theorem step_write_busy (hb : s.busy = true) {v : Word} (h : s.bus = .write a 4 v :: rest) :
    step s = .next { recorded .busyAccess a s with bus := rest } := by
  rw [step_write hr h]
  simp [hostWrite, accessFormed, ha, hl, hb, refuseWrite_eq_recorded, recorded]

theorem step_read_busy (hb : s.busy = true) (he : busyExempt loc = false) (h : s.bus = .read a 4 :: rest) :
    step s = .next { recorded .busyAccess a s with bus := rest, readData := 0 } := by
  rw [step_read hr h]
  simp [hostRead, accessFormed, ha, hl, hb, he, refuseRead_eq_recorded, recorded]

/-- An exempt read is permitted whatever BUSY is. -/
theorem step_read_busyExempt (he : busyExempt loc = true) (h : s.bus = .read a 4 :: rest) :
    step s = .next { s with bus := rest, readData := readLoc loc a.toNat { s with bus := rest } } := by
  rw [step_read hr h]
  simp [hostRead, accessFormed, ha, hl, he]

end

/-- Settles O18: of the mapped accesses only the reads of the four exempt registers pass the check of BUSY. -/
theorem busyHazardRefusesEveryOtherAccess : Obligations.BusyHazardRefusesEveryOtherAccess := by
  refine fun s a loc rest hb hr ha hl => ⟨fun v => step_write_busy hr ha hl hb, fun h => ⟨fun hne => ?_, ?_⟩⟩
  · refine step_read_busy hr ha hl hb (Bool.eq_false_iff.2 fun he => ?_) h
    obtain ⟨r, hexempt, rfl⟩ := busyExempt_iff.1 he
    have hoff := (locate_eq_reg_iff ha r).1 hl
    obtain ⟨h₀, h₁, h₂, h₃⟩ := hne
    obtain rfl | rfl | rfl | rfl := hexempt
    · exact h₀ (BitVec.eq_of_toNat_eq hoff)
    · exact h₁ (BitVec.eq_of_toNat_eq hoff)
    · exact h₂ (BitVec.eq_of_toNat_eq hoff)
    · exact h₃ (BitVec.eq_of_toNat_eq hoff)
  · intro r hexempt hoff
    obtain rfl : loc = .reg r := Option.some.inj (hl.symm.trans (hoff ▸ locate_regOffset r))
    exact step_read_busyExempt hr ha hl (busyExempt_iff.2 ⟨r, hexempt, rfl⟩) h

/-! ### ADDRESS faults -/

section
variable {a : Addr} {width : Nat} (hbad : width ≠ 4 ∨ a.toNat % 4 ≠ 0 ∨ locate a.toNat = none)
include hbad

theorem not_mapped_of_malformed {loc : Loc} (hform : accessFormed a width = true) :
    locate a.toNat ≠ some loc := by
  simp only [accessFormed, Bool.and_eq_true, beq_iff_eq] at hform
  obtain h | h | h := hbad
  · exact absurd hform.1 h
  · exact absurd hform.2 h
  · simp [h]

/-- Refused before BUSY is looked at (60_exceptions.md R296). -/
theorem hostRead_malformed (s : State) : hostRead a width s = refuseRead .address a s := by
  obtain ⟨e, -⟩ | ⟨loc, hform, hl, -⟩ := Laws.hostRead_cases a width s
  · exact e
  · exact absurd hl (not_mapped_of_malformed hbad hform)

/-- Refused before BUSY is looked at (60_exceptions.md R296). -/
theorem hostWrite_malformed (v : Word) (s : State) : hostWrite a width v s = .next (refuseWrite .address a s) := by
  obtain ⟨e, -⟩ | ⟨loc, hform, hl, -⟩ := Laws.hostWrite_cases a width v s
  · exact e
  · exact absurd hl (not_mapped_of_malformed hbad hform)

end

theorem hostWrite_readOnly {s : State} {a : Addr} {loc : Loc} (hb : s.busy = false) (ha : a.toNat % 4 = 0)
    (hl : locate a.toNat = some loc) (hw : hostWritable loc = false) (v : Word) :
    hostWrite a 4 v s = .next (refuseWrite .address a s) := by
  simp [hostWrite, accessFormed, ha, hl, hb, hw]

/-- The offsets of the read-only registers, and the cells of PR and BBUF, are mapped to what the host may not write. -/
theorem exists_readOnly {a : Nat} (h : a ∈ [0x000, 0x00C, 0x010, 0x020, 0x02C, 0x030, 0x038, 0x03C, 0x040] ∨
    inWindow prAddr 256 a ∨ inWindow bbAddr 4096 a) :
    a % 4 = 0 ∧ ∃ loc, locate a = some loc ∧ hostWritable loc = false := by
  obtain h | h | h := h
  · have hreg : ∀ n ∈ [0x000, 0x00C, 0x010, 0x020, 0x02C, 0x030, 0x038, 0x03C, 0x040],
        ∃ r ∈ regList, n = regOffset r ∧ hostWritable (.reg r) = false := by decide
    obtain ⟨r, -, rfl, hw⟩ := hreg a h
    exact ⟨regOffset_aligned r, _, locate_regOffset r, hw⟩
  · refine ⟨?_, _, locate_prAddr h, rfl⟩
    obtain ⟨i, -, rfl⟩ := h
    unfold prAddr
    omega
  · refine ⟨?_, _, locate_bbAddr h, rfl⟩
    obtain ⟨j, -, rfl⟩ := h
    unfold bbAddr
    omega

/-- Settles O19: a malformed access fails the first checks, a write to what is read-only the last. -/
theorem badAccessesAreAddressFaults : Obligations.BadAccessesAreAddressFaults := by
  refine ⟨rfl, fun s a width v rest hr hbad => ⟨fun h => ?_, fun h => ?_⟩, fun s a v rest hr hb h hro => ?_⟩
  · rw [step_read hr h, hostRead_malformed hbad, refuseRead_eq_recorded]
    rfl
  · rw [step_write hr h, hostWrite_malformed hbad, refuseWrite_eq_recorded]
    rfl
  · obtain ⟨ha, loc, hl, hw⟩ := exists_readOnly hro
    rw [step_write hr h, hostWrite_readOnly (s := { s with bus := rest }) hb ha hl hw, refuseWrite_eq_recorded]
    rfl

/-! ### How long a record stands -/

/-- `t` has the fault record of `s`. -/
def SameRecord (s t : State) : Prop :=
  t.faultFlag = s.faultFlag ∧ t.faultCause = s.faultCause ∧ t.faultInfo = s.faultInfo

theorem SameRecord.rfl {s : State} : SameRecord s s := ⟨.refl _, .refl _, .refl _⟩

/-- The event clears the fault record of a unit in state `s` (60_exceptions.md R293, 70_reset_and_hazards.md R320). -/
def ClearsRecord (s : State) (e : BusEvent) : Prop :=
  e = .assertReset ∨ (e = .releaseReset ∧ s.inReset = true) ∨
    ∃ v, e = .write 0x008 4 v ∧ v.getLsbD 2 = true ∧ s.busy = false ∧ s.inReset = false

section
variable {s t : State} (hf : s.faultFlag = true)
include hf

theorem sameRecord_recordFault (cause : Cause) (info : Word) : SameRecord s (recordFault cause info s) := by
  rw [Laws.recordFault_standing cause info s hf]
  exact .rfl

theorem sameRecord_complete : SameRecord s (complete s) := by
  obtain ⟨-, e⟩ | ⟨⟨w, o⟩, -, e⟩ := Laws.complete_cases s <;> rw [e]
  · exact .rfl
  · cases o with
    | ok r => exact ⟨rfl, rfl, rfl⟩
    | fault cause => exact sameRecord_recordFault (s := { flagsFaulted s with inflight := none }) hf cause w

theorem sameRecord_hostRead (a : Addr) (width : Nat) : SameRecord s (hostRead a width s) := by
  obtain ⟨e, -⟩ | ⟨loc, -, -, ⟨-, -, e⟩ | ⟨-, e⟩⟩ := Laws.hostRead_cases a width s <;> rw [e]
  · exact sameRecord_recordFault hf ..
  · exact sameRecord_recordFault hf ..
  · exact ⟨rfl, rfl, rfl⟩

theorem issue_of_fault (w : Word) : issue w s = .next s := if_pos hf

theorem writeReg_record {r : Reg} {a : Addr} {v : Word} (h : writeReg r a v s = .next t) :
    SameRecord s t ∨ t.faultFlag = false ∧ r = .status ∧ v.getLsbD 2 = true := by
  cases r with
  | cmd => cases (issue_of_fault hf v).symm.trans h; exact .inl .rfl
  | status =>
    cases h
    split_ifs with hv
    · exact .inr ⟨rfl, rfl, hv⟩
    · exact .inl .rfl
  | paLen | pbLen | matN =>
    cases h
    split_ifs
    · exact .inl ⟨rfl, rfl, rfl⟩
    · exact .inl (sameRecord_recordFault hf ..)
  | _ => cases h; exact .inl ⟨rfl, rfl, rfl⟩

theorem hostWrite_record (hr : s.inReset = false) {a : Addr} {width : Nat} {v : Word}
    (h : hostWrite a width v s = .next t) :
    SameRecord s t ∨ t.faultFlag = false ∧ ClearsRecord s (.write a width v) := by
  obtain ⟨e, -⟩ | ⟨loc, hform, hl, ⟨-, e⟩ | ⟨-, -, e⟩ | ⟨hb, -, ⟨r, rfl, e⟩ | ⟨bits, w, -, e⟩⟩⟩ :=
    Laws.hostWrite_cases a width v s <;> rw [e] at h
  · cases h; exact .inl (sameRecord_recordFault hf ..)
  · cases h; exact .inl (sameRecord_recordFault hf ..)
  · cases h; exact .inl (sameRecord_recordFault hf ..)
  · obtain hsame | ⟨hclear, rfl, hv⟩ := writeReg_record hf h
    · exact .inl hsame
    · simp only [accessFormed, Bool.and_eq_true, beq_iff_eq] at hform
      obtain ⟨rfl, ha⟩ := hform
      obtain rfl : a = 0x008 := BitVec.eq_of_toNat_eq ((locate_eq_reg_iff ha .status).1 hl)
      exact .inr ⟨hclear, .inr (.inr ⟨v, rfl, hv, hb, hr⟩)⟩
  · cases h; exact .inl ⟨rfl, rfl, rfl⟩

theorem busEvent_record {e : BusEvent} (h : busEvent e s = .next t) :
    SameRecord s t ∨ t.faultFlag = false ∧ ClearsRecord s e := by
  cases e with
  | read a width =>
    cases h
    split_ifs
    · exact .inl ⟨rfl, rfl, rfl⟩
    · exact .inl (sameRecord_hostRead hf a width)
  | write a width v =>
    unfold busEvent at h
    split_ifs at h with hr
    · cases h; exact .inl .rfl
    · exact hostWrite_record hf (Bool.eq_false_iff.2 hr) h
  | complete => cases h; exact .inl (sameRecord_complete hf)
  | assertReset => cases h; exact .inr ⟨rfl, .inl rfl⟩
  | releaseReset =>
    cases h
    unfold releaseReset
    split_ifs with hr
    · exact .inr ⟨rfl, .inr (.inl ⟨rfl, hr⟩)⟩
    · exact .inl .rfl

/-- A step keeps a standing record, or its event clears it. -/
theorem step_record (h : step s = .next t) :
    SameRecord s t ∨ t.faultFlag = false ∧ ∃ e rest, s.bus = e :: rest ∧ ClearsRecord s e := by
  obtain ⟨-, he⟩ | ⟨e, rest, hbus, he⟩ := Laws.step_cases s <;> rw [he] at h
  · cases h; exact .inl (sameRecord_complete hf)
  · obtain hsame | ⟨hclear, hevent⟩ := busEvent_record (s := { s with bus := rest }) hf h
    · exact .inl hsame
    · exact .inr ⟨hclear, e, rest, hbus, hevent⟩

end

/-- Settles O21: the STATUS write is the arm of `writeReg`, or meets the BUSY hazard; `step_record` gives the rest. -/
theorem onlyAStatusWriteOrResetClearsTheFault : Obligations.OnlyAStatusWriteOrResetClearsTheFault := by
  refine ⟨fun s v rest hr h => ⟨fun hb hv => ?_, fun hb hv => ?_, fun hb => ?_⟩, fun s rest h => ?_,
    fun s t hf hstep hclear => ?_⟩
  · rw [step_writeReg (r := .status) hb hr rfl rfl h, writeReg, if_pos hv]
    rfl
  · rw [step_writeReg (r := .status) hb hr rfl rfl h, writeReg, if_neg (Bool.eq_false_iff.1 hv)]
  · exact step_write_busy hr rfl (locate_regOffset .status) hb h
  · exact ⟨_, step_of_bus h, rfl, rfl, rfl⟩
  · obtain ⟨hflag, -, -⟩ | ⟨-, hevent⟩ := step_record hf hstep
    · exact absurd (hflag.trans hf) (by simp [hclear])
    · exact hevent

/-- Settles O22: the CMD write is `issue`, which a standing fault blocks; a step that clears a record leaves none. -/
theorem aStandingFaultKeepsItsRecordAndBlocksCommands : Obligations.AStandingFaultKeepsItsRecordAndBlocksCommands := by
  refine ⟨fun s w rest hr hb hf h => ?_, fun s t hf hstep hflag => ?_⟩
  · rw [step_writeReg (r := .cmd) hb hr rfl rfl h, writeReg]
    exact issue_of_fault (s := { s with bus := rest }) hf w
  · obtain ⟨-, hrecord⟩ | ⟨hclear, -⟩ := step_record hf hstep
    · exact hrecord
    · exact absurd hflag (by simp [hclear])

end Sys2Proof.Proofs
end
